-- ==== Sys2Proof/Word.lean ====
section
/-! DEFINITION. The fixed widths of HUF1: register words, output bytes, symbols and window offsets. -/

namespace Sys2Proof

/-- A register value or a command word: unsigned, 32 bits, bit 0 the least significant (R15, R61). -/
abbrev Word := BitVec 32

/-- One byte of the output buffer (R46). -/
abbrev Byte := BitVec 8

/-- A symbol: the numeric code point of one character, held in 21 bits (R14). -/
abbrev Symbol := BitVec 21

/-- A byte offset into the 0x1000-byte register window, 0x000..0xFFF (R22, R54). -/
abbrev Offset := BitVec 12

end Sys2Proof
end

