-- ==== Sys2Proof/Syntax.lean ====
section
/-! DEFINITION. The command set (one constructor per row of the opcode table), the twelve registers, what the host can do to
the block, and the assembler lines of 30_encoding.md section 4. -/

namespace Sys2Proof

/-- The five commands of R75. The operand of LOAD_SYM is a code point that fits the 21-bit field, so every `Instr` has an
encoding: that a word is well-formed is a check on words (`WellFormed.word`), that an assembler line fits the field a check on lines. -/
inductive Instr where
  /-- NOP (R82). -/
  | nop
  /-- CLEAR (R83). -/
  | clear
  /-- LOAD_SYM cp (R84). -/
  | loadSym (cp : Symbol)
  /-- START (R85). -/
  | start
  /-- STEP (R86). -/
  | step
  deriving DecidableEq, Repr

/-- The twelve host-visible registers of R22, in window order. -/
inductive Reg where
  | id | inCap | cmd | status | err | errCmd | inCount | symCount | bitLen | outCount | outPtr | outData
  deriving DecidableEq, Repr

/-- One thing the outside world does to the block, in the host's program order (R65, R79, R80, R136). `width` is the access width
in bits: only 32 has a meaning (R56). -/
inductive HostOp where
  /-- `BusRead(off)`: the assembler's `RD`. -/
  | read (width : Nat) (off : Offset)
  /-- `BusWrite(off, v)`: the assembler's `WR`. -/
  | write (width : Nat) (off : Offset) (v : Word)
  /-- The `POLL` loop (R80): 32-bit reads of one offset until `value AND mask = val`. -/
  | poll (off : Offset) (mask val : Word)
  /-- The platform asserts reset (R136). -/
  | reset
  deriving DecidableEq, Repr

/-- One line of a host program (R79) or one pseudo-instruction (R80). A text is a list of characters. -/
inductive AsmLine where
  | rd (reg : Reg)
  | wr (reg : Reg) (imm : Word)
  | nop
  | clear
  | loadSym (cp : Nat)
  | start
  | step
  | cmd (imm : Word)
  | loadStr (text : List Char)
  | poll (reg : Reg) (mask val : Word)
  | wait
  | run
  | readOut (n : Nat)
  deriving DecidableEq, Repr

end Sys2Proof
end

