-- ==== Sys2Proof/WellFormed.lean ====
section
/-! DEFINITION. The well-formedness checks: of a command word (R76), of a host access (R56) and of an assembler line (R79). They
are written apart from the decoder and the machine, in the words of those rules. -/

namespace Sys2Proof

/-- R76, "put another way": OP ≤ 0x04, RSV = 0, and OPERAND = 0 unless OP = 0x02. -/
def WellFormed.word (w : Word) : Bool :=
  decide (w.toNat / 2 ^ 24 ≤ 4) && w.toNat / 2 ^ 21 % 8 == 0 && (w.toNat / 2 ^ 24 == 2 || w.toNat % 2 ^ 21 == 0)

/-- R56: an access has a meaning only if it is 32 bits wide and its offset is a multiple of 4. -/
def WellFormed.access (width : Nat) (off : Offset) : Bool := width == 32 && off.toNat % 4 == 0

/-- R56 on everything the host can do; reset is no access. -/
def WellFormed.hostOp : HostOp → Bool
  | .read width off => WellFormed.access width off
  | .write width off _ => WellFormed.access width off
  | .poll off _ _ => WellFormed.access 32 off
  | .reset => true

/-- R79: an assembler refuses LOAD_SYM with cp > 0x1F_FFFF and no other line. -/
def WellFormed.asmLine : AsmLine → Bool
  | .loadSym cp => decide (cp ≤ 0x1FFFFF)
  | .rd _ | .wr _ _ | .nop | .clear | .start | .step | .cmd _ | .loadStr _ | .poll _ _ _ | .wait | .run | .readOut _ => true

end Sys2Proof
end

