-- ==== Sys2Proof/Decode.lean ====
section
/-! DEFINITION. The command decoder of 30_encoding.md, total on all 2^32 words and rejecting by name, and the encoder written from
the same table. -/

namespace Sys2Proof

/-- OP, bits [31:24] (R73). -/
def opField (w : Word) : BitVec 8 := w.extractLsb' 24 8

/-- RSV, bits [23:21] (R73). -/
def rsvField (w : Word) : BitVec 3 := w.extractLsb' 21 3

/-- OPERAND, bits [20:0] (R73, R74). -/
def operandField (w : Word) : Symbol := w.extractLsb' 0 21

/-- One row of the opcode table: `match` and `mask` (R75). -/
structure OpcodeRow where
  pattern : Word
  mask : Word
  deriving DecidableEq, Repr

/-- R75: a word decodes to a row iff `(w & mask) = match`. -/
def OpcodeRow.hits (r : OpcodeRow) (w : Word) : Bool := w &&& r.mask == r.pattern

def rowNop : OpcodeRow := ⟨0x00000000#32, 0xFFFFFFFF#32⟩
def rowClear : OpcodeRow := ⟨0x01000000#32, 0xFFFFFFFF#32⟩
def rowLoadSym : OpcodeRow := ⟨0x02000000#32, 0xFFE00000#32⟩
def rowStart : OpcodeRow := ⟨0x03000000#32, 0xFFFFFFFF#32⟩
def rowStep : OpcodeRow := ⟨0x04000000#32, 0xFFFFFFFF#32⟩

/-- The five rows of R75 (spec/opcode_table.json). -/
def opcodeRows : List OpcodeRow := [rowNop, rowClear, rowLoadSym, rowStart, rowStep]

/-- Why a word is malformed: the three kinds of R77. -/
inductive Malformed where
  /-- Kind 1: OP in 0x05..0xFF. -/
  | reservedOpcode
  /-- Kind 2: RSV ≠ 0. -/
  | reservedBits
  /-- Kind 3: an operand on a command that has none. -/
  | strayOperand
  deriving DecidableEq, Repr

/-- What the decoder answers: one command, or the name of what is wrong with the word. -/
inductive Decoded where
  | command (i : Instr)
  | malformed (why : Malformed)
  deriving DecidableEq, Repr

/-- The name of a malformed word. A word can be of several kinds at once (R77): the first of the rule's list is named. -/
def malformedKind (w : Word) : Malformed :=
  if 4 < (opField w).toNat then .reservedOpcode
  else if rsvField w ≠ 0#3 then .reservedBits
  else .strayOperand

/-- The command decoder of R75 to R77. -/
def decode (w : Word) : Decoded :=
  if rowNop.hits w then .command .nop
  else if rowClear.hits w then .command .clear
  else if rowLoadSym.hits w then .command (.loadSym (operandField w))
  else if rowStart.hits w then .command .start
  else if rowStep.hits w then .command .step
  else .malformed (malformedKind w)

/-- The word of a command: the row's match, with the code point in [20:0] for LOAD_SYM (R74, R79). -/
def encode : Instr → Word
  | .nop => rowNop.pattern
  | .clear => rowClear.pattern
  | .loadSym cp => rowLoadSym.pattern ||| cp.setWidth 32
  | .start => rowStart.pattern
  | .step => rowStep.pattern

/-- The decoder's answer without the name of what is wrong. -/
def Decoded.toOption : Decoded → Option Instr
  | .command i => some i
  | .malformed _ => none

/-- The decoder on a word as spec/opcode_table.json numbers its bits. A command is ONE 32-bit word (R73), so there is no later
word and no byte order to apply (R61); a number that does not fit 32 bits is no command word. -/
def decodeTableWord (nbits w : Nat) : Option Instr :=
  if nbits ≤ 32 ∧ w < 2 ^ 32 then (decode (BitVec.ofNat 32 w)).toOption else none

end Sys2Proof
end

