-- ==== Sys2Proof/Config.lean ====
section
/-! DEFINITION. What an implementation of HUF1 fixes: the parameters of 00_scope.md section 4, the capacities derived from
IN_CAP, the ID constant, the window size, and the one free value of the model (how long a stage takes). -/

namespace Sys2Proof

/-- The read-only ID word, the ASCII bytes "HUF1" (R2, R23). -/
def Config.idWord : Word := 0x48554631#32

/-- The size of the register window in bytes (R22, R54). -/
def Config.windowBytes : Nat := 0x1000

/-- The default capacity of the input store in symbols, 2^20 (R10). -/
def Config.defaultInCap : Nat := 0x100000

/-- The largest legal capacity of the input store, 2^24 (R10). -/
def Config.maxInCap : Nat := 0x1000000

/-- IN_CAP is a parameter with 1 ≤ IN_CAP ≤ 2^24 (R10); any other value is no legal configuration (93_implementation_defined.md row 25). -/
def Config.legalInCap (inCap : Nat) : Bool := decide (1 ≤ inCap) && decide (inCap ≤ Config.maxInCap)

/-- The platform's choice of HUF1_BASE: any multiple of 0x1000 (R55). -/
def Config.legalBase (base : Nat) : Bool := base % Config.windowBytes == 0

/-- From `a = Fib(d+2)` and `b = Fib(d+3)`, the largest depth whose Fibonacci weight still fits `cap`, within `fuel` steps. -/
def Config.lmaxFrom (cap : Nat) : Nat → Nat → Nat → Nat → Nat
  | 0, _, _, d => d
  | fuel + 1, a, b, d => if b ≤ cap then Config.lmaxFrom cap fuel b (a + b) (d + 1) else d

/-- LMAX: the largest d with Fib(d+2) ≤ IN_CAP (R12). Forty rounds pass the largest legal IN_CAP, where LMAX = 34. -/
def Config.lmax (inCap : Nat) : Nat := Config.lmaxFrom inCap 40 1 2 0

/-- SYM_CAP: entries of the frequency table and of the code table (R11). -/
def Config.symCap (inCap : Nat) : Nat := inCap

/-- NODE_CAP: nodes of the arena (R11). -/
def Config.nodeCap (inCap : Nat) : Nat := 2 * inCap - 1

/-- BIT_CAP: bits of the bit buffer (R11). -/
def Config.bitCap (inCap : Nat) : Nat := 32 + inCap * (16 + Config.lmax inCap)

/-- OUT_CAP: bytes of the output buffer (R11). -/
def Config.outCap (inCap : Nat) : Nat := Config.bitCap inCap / 4

/-- FREE VALUE (log entry 1): how many host accesses the interleaving places before the engine's pending stage, at the n-th draw.
R145 gives a stage "an unspecified, finite, non-zero time" and R65 allows any interleaving, so nothing is known of it but that it is
a number, that is, finite (the weak fairness of R67). -/
opaque Config.stageDelay : Nat → Nat

end Sys2Proof
end

