-- ==== Sys2Proof/Machine/State.lean ====
section
/-! DEFINITION. Everything the spec gives the machine (10_state.md), as plain data; the two agents of 20_memory.md section 4; the
reasons a step can stop; and the state after reset (R53). -/

namespace Sys2Proof.Machine

/-- One entry of the frequency table: a symbol and how often it occurs (R41). -/
structure FreqEntry where
  sym : Symbol
  count : Nat
  deriving DecidableEq, Repr

/-- One node of the arena; children are indices into the arena (R42). -/
inductive Node where
  | leaf (sym : Symbol) (freq : Nat)
  | internal (freq left right : Nat)
  deriving DecidableEq, Repr

/-- One entry of the code table; the code is a bit string, first bit first (R44). -/
structure CodeEntry where
  sym : Symbol
  code : List Bool
  deriving DecidableEq, Repr

/-- The agents' own data, NOT state of the block: what the host has still to do, what it has read, and where the interleaving
places the engine's next stage (R65; log entries 1 and 2). CLEAR and reset do not touch it. -/
structure Agents where
  /-- What the host still does, in its program order (R66). -/
  ops : List HostOp
  /-- The values that `RD` and `POLL` have bound, oldest first (R79, R80). -/
  vars : List Word
  /-- The interleaving as far as it is written down: how many host accesses still come before the pending stage, then before the
  stage after it, and so on. Beyond the end of the list the free value `Config.stageDelay` decides. -/
  delays : List Nat
  /-- How many delays the free value has decided: the counter it is applied to. -/
  draws : Nat
  deriving DecidableEq, Repr

/-- The errors the block raises (R121). None of them is a `Fault` of the model: each is a next state in phase ERROR. -/
inductive ErrorCode where
  | emptyInput | bitLength | lengthOverflow | illegalCommand | sequence | busy | badSymbol | inputFull
  deriving DecidableEq, Repr

/-- Why a step can stop with a fault. Each is SAFE and none is reachable from reset: a stage's pseudocode reads something that
the stores do not hold, which the spec's own data rules exclude, so the spec gives that step no effect. -/
inductive Fault where
  /-- Raised by the engine step when `busy()` holds with `S.phase` above 4: R38 keeps `S.target` at 5 or below, and only stages 1 to 5 exist. -/
  | noSuchStage
  /-- Raised by stage 3 when `S.root` is none: R42 gives a root once stage 2 has succeeded. -/
  | noRoot
  /-- Raised by stage 3 when the arena is no tree over the slots: an index outside the arena, a leaf that is no slot, a cycle (R42, R102). -/
  | brokenTree
  /-- Raised by stage 4 when an input symbol has no code table entry: R108 says that one exists. -/
  | noCode
  deriving DecidableEq, Repr

/-- Why a step can be refused. -/
inductive Refusal where
  /-- An instruction of the table without a meaning yet; raised by no instruction of this model. SAFE. -/
  | notModelled (mnemonic : String)
  /-- Raised by a host access that is not 32 bits wide (R56: "A model refuses it"). SAFE. -/
  | accessWidth
  /-- Raised by a host access whose offset is no multiple of 4 (R56: "A model refuses it"). SAFE. -/
  | misaligned
  /-- Raised by a step of a machine whose IN_CAP is outside 1..2^24 (93_implementation_defined.md row 25: refuse). SAFE. -/
  | illegalInCap
  deriving DecidableEq, Repr

/-- The state of the block and of its two agents. The register STATUS is computed (R26), as are OUT_DATA (R34), IN_COUNT (R29)
and OUT_COUNT (R32); CMD stores nothing (R25); ID is a constant (R23). -/
structure State where
  /-- The parameter IN_CAP, read through the register of that name; nothing changes it (R10, R24). -/
  inCap : Nat
  /-- `S.phase` (R37). -/
  phase : BitVec 3
  /-- `S.target` (R38). -/
  target : BitVec 3
  /-- `S.in`, the input store (R40). -/
  input : List Symbol
  /-- `S.freq`, the frequency table (R41). -/
  freq : List FreqEntry
  /-- `S.sym_count` (R47). -/
  symCount : Word
  /-- `S.nodes`, the node arena (R42). -/
  nodes : List Node
  /-- `S.root` (R42). -/
  root : Option Nat
  /-- `S.work`, the working collection (R43). -/
  work : List Nat
  /-- `S.codes`, the code table (R44). -/
  codes : List CodeEntry
  /-- `S.bits`, the bit buffer (R45). -/
  bits : List Bool
  /-- `S.bit_len` (R45). -/
  bitLen : Word
  /-- `S.out`, the output buffer (R46). -/
  out : List Byte
  /-- `S.out_ptr` (R33, R46). -/
  outPtr : Word
  /-- `S.err_code` (R48). -/
  errCode : BitVec 8
  /-- `S.err_stage` (R48). -/
  errStage : BitVec 3
  /-- `S.err_cmd` (R48). -/
  errCmd : Word
  /-- The two agents of R65: the model's own field. -/
  agents : Agents
  deriving DecidableEq, Repr

/-- The agents when nothing has happened: the host has nothing to do and has read nothing, and no part of the interleaving is written
down, so that the free value decides all of it. DESIGN CHOICE (log entries 1 and 2): these fields are the model's, not the spec's. -/
def Agents.none : Agents := { ops := [], vars := [], delays := [], draws := 0 }

/-- The machine right after reset (R53), with the default IN_CAP (R10) and a silent host. -/
def State.reset : State where
  inCap := Config.defaultInCap
  phase := 0#3
  target := 0#3
  input := []
  freq := []
  symCount := 0#32
  nodes := []
  root := Option.none
  work := []
  codes := []
  bits := []
  bitLen := 0#32
  out := []
  outPtr := 0#32
  errCode := 0#8
  errStage := 0#3
  errCmd := 0#32
  agents := Agents.none

end Sys2Proof.Machine
end

