-- ==== Sys2Proof/Machine/Ops.lean ====
section
/-! DEFINITION. The named operations that the commands, the stages and the host's accesses share: error entry and its only exit,
the updates of the agents' data, the bit-string primitives of R16 and the stable sort of R18. -/

namespace Sys2Proof.Machine

/-- What one command, one access or one stage answers. -/
abbrev Result := Host.Outcome State Fault Refusal

/-- ERR.CODE of each error (R121). -/
def errorValue : ErrorCode → BitVec 8
  | .emptyInput => 0x01#8
  | .bitLength => 0x02#8
  | .lengthOverflow => 0x03#8
  | .illegalCommand => 0x10#8
  | .sequence => 0x11#8
  | .busy => 0x12#8
  | .badSymbol => 0x13#8
  | .inputFull => 0x14#8

/-- Error entry (R123): the record is written, the phase becomes ERROR, the engine stops, no output survives; all else is kept. -/
def errorEntry (e : ErrorCode) (stage : BitVec 3) (cmd : Word) (s : State) : State :=
  { s with errCode := errorValue e, errStage := stage, errCmd := cmd, phase := 7#3, target := 0#3, out := [] }

/-- `raise E(cmd = w)` from a command: error entry with stage 0, and nothing else (R81). -/
def raiseCommand (e : ErrorCode) (w : Word) (s : State) : Result := .next (errorEntry e 0#3 w s)

/-- CLEAR and reset, the only exits from phase ERROR (R83, R127, R136): every state element of the block to its reset value. The
parameter IN_CAP is a constant, and the agents' data is not the block's. -/
def clearJob (s : State) : State := { State.reset with inCap := s.inCap, agents := s.agents }

/-- A command in phase ERROR is ignored (R81, R125). -/
def unlessError (s : State) (act : Result) : Result := if s.phase = 7#3 then .next s else act

/-- START and STEP: the engine is to run toward phase `t` (R85, R86). -/
def setTarget (t : BitVec 3) (s : State) : State := { s with target := t }

/-- The host has `ops` left to do. -/
def setOps (ops : List HostOp) (s : State) : State := { s with agents := { s.agents with ops := ops } }

/-- How many host accesses come before the pending stage: written down, or the free value's (log entry 1). -/
def pendingDelay (s : State) : Nat :=
  match s.agents.delays with
  | d :: _ => d
  | [] => Config.stageDelay s.agents.draws

/-- The number of draws once the pending delay has been used. -/
def drawsAfter (s : State) : Nat := if s.agents.delays.isEmpty then s.agents.draws + 1 else s.agents.draws

/-- The pending delay becomes `d`. -/
def setDelay (d : Nat) (s : State) : State :=
  { s with agents := { s.agents with delays := d :: s.agents.delays.tail, draws := drawsAfter s } }

/-- The pending stage is performed: the delay after it is the pending one from now on. -/
def takeStage (s : State) : State :=
  { s with agents := { s.agents with delays := s.agents.delays.tail, draws := drawsAfter s } }

/-- `RD` or `POLL` binds the value it read (R79, R80). -/
def bindVar (v : Word) (s : State) : State := { s with agents := { s.agents with vars := s.agents.vars ++ [v] } }

/-- `bin_N(v)` (R16): bit i of the string is bit N − 1 − i of v, so the first bit is the most significant. -/
def binN (n v : Nat) : List Bool := (List.range n).map fun i => v.testBit (n - 1 - i)

/-- `num(b)` (R16): the value of a bit string read as a base-2 numeral, first bit most significant. -/
def numOf (b : List Bool) : Nat := b.foldl (fun acc x => 2 * acc + x.toNat) 0

/-- Puts `x` in front of the first element whose key is not greater than that of `x`. -/
def insertDesc (key : Nat → Nat) (x : Nat) : List Nat → List Nat
  | [] => [x]
  | y :: ys => if key y ≤ key x then x :: y :: ys else y :: insertDesc key x ys

/-- `stable_sort_desc(L, key)` (R18): descending by key, elements of equal key in their old order. -/
def stableSortDesc (key : Nat → Nat) (l : List Nat) : List Nat := l.foldr (insertDesc key) []

end Sys2Proof.Machine
end

