-- ==== Sys2Proof/Machine/Operands.lean ====
section
/-! DEFINITION. Operand forms: which code points are symbols (R84), which offset is which register (R22), and where the window sits
in the host's address map (R55). -/

namespace Sys2Proof.Machine

/-- `scalar(cp)` (R84, R14): a Unicode scalar value. -/
def isScalar (cp : Symbol) : Bool := decide (cp.toNat ≤ 0x10FFFF) && !(decide (0xD800 ≤ cp.toNat) && decide (cp.toNat ≤ 0xDFFF))

/-- The byte offset of each register (R22). -/
def regOffset : Reg → Offset
  | .id => 0x00#12
  | .inCap => 0x04#12
  | .cmd => 0x08#12
  | .status => 0x0C#12
  | .err => 0x10#12
  | .errCmd => 0x14#12
  | .inCount => 0x18#12
  | .symCount => 0x1C#12
  | .bitLen => 0x20#12
  | .outCount => 0x24#12
  | .outPtr => 0x28#12
  | .outData => 0x2C#12

/-- The register at an offset, none where the window is unmapped (R22, R57). -/
def regAt (off : Offset) : Option Reg :=
  match off.toNat with
  | 0x00 => some .id
  | 0x04 => some .inCap
  | 0x08 => some .cmd
  | 0x0C => some .status
  | 0x10 => some .err
  | 0x14 => some .errCmd
  | 0x18 => some .inCount
  | 0x1C => some .symCount
  | 0x20 => some .bitLen
  | 0x24 => some .outCount
  | 0x28 => some .outPtr
  | 0x2C => some .outData
  | _ => none

/-- The window offset that byte address `addr` of the host's map stands for, with the block at `base` (R55); none outside the window. -/
def windowOffset (base addr : Nat) : Option Offset :=
  if base ≤ addr ∧ addr < base + Config.windowBytes then some (BitVec.ofNat 12 (addr - base)) else none

/-- The read that a host's read of byte address `addr` is, with the block at `base` (R55); none if it does not reach the block. -/
def readAt (base width addr : Nat) : Option HostOp := (windowOffset base addr).map (HostOp.read width)

/-- The write that a host's write to byte address `addr` is, with the block at `base` (R55). -/
def writeAt (base width addr : Nat) (v : Word) : Option HostOp := (windowOffset base addr).map fun off => HostOp.write width off v

/-- An access the block's interface contract covers: 32 bits wide, at a multiple of 4; any other is refused (R56). -/
def checkedAccess (width : Nat) (off : Offset) (act : Result) : Result :=
  if width ≠ 32 then .refused .accessWidth
  else if off.toNat % 4 ≠ 0 then .refused .misaligned
  else act

end Sys2Proof.Machine
end

