-- ==== Sys2Proof/Machine/Flags.lean ====
section
/-! DEFINITION. The computed flags and words: busy (R39), the STATUS fields (R26, R36), ERR (R27) and OUT_DATA (R34). -/

namespace Sys2Proof.Machine

/-- `busy()` (R39): the engine has a stage to perform. -/
def busy (s : State) : Bool := s.phase != 7#3 && decide (s.phase.toNat < s.target.toNat)

/-- STATUS.DONE (R26). -/
def doneFlag (s : State) : Bool := s.phase == 5#3

/-- STATUS.ERR (R26). -/
def errFlag (s : State) : Bool := s.phase == 7#3

/-- STATUS.IN_FULL (R26). -/
def inFull (s : State) : Bool := s.input.length == s.inCap

/-- A flag at bit `i` of a word. -/
def flagAt (i : Nat) (b : Bool) : Word := if b then 1#32 <<< i else 0#32

/-- The STATUS word (R26, R87). -/
def statusWord (s : State) : Word :=
  s.phase.setWidth 32 ||| s.target.setWidth 32 <<< 4 ||| flagAt 8 (busy s) ||| flagAt 9 (doneFlag s)
    ||| flagAt 10 (errFlag s) ||| flagAt 11 (inFull s)

/-- The ERR word (R27, R87). -/
def errWord (s : State) : Word := s.errStage.setWidth 32 <<< 8 ||| s.errCode.setWidth 32

/-- The OUT_DATA word (R34): VALID and the byte, in phase DONE for an index in range, else 0. -/
def outDataWord (s : State) : Word :=
  if s.phase = 5#3 then
    match s.out[s.outPtr.toNat]? with
    | some b => 0x80000000#32 ||| b.setWidth 32
    | none => 0#32
  else 0#32

end Sys2Proof.Machine
end

