-- ==== Sys2Proof/Machine/Commands.lean ====
section
/-! DEFINITION. The meaning of each command (40_host_commands.md section 2) and of a malformed word (R77, R81). -/

namespace Sys2Proof.Machine

/-- NOP (R82): no state changes, in any phase. -/
def execNop (s : State) : Result := .next s

/-- CLEAR (R83): accepted in every phase, busy or not. -/
def execClear (s : State) : Result := .next (clearJob s)

/-- LOAD_SYM cp (R84), the checks in the order of R126; ignored in phase ERROR (R125). -/
def execLoadSym (cp : Symbol) (s : State) : Result :=
  unlessError s <|
    if busy s then raiseCommand .busy (encode (.loadSym cp)) s
    else if s.phase ≠ 0#3 then raiseCommand .sequence (encode (.loadSym cp)) s
    else if !isScalar cp then raiseCommand .badSymbol (encode (.loadSym cp)) s
    else if s.input.length = s.inCap then raiseCommand .inputFull (encode (.loadSym cp)) s
    else .next { s with input := s.input ++ [cp] }

/-- START (R85). -/
def execStart (s : State) : Result :=
  unlessError s <|
    if busy s then raiseCommand .busy (encode .start) s
    else if 4 < s.phase.toNat then raiseCommand .sequence (encode .start) s
    else .next (setTarget 5#3 s)

/-- STEP (R86). -/
def execStep (s : State) : Result :=
  unlessError s <|
    if busy s then raiseCommand .busy (encode .step) s
    else if 4 < s.phase.toNat then raiseCommand .sequence (encode .step) s
    else .next (setTarget (s.phase + 1#3) s)

/-- A malformed command word (R77, R81): ILLEGAL_COMMAND, or ignored in phase ERROR. -/
def execMalformed (w : Word) (s : State) : Result := unlessError s (raiseCommand .illegalCommand w s)

end Sys2Proof.Machine
end

