-- ==== Sys2Proof/Machine/Count.lean ====
section
/-! DEFINITION. What a stage answers, and stage 1, the Frequency Counter (41_frequency_counter.md). -/

namespace Sys2Proof.Machine

/-- What a stage answers (R92): its writes, committed together; an error; or a reason that its pseudocode has no next step. -/
inductive StageResult where
  | commit (s : State)
  | raised (e : ErrorCode)
  | stuck (f : Fault)
  deriving DecidableEq, Repr

/-- One pass of the loop of R94: count a symbol that is in the table, put a new one at the end. -/
def countSymbol : List FreqEntry → Symbol → List FreqEntry
  | [], s => [⟨s, 1⟩]
  | e :: rest, s => if e.sym = s then { e with count := e.count + 1 } :: rest else e :: countSymbol rest s

/-- The table F of R94: the symbols in first-occurrence order with their counts. -/
def countSymbols (input : List Symbol) : List FreqEntry := input.foldl countSymbol []

/-- Stage 1, COUNT (R94). -/
def countStage (s : State) : StageResult :=
  .commit { s with freq := countSymbols s.input, symCount := BitVec.ofNat 32 (countSymbols s.input).length }

end Sys2Proof.Machine
end

