-- ==== Sys2Proof/Machine/Tree.lean ====
section
/-! DEFINITION. Stage 2, the Huffman Tree Builder (42_tree_builder.md). -/

namespace Sys2Proof.Machine

/-- The arena N and the working collection W of R96. -/
structure Forest where
  nodes : List Node
  work : List Nat
  deriving DecidableEq, Repr

/-- `freq(node)` (R96). -/
def nodeWeight : Node → Nat
  | .leaf _ f => f
  | .internal f _ _ => f

/-- `freq(N[k])`. Stage 2 asks only for indices it has put into W, which are in the arena. -/
def freqAt (nodes : List Node) (k : Nat) : Nat :=
  match nodes[k]? with
  | some n => nodeWeight n
  | none => 0

/-- Step 1 of R96: one leaf per slot, W in frequency-table order. -/
def leafForest (freq : List FreqEntry) : Forest where
  nodes := freq.map fun e => .leaf e.sym e.count
  work := List.range freq.length

/-- One round of step 2 of R96: sort, take the last (x, left) and the next to last (y, right), append the merged node at the tail. -/
def mergeRound (f : Forest) : Forest :=
  match (stableSortDesc (freqAt f.nodes) f.work).reverse with
  | x :: y :: rest =>
    { nodes := f.nodes ++ [.internal (freqAt f.nodes x + freqAt f.nodes y) x y]
      work := rest.reverse ++ [f.nodes.length] }
  | _ => f

/-- The loop of R96: rounds while more than one node is in W, at most `fuel` of them. -/
def mergeWhile : Nat → Forest → Forest
  | 0, f => f
  | fuel + 1, f => if 1 < f.work.length then mergeWhile fuel (mergeRound f) else f

/-- The forest stage 2 ends with: n rounds are enough for n entries (R102). -/
def buildTree (freq : List FreqEntry) : Forest := mergeWhile freq.length (leafForest freq)

/-- Stage 2, BUILD_TREE (R96); EMPTY_INPUT on an empty table (R100). -/
def buildTreeStage (s : State) : StageResult :=
  if s.freq.length = 0 then .raised .emptyInput
  else .commit { s with nodes := (buildTree s.freq).nodes, root := (buildTree s.freq).work[0]?, work := (buildTree s.freq).work }

end Sys2Proof.Machine
end

