-- ==== Sys2Proof/Machine/Codes.lean ====
section
/-! DEFINITION. Stage 3, the Code Table Builder (43_code_table_builder.md). -/

namespace Sys2Proof.Machine

/-- `visit(k, p)` of R104 on the table C. It answers none where the arena is no tree over the slots of C; `fuel` bounds the depth,
which is below the number of nodes because children stand before their parents (R102). -/
def visit (nodes : List Node) : Nat → Nat → List Bool → List CodeEntry → Option (List CodeEntry)
  | 0, _, _, _ => none
  | fuel + 1, k, p, c =>
    match nodes[k]? with
    | none => none
    | some (.leaf _ _) => if k < c.length then some (c.modify k fun e => { e with code := p }) else none
    | some (.internal _ l r) =>
      match visit nodes fuel l (p ++ [false]) c with
      | none => none
      | some c' => visit nodes fuel r (p ++ [true]) c'

/-- The table C before the traversal: one entry per slot, in slot order, with the empty code (R104). -/
def emptyCodes (freq : List FreqEntry) : List CodeEntry := freq.map fun e => ⟨e.sym, []⟩

/-- The table C of R104 for a tree with root `r`. -/
def codesFrom (freq : List FreqEntry) (nodes : List Node) (r : Nat) : Option (List CodeEntry) :=
  visit nodes nodes.length r [] (emptyCodes freq)

/-- Stage 3, BUILD_CODES (R104). -/
def buildCodesStage (s : State) : StageResult :=
  match s.root with
  | none => .stuck .noRoot
  | some r =>
    match codesFrom s.freq s.nodes r with
    | none => .stuck .brokenTree
    | some c => .commit { s with codes := c }

end Sys2Proof.Machine
end

