-- ==== Sys2Proof/Machine/Serialize.lean ====
section
/-! DEFINITION. Stage 4, the Bitstream Encoder (44_bitstream_encoder.md). -/

namespace Sys2Proof.Machine

/-- One table entry of the header: 8 bits of code length, then the low byte of the code point (R110, R111). -/
def entryBits (e : CodeEntry) : List Bool := binN 8 e.code.length ++ binN 8 (e.sym.toNat % 256)

/-- The header: the 32-bit entry count, then the entries in table order (R109, R110). -/
def headerBits (codes : List CodeEntry) : List Bool := binN 32 codes.length ++ codes.flatMap entryBits

/-- `S.codes[slot(s)].code` (R108). -/
def codeOf (codes : List CodeEntry) (s : Symbol) : Option (List Bool) := (codes.find? fun e => e.sym == s).map (·.code)

/-- The body: the codes of the input symbols in input order (R112). -/
def bodyBits (codes : List CodeEntry) : List Symbol → Option (List Bool)
  | [] => some []
  | s :: rest =>
    match codeOf codes s, bodyBits codes rest with
    | some c, some b => some (c ++ b)
    | _, _ => none

/-- Stage 4, SERIALIZE (R108), with the two guards of R113. -/
def serializeStage (s : State) : StageResult :=
  if s.codes.any (fun e => decide (255 < e.code.length)) then .raised .lengthOverflow
  else
    match bodyBits s.codes s.input with
    | none => .stuck .noCode
    | some b =>
      if 4294967295 < (headerBits s.codes ++ b).length then .raised .lengthOverflow
      else .commit { s with bits := headerBits s.codes ++ b, bitLen := BitVec.ofNat 32 (headerBits s.codes ++ b).length }

end Sys2Proof.Machine
end

