-- ==== Sys2Proof/Machine/Pack.lean ====
section
/-! DEFINITION. Stage 5, the Byte Packer (45_byte_packer.md). -/

namespace Sys2Proof.Machine

/-- One output byte per chunk of 4 bits, first bit most significant (R116, R63). A rest shorter than a chunk gives no byte. -/
def packBits : List Bool → List Byte
  | a :: b :: c :: d :: rest => BitVec.ofNat 8 (numOf [a, b, c, d]) :: packBits rest
  | _ => []

/-- Stage 5, PACK (R116); BIT_LENGTH on a length that is no multiple of 4 (R118). -/
def packStage (s : State) : StageResult :=
  if s.bits.length % 4 ≠ 0 then .raised .bitLength
  else .commit { s with out := packBits s.bits }

end Sys2Proof.Machine
end

