-- ==== Sys2Proof/Machine/Registers.lean ====
section
/-! DEFINITION. Reading the register window (R87). -/

namespace Sys2Proof.Machine

/-- The value of each register (R23 to R34). CMD reads 0 (R25). -/
def readReg (r : Reg) (s : State) : Word :=
  match r with
  | .id => Config.idWord
  | .inCap => BitVec.ofNat 32 s.inCap
  | .cmd => 0#32
  | .status => statusWord s
  | .err => errWord s
  | .errCmd => s.errCmd
  | .inCount => BitVec.ofNat 32 s.input.length
  | .symCount => s.symCount
  | .bitLen => s.bitLen
  | .outCount => BitVec.ofNat 32 s.out.length
  | .outPtr => s.outPtr
  | .outData => outDataWord s

/-- `BusRead(off)` at an aligned offset: the register's value, 0 where the window is unmapped (R87, R57). -/
def busRead (off : Offset) (s : State) : Word :=
  match regAt off with
  | some r => readReg r s
  | none => 0#32

end Sys2Proof.Machine
end

