-- ==== Sys2Proof/Machine/Agents.lean ====
section
/-! DEFINITION. The two agents of 20_memory.md section 4: the engine step (R92), the host's accesses (R81, R87, R88, R80), and which
of them moves next (R65). -/

namespace Sys2Proof.Machine

/-- `stage_k` (R92). -/
def runStage (k : Nat) (s : State) : StageResult :=
  match k with
  | 1 => countStage s
  | 2 => buildTreeStage s
  | 3 => buildCodesStage s
  | 4 => serializeStage s
  | 5 => packStage s
  | _ => .stuck .noSuchStage

/-- The engine step (R92): one whole stage. Its writes and the new phase land together, or the error entry is all that happens. -/
def engineStep (s : State) : Result :=
  match runStage (s.phase.toNat + 1) s with
  | .commit s' => .next { s' with phase := BitVec.ofNat 3 (s.phase.toNat + 1) }
  | .raised e => .next (errorEntry e (BitVec.ofNat 3 (s.phase.toNat + 1)) 0#32 s)
  | .stuck f => .fault f

/-- A command word written to CMD (R81). -/
def runCommand (w : Word) (s : State) : Result :=
  match decode w with
  | .command i => exec i s
  | .malformed _ => execMalformed w s

/-- `BusWrite(off, v)` at an aligned offset (R88): CMD runs a command, OUT_PTR is written, all else is ignored (R57, R58). -/
def busWrite (off : Offset) (v : Word) (s : State) : Result :=
  match regAt off with
  | some .cmd => runCommand v s
  | some .outPtr => .next { s with outPtr := v }
  | _ => .next s

/-- One read of a `POLL` loop (R80): it binds the value and ends, or the loop is still the next thing the host does. -/
def pollOnce (off : Offset) (mask val : Word) (s : State) : Result :=
  if busRead off s &&& mask = val then .next (bindVar (busRead off s) s)
  else .next (setOps (.poll off mask val :: s.agents.ops) s)

/-- What one thing the host does, does; it is already taken off the host's list. -/
def hostAccess (op : HostOp) (s : State) : Result :=
  match op with
  | .read width off => checkedAccess width off (.next (bindVar (busRead off s) s))
  | .write width off v => checkedAccess width off (busWrite off v s)
  | .poll off mask val => checkedAccess 32 off (pollOnce off mask val s)
  | .reset => .next (clearJob s)

/-- The host takes `rest` as what it still has to do; while a stage is pending, this is one of the accesses that come before it. -/
def takeOp (rest : List HostOp) (s : State) : State :=
  if busy s then setDelay (pendingDelay s - 1) (setOps rest s) else setOps rest s

/-- Which agent moves. -/
inductive Mover where
  | host (op : HostOp) (rest : List HostOp)
  | engine
  | nobody
  deriving DecidableEq, Repr

/-- R65: the engine can move while `busy()` holds, the host while it has something to do. Where both can, the host moves as often as
the interleaving says before the engine does. -/
def nextMover (s : State) : Mover :=
  match busy s, s.agents.ops with
  | false, [] => .nobody
  | true, [] => .engine
  | false, op :: rest => .host op rest
  | true, op :: rest => if pendingDelay s = 0 then .engine else .host op rest

/-- One atomic step of one agent (R60, R65). With neither able to move the block is idle and all state survives (R135). -/
def agentStep (s : State) : Result :=
  match nextMover s with
  | .nobody => .next s
  | .engine => engineStep (takeStage s)
  | .host op rest => hostAccess op (takeOp rest s)

/-- A machine whose IN_CAP is no legal configuration has no step (93_implementation_defined.md row 25). -/
def legalStep (s : State) : Result := if Config.legalInCap s.inCap then agentStep s else .refused .illegalInCap

/-- `s` with a word written to CMD as the host's next access, and that access placed before a pending stage. -/
def pushCommand (w : Word) (s : State) : State :=
  setOps (.write 32 0x08#12 w :: s.agents.ops) (if busy s then setDelay (pendingDelay s + 1) s else s)

end Sys2Proof.Machine
end

