-- ==== Sys2Proof/Machine/Step.lean ====
section
/-! DEFINITION. One step of the machine, and how a command comes to be the next thing it runs. -/

namespace Sys2Proof.Machine

/-- One step: the host performs one access or the engine performs one stage (R65). -/
def step (s : State) : Host.Outcome State Fault Refusal := legalStep s

/-- The block fetches nothing (R3, R70): a command reaches it as a host write to CMD (R81). So `s` with the word `w` "where the next
instruction is fetched" is `s` whose host writes `w` to CMD next. A command is one 32-bit word (R73). -/
def State.withFetchWord (s : State) (_nbits w : Nat) : State := pushCommand (BitVec.ofNat 32 w) s

end Sys2Proof.Machine
end

