-- ==== Sys2Proof/Machine/Assembler.lean ====
section
/-! DEFINITION. The assembler of host programs: the lines of R79 and the expansions of R80. -/

namespace Sys2Proof.Machine

/-- A command word written to CMD (R79). -/
def cmdWrite (w : Word) : HostOp := .write 32 (regOffset .cmd) w

/-- `LOAD_SYM cp` for a code point that fits the field (R79). -/
def loadSymOp (cp : Nat) : HostOp := cmdWrite (encode (.loadSym (BitVec.ofNat 21 cp)))

/-- `LOAD_STR` (R80): one LOAD_SYM per character, in order. -/
def loadStrOps (text : List Char) : List HostOp := text.map fun c => loadSymOp c.toNat

/-- `WAIT` (R80): poll STATUS until BUSY = 0. -/
def waitOp : HostOp := .poll (regOffset .status) 0x00000100#32 0#32

/-- One turn of `READ_OUT` (R80): write the index, read the byte. DESIGN CHOICE (log entry 14): an index of 2^32 or more does not fit
the imm32 of `WR` (R79), and the spec does not say what the line then means; its low 32 bits are written. -/
def readOutAt (m : Nat) : List HostOp :=
  [.write 32 (regOffset .outPtr) (BitVec.ofNat 32 m), .read 32 (regOffset .outData)]

/-- `READ_OUT n` (R80). -/
def readOutOps (n : Nat) : List HostOp := (List.range n).flatMap readOutAt

/-- What a line stands for (R79, R80); none where the assembler refuses it. -/
def assemble : AsmLine → Option (List HostOp)
  | .rd r => some [.read 32 (regOffset r)]
  | .wr r imm => some [.write 32 (regOffset r) imm]
  | .nop => some [cmdWrite (encode .nop)]
  | .clear => some [cmdWrite (encode .clear)]
  | .loadSym cp => if cp ≤ 0x1FFFFF then some [loadSymOp cp] else none
  | .start => some [cmdWrite (encode .start)]
  | .step => some [cmdWrite (encode .step)]
  | .cmd imm => some [cmdWrite imm]
  | .loadStr text => some (loadStrOps text)
  | .poll r mask val => some [.poll (regOffset r) mask val]
  | .wait => some [waitOp]
  | .run => some [cmdWrite (encode .start), waitOp]
  | .readOut n => some (readOutOps n)

/-- A host program, line after line; none if the assembler refuses a line. -/
def assembleAll : List AsmLine → Option (List HostOp)
  | [] => some []
  | l :: rest =>
    match assemble l, assembleAll rest with
    | some a, some b => some (a ++ b)
    | _, _ => none

end Sys2Proof.Machine
end

