-- ==== Sys2Proof/Safety.lean ====
section
/-! DEFINITION. The terms that claims about HUF1 are stated in: whose turn it is, when a job has ended (R140), what a job computes
from its input, what the stores hold in each phase (R50), and the invariant of the machine. -/

namespace Sys2Proof.Machine

/-- The host's next access is the next step: it is `op`, and `rest` comes after it. -/
def hostsTurn (s : State) (op : HostOp) (rest : List HostOp) : Prop :=
  s.agents.ops = op :: rest ∧ (busy s = true → pendingDelay s ≠ 0)

/-- The next step is the host's CLEAR or reset (R83, R136). -/
def hostClears (s : State) : Prop := ∃ rest, hostsTurn s (.write 32 0x08#12 0x01000000#32) rest ∨ hostsTurn s .reset rest

/-- The engine's pending stage is the next step. -/
def enginesTurn (s : State) : Prop := busy s = true ∧ (s.agents.ops = [] ∨ pendingDelay s = 0)

/-- Neither agent can move (R135). -/
def idle (s : State) : Prop := busy s = false ∧ s.agents.ops = []

/-- The block of `t` is the block of `s`: they differ in the agents' data at most. -/
def sameBlock (s t : State) : Prop := { t with agents := s.agents } = s

/-- A job has ended (R140). -/
def jobEnded (s : State) : Prop := busy s = false ∧ (s.phase = 5#3 ∨ s.phase = 7#3)

/-- A job has succeeded (R140). -/
def jobSucceeded (s : State) : Prop := jobEnded s ∧ s.phase = 5#3

/-- The frame of a successful stage `k` (R92): stage 1 writes the table, 2 the tree, 3 the codes, 4 the bits, 5 the output, and each
writes the phase. From stage 3 on the arena is dead (R49), so nothing is said of it there. -/
def otherStoresKept (k : Nat) (s t : State) : Prop :=
  t.inCap = s.inCap ∧ t.input = s.input ∧ t.outPtr = s.outPtr ∧ t.target = s.target ∧ t.errCode = s.errCode
    ∧ t.errStage = s.errStage ∧ t.errCmd = s.errCmd ∧ t.agents = s.agents
    ∧ (k ≠ 1 → t.freq = s.freq ∧ t.symCount = s.symCount)
    ∧ (k = 1 → t.nodes = s.nodes ∧ t.root = s.root ∧ t.work = s.work)
    ∧ (k ≠ 3 → t.codes = s.codes)
    ∧ (k ≠ 4 → t.bits = s.bits ∧ t.bitLen = s.bitLen)
    ∧ (k ≠ 5 → t.out = s.out)

/-- What stage 1 makes of an input. -/
def jobFreq (input : List Symbol) : List FreqEntry := countSymbols input

/-- What stage 2 makes of that. -/
def jobTree (input : List Symbol) : Forest := buildTree (jobFreq input)

/-- What stage 3 makes of that, for a tree that is one. -/
def jobCodes (input : List Symbol) : Option (List CodeEntry) :=
  match (jobTree input).work[0]? with
  | none => none
  | some r => codesFrom (jobFreq input) (jobTree input).nodes r

/-- Where the bits lead from node `k` of the arena: 0 to the left child, 1 to the right one (R104). None where a bit is left at a leaf. -/
def followBits (nodes : List Node) : Nat → List Bool → Option Nat
  | k, [] => some k
  | k, b :: bits =>
    match nodes[k]? with
    | none => none
    | some (.leaf _ _) => none
    | some (.internal _ l r) => followBits nodes (if b then r else l) bits

/-- The bit string that stage 4 makes of that. -/
def jobBits (input : List Symbol) : Option (List Bool) :=
  match jobCodes input with
  | none => none
  | some c => (bodyBits c input).map fun b => headerBits c ++ b

/-- The sum of count × code length over the slots (R107, R114). -/
def codeCost (freq : List FreqEntry) (codes : List (List Bool)) : Nat :=
  (List.zipWith (fun e c => e.count * c.length) freq codes).sum

/-- No code of the list is a prefix of another one of it (R107). -/
def prefixFree (codes : List (List Bool)) : Prop := codes.Pairwise fun c d => ¬ c <+: d ∧ ¬ d <+: c

/-- What the stores hold when the last stage that has succeeded in the job is stage `q` (R50). The node arena is dead from phase 3 on
(R49), so nothing is said of it there. -/
structure StoresAt (q : Nat) (s : State) : Prop where
  uncounted : q < 1 → s.freq = [] ∧ s.symCount = 0#32
  counted : 1 ≤ q → s.freq = jobFreq s.input ∧ s.symCount = BitVec.ofNat 32 (jobFreq s.input).length
  treeless : q < 2 → s.nodes = [] ∧ s.root = none ∧ s.work = []
  built : q = 2 → s.nodes = (jobTree s.input).nodes ∧ s.root = (jobTree s.input).work[0]? ∧ s.work = (jobTree s.input).work
  loaded : 2 ≤ q → s.input ≠ []
  uncoded : q < 3 → s.codes = []
  coded : 3 ≤ q → jobCodes s.input = some s.codes
  unserialized : q < 4 → s.bits = [] ∧ s.bitLen = 0#32
  serialized : 4 ≤ q → jobBits s.input = some s.bits ∧ s.bitLen = BitVec.ofNat 32 s.bits.length
  packable : q = 5 → s.bits.length % 4 = 0

/-- The error record of a job that failed after stage `q` had succeeded (R121). -/
def errorRecordAt (q : Nat) (s : State) : Prop :=
  (s.errStage = 0#3 ∧ s.errCode ∈ [0x10#8, 0x11#8, 0x12#8, 0x13#8, 0x14#8])
    ∨ (s.errStage = 2#3 ∧ s.errCode = 0x01#8 ∧ s.errCmd = 0#32 ∧ q = 1 ∧ s.input = [])
    ∨ (s.errStage = 4#3 ∧ s.errCode = 0x03#8 ∧ s.errCmd = 0#32 ∧ q = 3)
    ∨ (s.errStage = 5#3 ∧ s.errCode = 0x02#8 ∧ s.errCmd = 0#32 ∧ q = 4 ∧ s.bits.length % 4 ≠ 0)

/-- The invariant of the machine: a legal IN_CAP, an input the store accepts, a phase and a target that are ever held (R37, R38), the
stores of each phase (R50), and the error record of a failed job. -/
structure Inv (s : State) : Prop where
  legalCap : Config.legalInCap s.inCap = true
  inputFits : s.input.length ≤ s.inCap
  inputScalar : ∀ c ∈ s.input, isScalar c = true
  phaseHeld : s.phase ≠ 6#3
  targetHeld : s.target.toNat ≤ 5
  output : s.out = if s.phase = 5#3 then packBits s.bits else []
  running : s.phase ≠ 7#3 → s.phase.toNat ≤ s.target.toNat ∧ StoresAt s.phase.toNat s
    ∧ s.errCode = 0#8 ∧ s.errStage = 0#3 ∧ s.errCmd = 0#32
  failed : s.phase = 7#3 → s.target = 0#3 ∧ ∃ q, q ≤ 5 ∧ StoresAt q s ∧ errorRecordAt q s

/-- `k` steps of the machine, stopping at the first fault or refusal. -/
def runSteps : Nat → State → Result
  | 0, s => .next s
  | k + 1, s =>
    match step s with
    | .next t => runSteps k t
    | .fault f => .fault f
    | .refused r => .refused r

/-- The two agents (R65). -/
inductive Agent where
  | host
  | engine
  deriving DecidableEq, Repr

/-- One step of an agent as R65 gives it, with no account of turns: the host performs its next access, the engine its pending stage.
None where the agent has no step. -/
def moveOf (a : Agent) (s : State) : Option Result :=
  match a with
  | .host =>
    match s.agents.ops with
    | [] => none
    | op :: rest => some (hostAccess op (setOps rest s))
  | .engine => if busy s then some (engineStep s) else none

/-- An interleaving (R65): the agents move in the given order, up to the first fault or refusal. None where an agent is to move that
has no step. -/
def runMoves : List Agent → State → Option Result
  | [], s => some (.next s)
  | a :: order, s =>
    match moveOf a s with
    | none => none
    | some (.next t) => runMoves order t
    | some (.fault f) => some (.fault f)
    | some (.refused r) => some (.refused r)

/-- `s` with the interleaving `ds` written down (log entry 1). -/
def withDelays (ds : List Nat) (s : State) : State := { s with agents := { s.agents with delays := ds } }

/-- `s` without the model's account of the interleaving (log entry 1): the block, what the host still does, and what it has read. -/
def eraseTurns (s : State) : State := { s with agents := { s.agents with delays := [], draws := 0 } }

/-- An answer without the model's account of the interleaving. -/
def eraseTurnsOf : Result → Result
  | .next t => .next (eraseTurns t)
  | .fault f => .fault f
  | .refused r => .refused r

/-- The engine alone, performing its stages until it is no longer busy, at most `fuel` of them. -/
def settle : Nat → State → Result
  | 0, s => .next s
  | fuel + 1, s =>
    if busy s then
      match engineStep s with
      | .next t => settle fuel t
      | .fault f => .fault f
      | .refused r => .refused r
    else .next s

/-- A command and then the engine alone: the command "waited out" (R86). -/
def execSettled (i : Instr) (s : State) : Result :=
  match exec i s with
  | .next t => settle 5 t
  | .fault f => .fault f
  | .refused r => .refused r

/-- `n` STEP commands, each waited out (R86). -/
def stepsSettled : Nat → State → Result
  | 0, s => .next s
  | n + 1, s =>
    match execSettled .step s with
    | .next t => stepsSettled n t
    | .fault f => .fault f
    | .refused r => .refused r

end Sys2Proof.Machine
end

