-- ==== Sys2Proof/Certificates/Slice0/Obligations.lean ====
section
/-! DEFINITION. The statements for the provers, each with the rule of spec/ it formalises. -/

open Sys2Proof Sys2Proof.Machine

/-! ## Encoding (30_encoding.md) -/

/-- Decoding the word of a command gives the command back, with every operand the 21-bit field admits, and a word that decodes to a
command is that command's word: no bit is dropped either way (R73 to R76). -/
def Obligations.DecodeEncodeRoundTrip : Prop :=
  (∀ i : Instr, decode (encode i) = .command i) ∧ ∀ (w : Word) (i : Instr), decode w = .command i → encode i = w

/-- R76: a word is well-formed (OP ≤ 4, RSV = 0, OPERAND = 0 unless OP = 2) iff it matches one row of R75, no word matches two, and
the decoder answers a command for exactly the well-formed words. -/
def Obligations.WellFormedWordMatchesExactlyOneRow : Prop :=
  ∀ w : Word, (WellFormed.word w = true ↔ ∃ r ∈ opcodeRows, r.hits w = true)
    ∧ (∀ r ∈ opcodeRows, ∀ q ∈ opcodeRows, r.hits w = true → q.hits w = true → r = q)
    ∧ (WellFormed.word w = true ↔ ∃ i, decode w = .command i)

/-- R77: the three kinds of malformed word are rejected, and a rejection names a kind the word is of. -/
def Obligations.MalformedWordsAreRejectedByKind : Prop :=
  ∀ w : Word,
    ((5 ≤ (opField w).toNat ∨ rsvField w ≠ 0#3
        ∨ (operandField w ≠ 0#21 ∧ opField w ∈ [0x00#8, 0x01#8, 0x03#8, 0x04#8])) ↔ ∃ why, decode w = .malformed why)
    ∧ (decode w = .malformed .reservedOpcode → 5 ≤ (opField w).toNat)
    ∧ (decode w = .malformed .reservedBits → rsvField w ≠ 0#3)
    ∧ (decode w = .malformed .strayOperand → operandField w ≠ 0#21 ∧ opField w ∈ [0x00#8, 0x01#8, 0x03#8, 0x04#8])

/-- Words of 95_test_vectors.md section 2.1, written out from the field layout of R73. -/
def Obligations.TableWordsDecode : Prop :=
  decode 0b00000000000000000000000000000000#32 = .command .nop
    ∧ decode 0b00000001000000000000000000000000#32 = .command .clear
    ∧ decode 0b00000010000000000000000001100001#32 = .command (.loadSym 0x61#21)
    ∧ decode 0b00000010000100001111111111111111#32 = .command (.loadSym 0x10FFFF#21)
    ∧ decode 0b00000011000000000000000000000000#32 = .command .start
    ∧ decode 0b00000100000000000000000000000000#32 = .command .step
    ∧ decode 0b00000001001000000000000000000000#32 = .malformed .reservedBits
    ∧ decode 0b00000011000000000000000000000001#32 = .malformed .strayOperand
    ∧ decode 0b00000101000000000000000000000000#32 = .malformed .reservedOpcode

/-! ## The register window (10_state.md section 2, 20_memory.md) -/

/-- R87: what a read of each offset returns, from the state alone; every other offset reads 0. An aligned read completes in every
phase and changes nothing in the block: the host binds the value. -/
def Obligations.BusReadReturnsTheRegister : Prop :=
  ∀ s : State,
    busRead 0x00#12 s = 0x48554631#32
    ∧ busRead 0x04#12 s = BitVec.ofNat 32 s.inCap
    ∧ busRead 0x08#12 s = 0#32
    ∧ busRead 0x0C#12 s = (s.phase.setWidth 32 ||| s.target.setWidth 32 <<< 4
        ||| (if s.phase ≠ 7#3 ∧ s.phase.toNat < s.target.toNat then 0x100#32 else 0#32)
        ||| (if s.phase = 5#3 then 0x200#32 else 0#32) ||| (if s.phase = 7#3 then 0x400#32 else 0#32)
        ||| (if s.input.length = s.inCap then 0x800#32 else 0#32))
    ∧ busRead 0x10#12 s = (s.errStage.setWidth 32 <<< 8 ||| s.errCode.setWidth 32)
    ∧ busRead 0x14#12 s = s.errCmd
    ∧ busRead 0x18#12 s = BitVec.ofNat 32 s.input.length
    ∧ busRead 0x1C#12 s = s.symCount
    ∧ busRead 0x20#12 s = s.bitLen
    ∧ busRead 0x24#12 s = BitVec.ofNat 32 s.out.length
    ∧ busRead 0x28#12 s = s.outPtr
    ∧ busRead 0x2C#12 s = (if s.phase = 5#3 ∧ s.outPtr.toNat < s.out.length then
        0x80000000#32 ||| (s.out.getD s.outPtr.toNat 0#8).setWidth 32 else 0#32)
    ∧ (∀ off : Offset, 0x30 ≤ off.toNat → busRead off s = 0#32)
    ∧ ∀ off : Offset, off.toNat % 4 = 0 → ∃ t, hostAccess (.read 32 off) s = .next t ∧ sameBlock s t
        ∧ t.agents.vars = s.agents.vars ++ [busRead off s]

/-- R26, R27, R35: the fields of STATUS and of ERR, bit by bit, the reserved bits 0 in every state. -/
def Obligations.StatusAndErrFields : Prop :=
  ∀ s : State,
    (busRead 0x0C#12 s).extractLsb' 0 3 = s.phase
    ∧ (busRead 0x0C#12 s).getLsbD 3 = false
    ∧ (busRead 0x0C#12 s).extractLsb' 4 3 = s.target
    ∧ (busRead 0x0C#12 s).getLsbD 7 = false
    ∧ ((busRead 0x0C#12 s).getLsbD 8 = true ↔ s.phase ≠ 7#3 ∧ s.phase.toNat < s.target.toNat)
    ∧ ((busRead 0x0C#12 s).getLsbD 9 = true ↔ s.phase = 5#3)
    ∧ ((busRead 0x0C#12 s).getLsbD 10 = true ↔ s.phase = 7#3)
    ∧ ((busRead 0x0C#12 s).getLsbD 11 = true ↔ s.input.length = s.inCap)
    ∧ (busRead 0x0C#12 s).extractLsb' 12 20 = 0#20
    ∧ (busRead 0x10#12 s).extractLsb' 0 8 = s.errCode
    ∧ (busRead 0x10#12 s).extractLsb' 8 3 = s.errStage
    ∧ (busRead 0x10#12 s).extractLsb' 11 21 = 0#21

/-- R34: OUT_DATA is VALID with byte number OUT_PTR in phase DONE when the index is in range, and 0 in every other state; bits [30:8]
read 0, bits [7:4] too in every state that meets the invariant, and a write is ignored. -/
def Obligations.OutDataReturnsTheIndexedByte : Prop :=
  ∀ s : State,
    (∀ h : s.outPtr.toNat < s.out.length, s.phase = 5#3 →
      busRead 0x2C#12 s = 0x80000000#32 ||| (s.out[s.outPtr.toNat]).setWidth 32)
    ∧ (¬ (s.phase = 5#3 ∧ s.outPtr.toNat < s.out.length) → busRead 0x2C#12 s = 0#32)
    ∧ (busRead 0x2C#12 s).extractLsb' 8 23 = 0#23
    ∧ (Inv s → (busRead 0x2C#12 s).extractLsb' 4 4 = 0#4)
    ∧ ∀ v, busWrite 0x2C#12 v s = .next s

/-- R88, R58: a write to CMD runs the word as a command, a write to OUT_PTR sets the index, and a write to any other offset, a read-only
register's or an unmapped one's, changes nothing and raises nothing. -/
def Obligations.OnlyCmdAndOutPtrWritesAct : Prop :=
  ∀ (off : Offset) (v : Word) (s : State),
    (off ≠ 0x08#12 → off ≠ 0x28#12 → busWrite off v s = .next s) ∧ busWrite 0x08#12 v s = runCommand v s
    ∧ busWrite 0x28#12 v s = .next { s with outPtr := v }

/-- R33: a write to OUT_PTR sets it to any value, in any phase, busy or not, and changes nothing else; it reads back, and every other
register but OUT_DATA reads as before. No engine step changes it, and nothing the host does but such a write, CLEAR and reset. -/
def Obligations.OutPtrWriteSetsTheIndex : Prop :=
  ∀ (v : Word) (s : State),
    busWrite 0x28#12 v s = .next { s with outPtr := v }
    ∧ busRead 0x28#12 { s with outPtr := v } = v
    ∧ (∀ off : Offset, off ≠ 0x28#12 → off ≠ 0x2C#12 → busRead off { s with outPtr := v } = busRead off s)
    ∧ (∀ t, engineStep s = .next t → t.outPtr = s.outPtr)
    ∧ ∀ op t, hostAccess op s = .next t →
        t.outPtr = s.outPtr ∨ op = .write 32 0x28#12 t.outPtr ∨ op = .write 32 0x08#12 0x01000000#32 ∨ op = .reset

/-- R59, R66: a read takes the host's next turn (log entries 1 and 2 say how the model holds the host's accesses), binds the value of the
state it finds, and changes nothing in the block; so every read after it returns what it would have returned before. -/
def Obligations.ReadHasNoSideEffect : Prop :=
  ∀ (s : State) (off : Offset) (rest : List HostOp), Config.legalInCap s.inCap = true → off.toNat % 4 = 0 →
    hostsTurn s (.read 32 off) rest →
    ∃ t, step s = .next t ∧ sameBlock s t ∧ t.agents.ops = rest ∧ t.agents.vars = s.agents.vars ++ [busRead off s]
      ∧ ∀ off', busRead off' t = busRead off' s

/-- R56: an access of another width, or at an offset that is no multiple of 4, is refused in every state, the first under the name of
the width; every other access is performed: it answers a next state. -/
def Obligations.IllFormedAccessIsRefused : Prop :=
  ∀ (s : State) (op : HostOp),
    (WellFormed.hostOp op = false ↔ hostAccess op s = .refused .accessWidth ∨ hostAccess op s = .refused .misaligned)
    ∧ (WellFormed.hostOp op = true ↔ ∃ t, hostAccess op s = .next t)
    ∧ (∀ width off, width ≠ 32 → hostAccess (.read width off) s = .refused .accessWidth)
    ∧ (∀ width off v, width ≠ 32 → hostAccess (.write width off v) s = .refused .accessWidth)
    ∧ (∀ off, off.toNat % 4 ≠ 0 → hostAccess (.read 32 off) s = .refused .misaligned)
    ∧ ∀ off v, off.toNat % 4 ≠ 0 → hostAccess (.write 32 off v) s = .refused .misaligned

/-- R55: with the window at a base that is a multiple of 0x1000, an address stands for an offset iff it is base plus that offset, and
it is word-aligned iff the offset is. -/
def Obligations.WindowSitsAtTheBase : Prop :=
  ∀ (base addr : Nat) (off : Offset), Config.legalBase base = true →
    (windowOffset base addr = some off ↔ addr = base + off.toNat)
    ∧ (windowOffset base addr = some off → addr % 4 = off.toNat % 4)
    ∧ (windowOffset base addr = none ↔ addr < base ∨ base + 0x1000 ≤ addr)

/-! ## The commands (40_host_commands.md section 2) -/

/-- R82: NOP completes in every state and changes nothing at all, whether it is executed or its word written to CMD. The word with an
operand is no NOP: it raises ILLEGAL_COMMAND. -/
def Obligations.NopCompletes : Prop :=
  ∀ s : State, exec .nop s = .next s ∧ runCommand 0x00000000#32 s = .next s
    ∧ (s.phase ≠ 7#3 → runCommand 0x00000001#32 s = .next (errorEntry .illegalCommand 0#3 0x00000001#32 s))

/-- R83: CLEAR completes in every state; every state element of the block is at its reset value, IN_CAP and the agents are kept, and
STATUS reads 0. CLEAR after CLEAR changes nothing. The word with an operand is no CLEAR: ILLEGAL_COMMAND, or ignored in phase ERROR. -/
def Obligations.ClearCompletes : Prop :=
  ∀ s : State, ∃ t, exec .clear s = .next t ∧ runCommand 0x01000000#32 s = .next t
    ∧ t.phase = 0#3 ∧ t.target = 0#3 ∧ t.input = [] ∧ t.freq = [] ∧ t.symCount = 0#32
    ∧ t.nodes = [] ∧ t.root = none ∧ t.work = [] ∧ t.codes = [] ∧ t.bits = [] ∧ t.bitLen = 0#32
    ∧ t.out = [] ∧ t.outPtr = 0#32 ∧ t.errCode = 0#8 ∧ t.errStage = 0#3 ∧ t.errCmd = 0#32
    ∧ t.inCap = s.inCap ∧ t.agents = s.agents
    ∧ (s.inCap ≠ 0 → busRead 0x0C#12 t = 0#32) ∧ busy t = false ∧ exec .clear t = .next t
    ∧ runCommand 0x01000001#32 s = .next (if s.phase = 7#3 then s else errorEntry .illegalCommand 0#3 0x01000001#32 s)

/-- R84: LOAD_SYM of a Unicode scalar value, in phase IDLE, not busy, with room left, appends the symbol and changes nothing else;
IN_COUNT goes up by 1 and no register but IN_COUNT and STATUS reads differently. Outside phase ERROR it raises BUSY, SEQUENCE, BAD_SYMBOL
or INPUT_FULL, the first that applies. -/
def Obligations.LoadSymCompletes : Prop :=
  ∀ (cp : Symbol) (s : State),
    (s.phase = 0#3 → busy s = false → cp.toNat ≤ 0x10FFFF → ¬ (0xD800 ≤ cp.toNat ∧ cp.toNat ≤ 0xDFFF) → s.input.length ≠ s.inCap →
      exec (.loadSym cp) s = .next { s with input := s.input ++ [cp] }
      ∧ busRead 0x18#12 { s with input := s.input ++ [cp] } = busRead 0x18#12 s + 1#32
      ∧ ∀ off : Offset, off ≠ 0x0C#12 → off ≠ 0x18#12 → busRead off { s with input := s.input ++ [cp] } = busRead off s)
    ∧ (s.phase ≠ 7#3 → busy s = true → exec (.loadSym cp) s = .next (errorEntry .busy 0#3 (encode (.loadSym cp)) s))
    ∧ (s.phase ≠ 7#3 → busy s = false → s.phase ≠ 0#3 →
        exec (.loadSym cp) s = .next (errorEntry .sequence 0#3 (encode (.loadSym cp)) s))
    ∧ (s.phase = 0#3 → busy s = false → (0x10FFFF < cp.toNat ∨ (0xD800 ≤ cp.toNat ∧ cp.toNat ≤ 0xDFFF)) →
        exec (.loadSym cp) s = .next (errorEntry .badSymbol 0#3 (encode (.loadSym cp)) s))
    ∧ (s.phase = 0#3 → busy s = false → cp.toNat ≤ 0x10FFFF → ¬ (0xD800 ≤ cp.toNat ∧ cp.toNat ≤ 0xDFFF) → s.input.length = s.inCap →
        exec (.loadSym cp) s = .next (errorEntry .inputFull 0#3 (encode (.loadSym cp)) s))

/-- R85: START in phases 0 to 4, not busy, sets the target to 5 and changes nothing else; BUSY is then 1 and no register but STATUS
reads differently. -/
def Obligations.StartCompletes : Prop :=
  ∀ s : State, busy s = false → s.phase.toNat ≤ 4 →
    exec .start s = .next { s with target := 5#3 } ∧ busy { s with target := 5#3 } = true
    ∧ ∀ off : Offset, off ≠ 0x0C#12 → busRead off { s with target := 5#3 } = busRead off s

/-- R86: STEP in phases 0 to 4, not busy, sets the target to the next phase and changes nothing else; BUSY is then 1 and no register
but STATUS reads differently. -/
def Obligations.StepCommandCompletes : Prop :=
  ∀ s : State, busy s = false → s.phase.toNat ≤ 4 →
    ∃ t, exec .step s = .next t ∧ t = { s with target := t.target } ∧ t.target.toNat = s.phase.toNat + 1 ∧ busy t = true
      ∧ ∀ off : Offset, off ≠ 0x0C#12 → busRead off t = busRead off s

/-- R81 with the check order of R126: what a word written to CMD does, in every state, for every word. -/
def Obligations.CommandWordEffect : Prop :=
  ∀ (w : Word) (s : State), runCommand w s = .next (
    if s.phase = 7#3 then (if w = 0x01000000#32 then clearJob s else s)
    else if WellFormed.word w = false then errorEntry .illegalCommand 0#3 w s
    else if opField w = 0x00#8 then s
    else if opField w = 0x01#8 then clearJob s
    else if busy s then errorEntry .busy 0#3 w s
    else if opField w = 0x02#8 then
      if s.phase ≠ 0#3 then errorEntry .sequence 0#3 w s
      else if 0x10FFFF < (operandField w).toNat ∨ (0xD800 ≤ (operandField w).toNat ∧ (operandField w).toNat ≤ 0xDFFF) then
        errorEntry .badSymbol 0#3 w s
      else if s.input.length = s.inCap then errorEntry .inputFull 0#3 w s
      else { s with input := s.input ++ [operandField w] }
    else if 4 < s.phase.toNat then errorEntry .sequence 0#3 w s
    else if opField w = 0x03#8 then { s with target := 5#3 }
    else { s with target := s.phase + 1#3 })

/-- The frame of the commands (R81 to R86): whatever it answers, a command other than CLEAR keeps IN_CAP, every store but the input and
the output, OUT_PTR and the agents; it keeps the output or empties it in an error, keeps the input but for LOAD_SYM, and keeps the
error record unless the phase becomes ERROR. -/
def Obligations.CommandFrame : Prop :=
  ∀ (i : Instr) (s t : State), i ≠ .clear → exec i s = .next t →
    t.inCap = s.inCap ∧ t.freq = s.freq ∧ t.symCount = s.symCount ∧ t.nodes = s.nodes ∧ t.root = s.root ∧ t.work = s.work
    ∧ t.codes = s.codes ∧ t.bits = s.bits ∧ t.bitLen = s.bitLen ∧ t.outPtr = s.outPtr ∧ t.agents = s.agents
    ∧ ((∀ cp, i ≠ .loadSym cp) → t.input = s.input)
    ∧ (t.phase ≠ 7#3 → t.phase = s.phase ∧ t.out = s.out ∧ t.errCode = s.errCode ∧ t.errStage = s.errStage ∧ t.errCmd = s.errCmd)
    ∧ (t.phase = 7#3 → t.input = s.input ∧ (t = s ∨ t.out = []))

/-! ## Errors and reset (60_exceptions.md, 70_reset_and_hazards.md) -/

/-- R123: what the error entry writes, and that it keeps every other state element; STATUS then shows ERROR and no output. The codes
are those of R121. -/
def Obligations.ErrorEntryWritesTheRecord : Prop :=
  (∀ (e : ErrorCode) (stage : BitVec 3) (cmd : Word) (s : State),
    errorEntry e stage cmd s
      = { s with errCode := errorValue e, errStage := stage, errCmd := cmd, phase := 7#3, target := 0#3, out := [] }
    ∧ busy (errorEntry e stage cmd s) = false
    ∧ (s.input.length ≠ s.inCap → busRead 0x0C#12 (errorEntry e stage cmd s) = 0x407#32)
    ∧ busRead 0x14#12 (errorEntry e stage cmd s) = cmd)
  ∧ errorValue .emptyInput = 0x01#8 ∧ errorValue .bitLength = 0x02#8 ∧ errorValue .lengthOverflow = 0x03#8
  ∧ errorValue .illegalCommand = 0x10#8 ∧ errorValue .sequence = 0x11#8 ∧ errorValue .busy = 0x12#8
  ∧ errorValue .badSymbol = 0x13#8 ∧ errorValue .inputFull = 0x14#8

/-- R53: every state element at its reset value, and what the registers then read (R136). The default IN_CAP is R10's. -/
def Obligations.ResetRegisterValues : Prop :=
  busRead 0x00#12 State.reset = 0x48554631#32 ∧ busRead 0x04#12 State.reset = 0x00100000#32
  ∧ busRead 0x0C#12 State.reset = 0#32 ∧ busRead 0x10#12 State.reset = 0#32 ∧ busRead 0x14#12 State.reset = 0#32
  ∧ busRead 0x18#12 State.reset = 0#32 ∧ busRead 0x1C#12 State.reset = 0#32 ∧ busRead 0x20#12 State.reset = 0#32
  ∧ busRead 0x24#12 State.reset = 0#32 ∧ busRead 0x28#12 State.reset = 0#32 ∧ busRead 0x2C#12 State.reset = 0#32
  ∧ State.reset.phase = 0#3 ∧ State.reset.target = 0#3 ∧ State.reset.input = [] ∧ State.reset.freq = [] ∧ State.reset.symCount = 0#32
  ∧ State.reset.nodes = [] ∧ State.reset.root = none ∧ State.reset.work = [] ∧ State.reset.codes = [] ∧ State.reset.bits = []
  ∧ State.reset.bitLen = 0#32 ∧ State.reset.out = [] ∧ State.reset.outPtr = 0#32 ∧ State.reset.errCode = 0#8
  ∧ State.reset.errStage = 0#3 ∧ State.reset.errCmd = 0#32

/-- R136: reset, asserted in any state, busy or not, is exactly CLEAR. Reset is held among the host's accesses (log entry 10). -/
def Obligations.ResetIsClearInAnyState : Prop :=
  ∀ (s : State) (rest : List HostOp), Config.legalInCap s.inCap = true → hostsTurn s .reset rest →
    ∃ t, step s = .next t ∧ t = { State.reset with inCap := s.inCap, agents := t.agents } ∧ t.agents.ops = rest
      ∧ t.agents.vars = s.agents.vars

/-! ## The two agents (20_memory.md section 4, R92) -/

/-- A host write of a well-formed word to CMD runs its command (log entries 1 to 3 say how the model holds the write): the step is `exec`
of the decoded command, in the state whose host has that access behind it (and, if a stage is pending, one access fewer before it). The
block's state is untouched until then. -/
def Obligations.StepRunsTheDecodedCommand : Prop :=
  ∀ (s : State) (w : Word) (i : Instr) (rest : List HostOp), Config.legalInCap s.inCap = true →
    hostsTurn s (.write 32 0x08#12 w) rest → decode w = .command i →
    step s = exec i (takeOp rest s) ∧ sameBlock s (takeOp rest s) ∧ (takeOp rest s).agents.ops = rest
      ∧ (takeOp rest s).agents.vars = s.agents.vars ∧ busy (takeOp rest s) = busy s

/-- A pushed command word is the very next thing that runs, busy or not. The push is the model's own (log entry 3). -/
def Obligations.PushedCommandRunsNext : Prop :=
  ∀ (s : State) (w : Nat) (i : Instr), Config.legalInCap s.inCap = true → decodeTableWord 32 w = some i →
    ∃ u, step (s.withFetchWord 32 w) = exec i u ∧ sameBlock s u ∧ u.agents.ops = s.agents.ops ∧ u.agents.vars = s.agents.vars
      ∧ (busy s = true → pendingDelay u = pendingDelay s)

/-- R92: while busy, the engine's step performs stage S.phase + 1; success commits its writes and that phase and keeps everything the
stage does not write; an error is the error entry with that stage and ERR_CMD 0, and nothing else. -/
def Obligations.EngineStepPerformsOneStage : Prop :=
  ∀ s : State, busy s = true → s.phase.toNat ≤ 4 →
    (∀ u, runStage (s.phase.toNat + 1) s = .commit u →
      ∃ t, engineStep s = .next t ∧ t.phase.toNat = s.phase.toNat + 1 ∧ t = { u with phase := t.phase }
        ∧ otherStoresKept (s.phase.toNat + 1) s t)
    ∧ (∀ e, runStage (s.phase.toNat + 1) s = .raised e →
      ∃ t, engineStep s = .next t ∧ t = errorEntry e t.errStage 0#32 s ∧ t.errStage.toNat = s.phase.toNat + 1)

/-- R65, R135: one agent moves in a step, the one whose turn it is; with neither able to move, the state survives. Whose turn it is, is the
model's way of holding an interleaving (log entries 1 and 2). -/
def Obligations.TheAgentWhoseTurnItIsMoves : Prop :=
  ∀ s : State, Config.legalInCap s.inCap = true →
    (∀ op rest, hostsTurn s op rest → step s = hostAccess op (takeOp rest s) ∧ sameBlock s (takeOp rest s)
      ∧ (takeOp rest s).agents.ops = rest)
    ∧ (enginesTurn s → step s = engineStep (takeStage s) ∧ sameBlock s (takeStage s) ∧ (takeStage s).agents.ops = s.agents.ops)
    ∧ (idle s → step s = .next s)
    ∧ (idle s ∨ enginesTurn s ∨ ∃ op rest, hostsTurn s op rest)

/-- R65: for a busy block whose host has something to do, the delays that are written down (log entry 1) decide freely which of the two
moves next: 0 lets the engine move, and `ds` is left for what comes after; d + 1 lets the host move, and d is left in front of `ds`. -/
def Obligations.EitherAgentMayMoveFirst : Prop :=
  ∀ (s : State) (op : HostOp) (rest : List HostOp) (ds : List Nat) (d : Nat), busy s = true → s.agents.ops = op :: rest →
    enginesTurn (withDelays (0 :: ds) s) ∧ (takeStage (withDelays (0 :: ds) s)).agents.delays = ds
    ∧ hostsTurn (withDelays ((d + 1) :: ds) s) op rest
    ∧ (takeOp rest (withDelays ((d + 1) :: ds) s)).agents.delays = d :: ds

/-- R141, the race vector of 95_test_vectors.md section 2.2: 'a' loaded, START performed, START written at once. If all five stages
come first it raises SEQUENCE, if stage k + 1 is still pending it raises BUSY: the error entry alone, with every store as it was at that
moment. The interleaving is written down in the delays (log entry 1). -/
def Obligations.RaceAdmitsBothOutcomes : Prop :=
  ∀ s : State, s = { State.reset with
        input := [0x61#21], target := 5#3,
        agents := { s.agents with ops := [.write 32 0x08#12 0x03000000#32] } } →
    (s.agents.delays = [0, 0, 0, 0, 0] →
      ∃ u t, runSteps 5 s = .next u ∧ u.phase = 5#3 ∧ runSteps 6 s = .next t ∧ busRead 0x10#12 t = 0x00000011#32
        ∧ busRead 0x14#12 t = 0x03000000#32 ∧ busRead 0x24#12 t = 0#32
        ∧ t = errorEntry .sequence 0#3 0x03000000#32 { u with agents := t.agents })
    ∧ ∀ k, k < 5 → s.agents.delays = List.replicate k 0 ++ [1] →
      ∃ u t, runSteps k s = .next u ∧ u.phase.toNat = k ∧ runSteps (k + 1) s = .next t ∧ busRead 0x10#12 t = 0x00000012#32
        ∧ busRead 0x14#12 t = 0x03000000#32 ∧ t.phase = 7#3 ∧ t.input = u.input ∧ t.freq = u.freq ∧ t.symCount = u.symCount
        ∧ t.nodes = u.nodes ∧ t.root = u.root ∧ t.codes = u.codes ∧ t.bits = u.bits ∧ t.bitLen = u.bitLen
        ∧ t = errorEntry .busy 0#3 0x03000000#32 { u with agents := t.agents }

/-- R93, R92: no stage reads OUT_PTR: a host write to it before the engine's step or after it makes no difference. -/
def Obligations.StagesDoNotReadOutPtr : Prop :=
  ∀ (s : State) (v : Word),
    (∀ t, engineStep s = .next t → engineStep { s with outPtr := v } = .next { t with outPtr := v })
    ∧ (∀ f, engineStep s = .fault f → engineStep { s with outPtr := v } = .fault f)

/-- R67: weak fairness. From a busy state, within as many steps as the pending delay counts, the engine's turn comes, unless the host
has ended the run (CLEAR, reset or an error) or made an access that has no step. The delay is the model's (log entry 1). -/
def Obligations.PendingStageIsNotPostponedForever : Prop :=
  ∀ s : State, Config.legalInCap s.inCap = true → busy s = true →
    ∃ k, k ≤ pendingDelay s ∧
      ((∃ t, runSteps k s = .next t ∧ (busy t = false ∨ enginesTurn t)) ∨ (∃ r, runSteps k s = .refused r))

/-- R67, R90: a busy engine left alone (its host has nothing to do, log entry 2) reaches its target or ERROR within five of its own steps. -/
def Obligations.EngineSettlesWithinFiveSteps : Prop :=
  ∀ s : State, Inv s → busy s = true → s.agents.ops = [] →
    ∃ k t, k ≤ 5 ∧ runSteps k s = .next t ∧ busy t = false ∧ (t.phase = s.target ∨ t.phase = 7#3)

/-- R86: five STEPs from phase IDLE, each waited out, end in the same state as one START. -/
def Obligations.FiveStepsEndLikeOneStart : Prop :=
  ∀ s : State, Inv s → s.phase = 0#3 → busy s = false → stepsSettled 5 s = execSettled .start s

/-! ## The stages -/

/-- R94, R95: stage 1 always succeeds; each distinct symbol of the input has exactly one entry, with the number of its occurrences,
the entries in the order of first occurrence; the counts sum to the input's length; SYM_COUNT is the number of entries. -/
def Obligations.CountBuildsTheFrequencyTable : Prop :=
  ∀ s : State, s.phase = 0#3 →
    ∃ t, engineStep s = .next t ∧ t.phase = 1#3 ∧ t.freq = jobFreq s.input
      ∧ (t.freq.map (·.sym)).Nodup
      ∧ (∀ c, c ∈ t.freq.map (·.sym) ↔ c ∈ s.input)
      ∧ (∀ e ∈ t.freq, e.count = s.input.count e.sym ∧ 1 ≤ e.count)
      ∧ (t.freq.map (·.count)).sum = s.input.length
      ∧ (t.freq.map (·.sym)).Pairwise (fun a b => s.input.idxOf a < s.input.idxOf b)
      ∧ t.symCount = BitVec.ofNat 32 t.freq.length
      ∧ otherStoresKept 1 s t

/-- R18: the sort answers a permutation in descending order that keeps equal elements in order, and it is the only list with the last
two properties. -/
def Obligations.StableSortIsTheOnlyOne : Prop :=
  ∀ (key : Nat → Nat) (l : List Nat),
    (stableSortDesc key l).Perm l
    ∧ (stableSortDesc key l).Pairwise (fun a b => key b ≤ key a)
    ∧ (∀ v, (stableSortDesc key l).filter (fun a => key a == v) = l.filter (fun a => key a == v))
    ∧ ∀ l' : List Nat, l'.Pairwise (fun a b => key b ≤ key a) →
        (∀ v, l'.filter (fun a => key a == v) = l.filter (fun a => key a == v)) → l' = stableSortDesc key l

/-- R96 to R99: a round sorts W stably (R18), so that every later tie is decided by the order the sort leaves; it removes x, the lightest node, and of several the last in W, then y, the lightest of the rest, and of several
the last; it appends a node of their joint weight with x left and y right, and puts that node at the tail of the sorted rest. -/
def Obligations.MergeRoundTakesTheTwoLightest : Prop :=
  ∀ f : Forest, 2 ≤ f.work.length → f.work.Nodup →
    ∃ (x y : Nat) (rest : List Nat),
      rest ++ [y, x] = stableSortDesc (freqAt f.nodes) f.work
      ∧ (rest ++ [y, x]).Perm f.work ∧ rest.Pairwise (fun a b => freqAt f.nodes b ≤ freqAt f.nodes a)
      ∧ (∀ z ∈ f.work, freqAt f.nodes x ≤ freqAt f.nodes z
          ∧ (freqAt f.nodes z = freqAt f.nodes x → f.work.idxOf z ≤ f.work.idxOf x))
      ∧ (∀ z ∈ f.work, z ≠ x → freqAt f.nodes y ≤ freqAt f.nodes z
          ∧ (freqAt f.nodes z = freqAt f.nodes y → f.work.idxOf z ≤ f.work.idxOf y))
      ∧ (mergeRound f).nodes = f.nodes ++ [.internal (freqAt f.nodes x + freqAt f.nodes y) x y]
      ∧ (mergeRound f).work = rest ++ [f.nodes.length]

/-- R96, R98, R101, R102: stage 2 starts from one leaf per slot, with W the slots in frequency-table order, and does n − 1 merge rounds.
The tree it builds from n ≥ 1 entries. It has 2n − 1 nodes: the leaves in slot order, then internal nodes with two
different earlier children and their joint weight. The root is the last node, its weight the sum of the counts, and every
other node is the child of exactly one. A round shortens W by one. Of a job's tree the root's weight is the length of the input. -/
def Obligations.BuildTreeShape : Prop :=
  (∀ freq : List FreqEntry, freq ≠ [] →
    (buildTree freq).nodes.length = 2 * freq.length - 1
    ∧ (buildTree freq).work = [2 * freq.length - 2]
    ∧ (∀ (j : Nat) (h : j < freq.length), (buildTree freq).nodes[j]? = some (.leaf freq[j].sym freq[j].count))
    ∧ (∀ k, freq.length ≤ k → k < 2 * freq.length - 1 → ∃ l r,
        (buildTree freq).nodes[k]? = some (Node.internal (freqAt (buildTree freq).nodes l + freqAt (buildTree freq).nodes r) l r)
        ∧ l < k ∧ r < k ∧ l ≠ r ∧ freqAt (buildTree freq).nodes l ≤ freqAt (buildTree freq).nodes r)
    ∧ freqAt (buildTree freq).nodes (2 * freq.length - 2) = (freq.map (·.count)).sum
    ∧ (∀ c, c < 2 * freq.length - 2 → ∃! k : Nat, ∃ w l r : Nat, (buildTree freq).nodes[k]? = some (Node.internal w l r) ∧ (c = l ∨ c = r)))
  ∧ (∀ freq : List FreqEntry,
    (leafForest freq).nodes = freq.map (fun e => Node.leaf e.sym e.count) ∧ (leafForest freq).work = List.range freq.length
    ∧ buildTree freq = mergeRound^[freq.length - 1] (leafForest freq))
  ∧ (∀ f : Forest, 2 ≤ f.work.length → (mergeRound f).work.length + 1 = f.work.length)
  ∧ ∀ input : List Symbol, input ≠ [] → freqAt (jobTree input).nodes (2 * (jobFreq input).length - 2) = input.length

/-- R96, R100: stage 2 on a table that is not empty completes: phase 2, the tree of the table, everything else kept. On an empty table it
raises EMPTY_INPUT, builds nothing, and ERR reads 0x0000_0201. -/
def Obligations.BuildTreeStageEffect : Prop :=
  ∀ s : State, s.phase = 1#3 →
    (s.freq ≠ [] → ∃ t, engineStep s = .next t ∧ t.phase = 2#3 ∧ t.nodes = (buildTree s.freq).nodes
      ∧ t.root = some (2 * s.freq.length - 2) ∧ t.work = (buildTree s.freq).work ∧ otherStoresKept 2 s t)
    ∧ (s.freq = [] → ∃ t, engineStep s = .next t ∧ t = errorEntry .emptyInput 2#3 0#32 s ∧ busRead 0x10#12 t = 0x00000201#32)

/-- R104, R105, R107.1, R107.2, R108: for every input that is not empty, the tree of its table gives a code table with one entry per slot, in
slot order, and every input symbol has a code, so that the bit string exists: stages 3 and 4 never lack what they read. The code
of slot j is the path from the root to leaf j, 0 for a left turn and 1 for a right one. Stage 3 completes: phase 3, that code table,
everything else kept. -/
def Obligations.EveryInputHasACodeTable : Prop :=
  (∀ input : List Symbol, input ≠ [] →
    ∃ codes bits r, jobCodes input = some codes ∧ codes.map (·.sym) = (jobFreq input).map (·.sym) ∧ jobBits input = some bits
      ∧ (jobTree input).work[0]? = some r
      ∧ ∀ (j : Nat) (h : j < codes.length), followBits (jobTree input).nodes r codes[j].code = some j
          ∧ ∃ w, (jobTree input).nodes[j]? = some (.leaf codes[j].sym w))
  ∧ ∀ s : State, Inv s → s.phase = 2#3 →
    ∃ t, engineStep s = .next t ∧ t.phase = 3#3 ∧ jobCodes s.input = some t.codes
      ∧ t.codes.map (·.sym) = s.freq.map (·.sym) ∧ otherStoresKept 3 s t

/-- R106, R107.2: a single distinct symbol gets the empty code; with two or more, every code is non-empty and at most n − 1 bits long. -/
def Obligations.OnlyTheSingleSymbolCodeIsEmpty : Prop :=
  ∀ (input : List Symbol) (codes : List CodeEntry), jobCodes input = some codes →
    (codes.length = 1 → ∀ e ∈ codes, e.code = [])
    ∧ (2 ≤ codes.length → ∀ e ∈ codes, e.code ≠ [] ∧ e.code.length ≤ codes.length - 1)

/-- R107.3, R107.4: no code in the code table is a prefix of another, and the tree is full: Σ 2^(−ℓ) = 1, here over the common
denominator 2^n. -/
def Obligations.CodeTableIsAFullPrefixCode : Prop :=
  ∀ (input : List Symbol) (codes : List CodeEntry), jobCodes input = some codes →
    prefixFree (codes.map (·.code))
    ∧ (codes.map fun e => 2 ^ (codes.length - e.code.length)).sum = 2 ^ codes.length

/-- R103, R107.5: no prefix-free code for the same table costs less. -/
def Obligations.CodeTableIsOptimal : Prop :=
  ∀ (input : List Symbol) (codes : List CodeEntry) (others : List (List Bool)), jobCodes input = some codes →
    others.length = codes.length → prefixFree others →
    codeCost (jobFreq input) (codes.map (·.code)) ≤ codeCost (jobFreq input) others

/-- R109 to R112, R115: the layout of the bit string: the entry count in 32 bits, then per entry the code length and the low byte of the
code point in 8 bits each, then the codes of the input symbols in input order. -/
def Obligations.BitStringLayout : Prop :=
  ∀ (codes : List CodeEntry) (input : List Symbol) (body : List Bool), codes.length < 2 ^ 32 →
    (∀ e ∈ codes, e.code.length ≤ 255) → bodyBits codes input = some body →
    numOf ((headerBits codes ++ body).take 32) = codes.length
    ∧ (∀ (j : Nat) (h : j < codes.length),
        numOf (((headerBits codes ++ body).drop (32 + 16 * j)).take 8) = codes[j].code.length
        ∧ numOf (((headerBits codes ++ body).drop (40 + 16 * j)).take 8) = codes[j].sym.toNat % 256)
    ∧ (headerBits codes ++ body).drop (32 + 16 * codes.length) = (input.map fun c => (codeOf codes c).getD []).flatten

/-- R114: the exact length of the bit string, and its residue mod 4. -/
def Obligations.BitStringLength : Prop :=
  ∀ (input : List Symbol) (codes : List CodeEntry) (bits : List Bool), jobCodes input = some codes → jobBits input = some bits →
    bits.length = 32 + 16 * codes.length + codeCost (jobFreq input) (codes.map (·.code))
    ∧ bits.length % 4 = codeCost (jobFreq input) (codes.map (·.code)) % 4

/-- R108: stage 4 on the code table of the job's input completes: the bit string, its length in BIT_LEN, everything else kept. -/
def Obligations.SerializeStageCompletes : Prop :=
  ∀ s : State, Inv s → s.phase = 3#3 →
    ∃ t, engineStep s = .next t ∧ t.phase = 4#3 ∧ jobBits s.input = some t.bits ∧ t.bitLen.toNat = t.bits.length
      ∧ otherStoresKept 4 s t

/-- R116, R117, R63: byte m of the output is the value of bits 4m to 4m + 3, first bit most significant, so it is at most 15; there are
L/4 of them. -/
def Obligations.PackMakesOneBytePerFourBits : Prop :=
  ∀ bits : List Bool,
    (packBits bits).length = bits.length / 4
    ∧ (∀ b ∈ packBits bits, b.toNat ≤ 15)
    ∧ ∀ (m : Nat) (h : 4 * m + 3 < bits.length),
        ((packBits bits)[m]?).map BitVec.toNat
          = some (8 * (bits[4 * m]).toNat + 4 * (bits[4 * m + 1]).toNat + 2 * (bits[4 * m + 2]).toNat + (bits[4 * m + 3]).toNat)

/-- R118, R116: stage 5 writes all bytes and phase DONE at once, or, when the length is no multiple of 4, raises BIT_LENGTH, with
no output byte and BIT_LEN kept. In every state that meets the invariant the residue is that of the body, Σ count × code length. -/
def Obligations.PackSucceedsExactlyOnMultiplesOfFour : Prop :=
  ∀ s : State, s.phase = 4#3 →
    (s.bits.length % 4 = 0 → engineStep s = .next { s with out := packBits s.bits, phase := 5#3 })
    ∧ (s.bits.length % 4 ≠ 0 → ∃ t, engineStep s = .next t ∧ t = errorEntry .bitLength 5#3 0#32 s
        ∧ busRead 0x10#12 t = 0x00000502#32 ∧ busRead 0x20#12 t = busRead 0x20#12 s ∧ busRead 0x24#12 t = 0#32)
    ∧ (Inv s → s.bits.length % 4 = codeCost s.freq (s.codes.map (·.code)) % 4)

/-! ## The whole machine -/

/-- The invariant holds after reset. -/
def Obligations.ResetSatisfiesTheInvariant : Prop := Inv State.reset

/-- The invariant is kept by every step: the phase is never 6 and the target never above 5 (R37, R38), IN_CAP stays legal, the stores hold
what R50 says for the phase, and the error record is one of R121's. The invariant is the model's own. -/
def Obligations.StepKeepsTheInvariant : Prop := ∀ s t : State, Inv s → step s = .next t → Inv t

/-- From every state that meets the invariant no step faults: every stage finds what it reads (the faults are the model's, log entry 8). -/
def Obligations.NoStepFaults : Prop := ∀ (s : State) (f : Fault), Inv s → step s ≠ .fault f

/-- R113, R12: LENGTH_OVERFLOW is never raised for a legal IN_CAP. -/
def Obligations.LengthOverflowIsUnreachable : Prop :=
  ∀ s : State, Inv s → s.phase = 3#3 → serializeStage s ≠ .raised .lengthOverflow

/-- R10 to R12: in every phase, ERROR too, the input and every store with a capacity derived from IN_CAP stay within it, and no code is
longer than LMAX. The arena has a capacity while it is of use, that is until stage 3 has made the code table (R49). -/
def Obligations.StoresStayWithinCapacity : Prop :=
  ∀ s : State, Inv s →
    s.input.length ≤ s.inCap ∧ s.freq.length ≤ Config.symCap s.inCap ∧ s.codes.length ≤ Config.symCap s.inCap
    ∧ (s.codes = [] → s.nodes.length ≤ Config.nodeCap s.inCap)
    ∧ (∀ e ∈ s.codes, e.code.length ≤ Config.lmax s.inCap)
    ∧ s.bits.length ≤ Config.bitCap s.inCap ∧ s.out.length ≤ Config.outCap s.inCap

/-- R37, R90: only three things write the phase: a stage k that succeeds makes it k, an error makes it 7, and the host's CLEAR or reset
makes it 0 and the whole block with it; nothing else moves it, so nothing but CLEAR and reset lowers it or leaves ERROR. The step of two
agents is the model's (log entries 1 and 2). -/
def Obligations.OnlyStagesErrorsAndClearMoveThePhase : Prop :=
  ∀ s t : State, step s = .next t →
    t.phase = s.phase
    ∨ (enginesTurn s ∧ t.phase.toNat = s.phase.toNat + 1)
    ∨ (s.phase ≠ 7#3 ∧ t.phase = 7#3 ∧ t.target = 0#3 ∧ t.out = [])
    ∨ (hostClears s ∧ t = { State.reset with inCap := s.inCap, agents := t.agents })

/-- R40, R70: only a LOAD_SYM that the host writes, in phase IDLE and not busy, makes the input longer, by that one symbol, and never
beyond IN_CAP; only CLEAR and reset empty it; no stage writes it. IN_CAP never changes (log entry 4). -/
def Obligations.OnlyLoadSymExtendsTheInput : Prop :=
  ∀ s t : State, step s = .next t →
    t.inCap = s.inCap
    ∧ (s.input.length ≤ s.inCap → t.input.length ≤ t.inCap)
    ∧ (t.input = s.input ∨ (hostClears s ∧ t.input = [])
      ∨ ∃ c rest, hostsTurn s (.write 32 0x08#12 (encode (.loadSym c))) rest ∧ t.input = s.input ++ [c] ∧ isScalar c = true
          ∧ s.phase = 0#3 ∧ busy s = false)

/-- R125, R127: in phase ERROR every word written to CMD but CLEAR's is ignored; OUT_PTR is written and registers are read as ever, and
OUT_DATA reads 0. The engine has no step. Only the host's CLEAR or reset leaves the phase, and discards the whole job; whatever else the host
does keeps the error record and every store. -/
def Obligations.ErrorPhaseIsSticky : Prop :=
  ∀ s : State, s.phase = 7#3 →
    (∀ w, runCommand w s = .next (if w = 0x01000000#32 then clearJob s else s))
    ∧ (∀ v, busWrite 0x28#12 v s = .next { s with outPtr := v })
    ∧ busy s = false ∧ busRead 0x2C#12 s = 0#32
    ∧ (∀ off, off.toNat % 4 = 0 → hostAccess (.read 32 off) s = .next (bindVar (busRead off s) s))
    ∧ ∀ op t, hostAccess op s = .next t →
        t = { s with outPtr := t.outPtr, agents := t.agents }
        ∨ ((op = .write 32 0x08#12 0x01000000#32 ∨ op = .reset) ∧ t = { State.reset with inCap := s.inCap, agents := s.agents })

/-- R139, R144, R118: of a job whose host, once the input is loaded, writes START and does nothing else, the result depends on the input
alone: DONE with the packed bit string if its length is a multiple of 4, else ERROR with BIT_LENGTH from stage 5 and BIT_LEN kept. -/
def Obligations.JobResultDependsOnTheInputAlone : Prop :=
  ∀ s : State, Inv s → s.phase = 0#3 → busy s = false → s.input ≠ [] → s.agents.ops = [.write 32 0x08#12 0x03000000#32] →
    ∃ t bits, runSteps 6 s = .next t ∧ jobBits s.input = some bits ∧ busRead 0x20#12 t = BitVec.ofNat 32 bits.length
      ∧ busRead 0x18#12 t = busRead 0x18#12 s
      ∧ (bits.length % 4 = 0 → jobSucceeded t ∧ t.out = packBits bits ∧ busRead 0x10#12 t = 0#32)
      ∧ (bits.length % 4 ≠ 0 → jobEnded t ∧ t.phase = 7#3 ∧ t.out = [] ∧ busRead 0x10#12 t = 0x00000502#32)

/-! ## Host programs (30_encoding.md section 4) -/

/-- R80: LOAD_STR, as the accesses it stands for (log entry 2), loads the code points of its characters, in order, into an idle block
with room for them: every character is a Unicode scalar value. -/
def Obligations.LoadStrLoadsTheText : Prop :=
  ∀ (text : List Char) (s : State) (rest : List HostOp), Config.legalInCap s.inCap = true → s.phase = 0#3 → busy s = false →
    s.input.length + text.length ≤ s.inCap → s.agents.ops = loadStrOps text ++ rest →
    runSteps text.length s
      = .next { s with
          input := s.input ++ text.map (fun c => BitVec.ofNat 21 c.toNat), agents := { s.agents with ops := rest } }

/-- R89, R80, R143: READ_OUT n in phase DONE, as the accesses it stands for (log entry 2), reads the first n output bytes, each VALID,
and changes nothing but OUT_PTR. -/
def Obligations.ReadOutReadsTheOutput : Prop :=
  ∀ (n : Nat) (s : State) (rest : List HostOp), Config.legalInCap s.inCap = true → s.phase = 5#3 → busy s = false →
    n ≤ s.out.length → s.out.length < 2 ^ 32 → s.agents.ops = readOutOps n ++ rest →
    ∃ t, runSteps (2 * n) s = .next t ∧ t.agents.ops = rest
      ∧ t.agents.vars = s.agents.vars ++ (s.out.take n).map (fun b => 0x80000000#32 ||| b.setWidth 32)
      ∧ t = { s with outPtr := t.outPtr, agents := t.agents }

/-- R79, R80: what each line stands for: the accesses of the tables, a program being its lines one after the other. An assembler refuses
LOAD_SYM with a code point that does not fit the field, and no other line; every line it takes stands for accesses the block's interface
contract covers. That READ_OUT n is taken for n above 2^32 is the model's choice (log entry 14). -/
def Obligations.AssemblerRefusesOnlyOversizedSymbols : Prop :=
  (∀ l : AsmLine, (WellFormed.asmLine l = true ↔ ∃ ops, assemble l = some ops)
    ∧ ∀ ops, assemble l = some ops → ∀ op ∈ ops, WellFormed.hostOp op = true)
  ∧ [Reg.id, .inCap, .cmd, .status, .err, .errCmd, .inCount, .symCount, .bitLen, .outCount, .outPtr, .outData].map regOffset
      = [0x00#12, 0x04#12, 0x08#12, 0x0C#12, 0x10#12, 0x14#12, 0x18#12, 0x1C#12, 0x20#12, 0x24#12, 0x28#12, 0x2C#12]
  ∧ (∀ r, assemble (.rd r) = some [.read 32 (regOffset r)])
  ∧ (∀ r imm, assemble (.wr r imm) = some [.write 32 (regOffset r) imm])
  ∧ assemble .nop = some [.write 32 0x08#12 0x00000000#32]
  ∧ assemble .clear = some [.write 32 0x08#12 0x01000000#32]
  ∧ (∀ cp, cp ≤ 0x1FFFFF → assemble (.loadSym cp) = some [.write 32 0x08#12 (BitVec.ofNat 32 (0x02000000 + cp))])
  ∧ (∀ cp, 0x1FFFFF < cp → assemble (.loadSym cp) = none)
  ∧ assemble .start = some [.write 32 0x08#12 0x03000000#32]
  ∧ assemble .step = some [.write 32 0x08#12 0x04000000#32]
  ∧ (∀ imm, assemble (.cmd imm) = some [.write 32 0x08#12 imm])
  ∧ (∀ text, assemble (.loadStr text) = some (text.map fun c => .write 32 0x08#12 (BitVec.ofNat 32 (0x02000000 + c.toNat))))
  ∧ (∀ r mask val, assemble (.poll r mask val) = some [.poll (regOffset r) mask val])
  ∧ assemble .wait = some [.poll 0x0C#12 0x00000100#32 0#32]
  ∧ assemble .run = some [.write 32 0x08#12 0x03000000#32, .poll 0x0C#12 0x00000100#32 0#32]
  ∧ (∀ n ops, n ≤ 2 ^ 32 → assemble (.readOut n) = some ops → ops.length = 2 * n ∧ ∀ m, m < n →
      ops[2 * m]? = some (.write 32 0x28#12 (BitVec.ofNat 32 m)) ∧ ops[2 * m + 1]? = some (.read 32 0x2C#12))
  ∧ assembleAll [] = some []
  ∧ ∀ l ls, assembleAll (l :: ls) = (assemble l).bind fun a => (assembleAll ls).map fun b => a ++ b

/-- R80: POLL, of any offset, mask and value, ends when the word it reads has that value under the mask, binding that word, and is still
there when it has not. So WAIT ends when it finds BUSY = 0, binding the STATUS word it found, and is still there when it finds BUSY = 1.
One read of the loop is one step (log entry 10). -/
def Obligations.WaitEndsWhenNotBusy : Prop :=
  (∀ (s : State) (off : Offset) (mask val : Word) (rest : List HostOp), Config.legalInCap s.inCap = true → off.toNat % 4 = 0 →
    hostsTurn s (.poll off mask val) rest →
    ∃ t, step s = .next t ∧ sameBlock s t
      ∧ (busRead off s &&& mask = val → t.agents.ops = rest ∧ t.agents.vars = s.agents.vars ++ [busRead off s])
      ∧ (busRead off s &&& mask ≠ val → t.agents.ops = .poll off mask val :: rest ∧ t.agents.vars = s.agents.vars))
  ∧ ∀ (s : State) (rest : List HostOp), Config.legalInCap s.inCap = true → hostsTurn s waitOp rest →
    ∃ t, step s = .next t ∧ sameBlock s t
      ∧ (busy s = false → t.agents.ops = rest ∧ t.agents.vars = s.agents.vars ++ [busRead 0x0C#12 s])
      ∧ (busy s = true → t.agents.ops = waitOp :: rest ∧ t.agents.vars = s.agents.vars)

/-! ## The interleavings -/

/-- R65, R66: the runs of the machine are the interleavings of the two agents, no more and no fewer. Whatever finite order the agents
can move in, some delays make the machine move in that order and end the same; and every run of the machine is such an order, shorter
than the run only where the block has become idle. The delays are the model's (log entry 1). -/
def Obligations.RunsAreTheInterleavings : Prop :=
  ∀ s : State, Config.legalInCap s.inCap = true →
    (∀ (order : List Agent) (r : Result), runMoves order s = some r →
      ∃ ds, eraseTurnsOf (runSteps order.length (withDelays ds s)) = eraseTurnsOf r)
    ∧ ∀ k : Nat, ∃ (order : List Agent) (r : Result), runMoves order s = some r ∧ eraseTurnsOf r = eraseTurnsOf (runSteps k s)
      ∧ order.length ≤ k ∧ (order.length < k → (∃ t, r = .next t ∧ idle t) ∨ ∀ t, r ≠ .next t)
end

