-- ==== Sys2Proof/Laws/State.lean ====
section
/-! SUPPORT. What each named update leaves in each field of the state: one lemma a field, so that no later proof unfolds an update. -/

namespace Sys2Proof.Machine

@[simp] theorem errorEntry_inCap (e : ErrorCode) (st : BitVec 3) (w : Word) (s : State) : (errorEntry e st w s).inCap = s.inCap := rfl
@[simp] theorem errorEntry_phase (e : ErrorCode) (st : BitVec 3) (w : Word) (s : State) : (errorEntry e st w s).phase = 7#3 := rfl
@[simp] theorem errorEntry_target (e : ErrorCode) (st : BitVec 3) (w : Word) (s : State) : (errorEntry e st w s).target = 0#3 := rfl
@[simp] theorem errorEntry_input (e : ErrorCode) (st : BitVec 3) (w : Word) (s : State) : (errorEntry e st w s).input = s.input := rfl
@[simp] theorem errorEntry_freq (e : ErrorCode) (st : BitVec 3) (w : Word) (s : State) : (errorEntry e st w s).freq = s.freq := rfl
@[simp] theorem errorEntry_symCount (e : ErrorCode) (st : BitVec 3) (w : Word) (s : State) : (errorEntry e st w s).symCount = s.symCount := rfl
@[simp] theorem errorEntry_nodes (e : ErrorCode) (st : BitVec 3) (w : Word) (s : State) : (errorEntry e st w s).nodes = s.nodes := rfl
@[simp] theorem errorEntry_root (e : ErrorCode) (st : BitVec 3) (w : Word) (s : State) : (errorEntry e st w s).root = s.root := rfl
@[simp] theorem errorEntry_work (e : ErrorCode) (st : BitVec 3) (w : Word) (s : State) : (errorEntry e st w s).work = s.work := rfl
@[simp] theorem errorEntry_codes (e : ErrorCode) (st : BitVec 3) (w : Word) (s : State) : (errorEntry e st w s).codes = s.codes := rfl
@[simp] theorem errorEntry_bits (e : ErrorCode) (st : BitVec 3) (w : Word) (s : State) : (errorEntry e st w s).bits = s.bits := rfl
@[simp] theorem errorEntry_bitLen (e : ErrorCode) (st : BitVec 3) (w : Word) (s : State) : (errorEntry e st w s).bitLen = s.bitLen := rfl
@[simp] theorem errorEntry_out (e : ErrorCode) (st : BitVec 3) (w : Word) (s : State) : (errorEntry e st w s).out = [] := rfl
@[simp] theorem errorEntry_outPtr (e : ErrorCode) (st : BitVec 3) (w : Word) (s : State) : (errorEntry e st w s).outPtr = s.outPtr := rfl
@[simp] theorem errorEntry_errCode (e : ErrorCode) (st : BitVec 3) (w : Word) (s : State) : (errorEntry e st w s).errCode = errorValue e := rfl
@[simp] theorem errorEntry_errStage (e : ErrorCode) (st : BitVec 3) (w : Word) (s : State) : (errorEntry e st w s).errStage = st := rfl
@[simp] theorem errorEntry_errCmd (e : ErrorCode) (st : BitVec 3) (w : Word) (s : State) : (errorEntry e st w s).errCmd = w := rfl
@[simp] theorem errorEntry_agents (e : ErrorCode) (st : BitVec 3) (w : Word) (s : State) : (errorEntry e st w s).agents = s.agents := rfl

@[simp] theorem clearJob_inCap (s : State) : (clearJob s).inCap = s.inCap := rfl
@[simp] theorem clearJob_phase (s : State) : (clearJob s).phase = 0#3 := rfl
@[simp] theorem clearJob_target (s : State) : (clearJob s).target = 0#3 := rfl
@[simp] theorem clearJob_input (s : State) : (clearJob s).input = [] := rfl
@[simp] theorem clearJob_freq (s : State) : (clearJob s).freq = [] := rfl
@[simp] theorem clearJob_symCount (s : State) : (clearJob s).symCount = 0#32 := rfl
@[simp] theorem clearJob_nodes (s : State) : (clearJob s).nodes = [] := rfl
@[simp] theorem clearJob_root (s : State) : (clearJob s).root = none := rfl
@[simp] theorem clearJob_work (s : State) : (clearJob s).work = [] := rfl
@[simp] theorem clearJob_codes (s : State) : (clearJob s).codes = [] := rfl
@[simp] theorem clearJob_bits (s : State) : (clearJob s).bits = [] := rfl
@[simp] theorem clearJob_bitLen (s : State) : (clearJob s).bitLen = 0#32 := rfl
@[simp] theorem clearJob_out (s : State) : (clearJob s).out = [] := rfl
@[simp] theorem clearJob_outPtr (s : State) : (clearJob s).outPtr = 0#32 := rfl
@[simp] theorem clearJob_errCode (s : State) : (clearJob s).errCode = 0#8 := rfl
@[simp] theorem clearJob_errStage (s : State) : (clearJob s).errStage = 0#3 := rfl
@[simp] theorem clearJob_errCmd (s : State) : (clearJob s).errCmd = 0#32 := rfl
@[simp] theorem clearJob_agents (s : State) : (clearJob s).agents = s.agents := rfl

@[simp] theorem setTarget_inCap (t : BitVec 3) (s : State) : (setTarget t s).inCap = s.inCap := rfl
@[simp] theorem setTarget_phase (t : BitVec 3) (s : State) : (setTarget t s).phase = s.phase := rfl
@[simp] theorem setTarget_target (t : BitVec 3) (s : State) : (setTarget t s).target = t := rfl
@[simp] theorem setTarget_input (t : BitVec 3) (s : State) : (setTarget t s).input = s.input := rfl
@[simp] theorem setTarget_freq (t : BitVec 3) (s : State) : (setTarget t s).freq = s.freq := rfl
@[simp] theorem setTarget_symCount (t : BitVec 3) (s : State) : (setTarget t s).symCount = s.symCount := rfl
@[simp] theorem setTarget_nodes (t : BitVec 3) (s : State) : (setTarget t s).nodes = s.nodes := rfl
@[simp] theorem setTarget_root (t : BitVec 3) (s : State) : (setTarget t s).root = s.root := rfl
@[simp] theorem setTarget_work (t : BitVec 3) (s : State) : (setTarget t s).work = s.work := rfl
@[simp] theorem setTarget_codes (t : BitVec 3) (s : State) : (setTarget t s).codes = s.codes := rfl
@[simp] theorem setTarget_bits (t : BitVec 3) (s : State) : (setTarget t s).bits = s.bits := rfl
@[simp] theorem setTarget_bitLen (t : BitVec 3) (s : State) : (setTarget t s).bitLen = s.bitLen := rfl
@[simp] theorem setTarget_out (t : BitVec 3) (s : State) : (setTarget t s).out = s.out := rfl
@[simp] theorem setTarget_outPtr (t : BitVec 3) (s : State) : (setTarget t s).outPtr = s.outPtr := rfl
@[simp] theorem setTarget_errCode (t : BitVec 3) (s : State) : (setTarget t s).errCode = s.errCode := rfl
@[simp] theorem setTarget_errStage (t : BitVec 3) (s : State) : (setTarget t s).errStage = s.errStage := rfl
@[simp] theorem setTarget_errCmd (t : BitVec 3) (s : State) : (setTarget t s).errCmd = s.errCmd := rfl
@[simp] theorem setTarget_agents (t : BitVec 3) (s : State) : (setTarget t s).agents = s.agents := rfl

@[simp] theorem setOps_inCap (ops : List HostOp) (s : State) : (setOps ops s).inCap = s.inCap := rfl
@[simp] theorem setOps_phase (ops : List HostOp) (s : State) : (setOps ops s).phase = s.phase := rfl
@[simp] theorem setOps_target (ops : List HostOp) (s : State) : (setOps ops s).target = s.target := rfl
@[simp] theorem setOps_input (ops : List HostOp) (s : State) : (setOps ops s).input = s.input := rfl
@[simp] theorem setOps_freq (ops : List HostOp) (s : State) : (setOps ops s).freq = s.freq := rfl
@[simp] theorem setOps_symCount (ops : List HostOp) (s : State) : (setOps ops s).symCount = s.symCount := rfl
@[simp] theorem setOps_nodes (ops : List HostOp) (s : State) : (setOps ops s).nodes = s.nodes := rfl
@[simp] theorem setOps_root (ops : List HostOp) (s : State) : (setOps ops s).root = s.root := rfl
@[simp] theorem setOps_work (ops : List HostOp) (s : State) : (setOps ops s).work = s.work := rfl
@[simp] theorem setOps_codes (ops : List HostOp) (s : State) : (setOps ops s).codes = s.codes := rfl
@[simp] theorem setOps_bits (ops : List HostOp) (s : State) : (setOps ops s).bits = s.bits := rfl
@[simp] theorem setOps_bitLen (ops : List HostOp) (s : State) : (setOps ops s).bitLen = s.bitLen := rfl
@[simp] theorem setOps_out (ops : List HostOp) (s : State) : (setOps ops s).out = s.out := rfl
@[simp] theorem setOps_outPtr (ops : List HostOp) (s : State) : (setOps ops s).outPtr = s.outPtr := rfl
@[simp] theorem setOps_errCode (ops : List HostOp) (s : State) : (setOps ops s).errCode = s.errCode := rfl
@[simp] theorem setOps_errStage (ops : List HostOp) (s : State) : (setOps ops s).errStage = s.errStage := rfl
@[simp] theorem setOps_errCmd (ops : List HostOp) (s : State) : (setOps ops s).errCmd = s.errCmd := rfl
@[simp] theorem setOps_agents (ops : List HostOp) (s : State) : (setOps ops s).agents = { s.agents with ops := ops } := rfl

@[simp] theorem setDelay_inCap (d : Nat) (s : State) : (setDelay d s).inCap = s.inCap := rfl
@[simp] theorem setDelay_phase (d : Nat) (s : State) : (setDelay d s).phase = s.phase := rfl
@[simp] theorem setDelay_target (d : Nat) (s : State) : (setDelay d s).target = s.target := rfl
@[simp] theorem setDelay_input (d : Nat) (s : State) : (setDelay d s).input = s.input := rfl
@[simp] theorem setDelay_freq (d : Nat) (s : State) : (setDelay d s).freq = s.freq := rfl
@[simp] theorem setDelay_symCount (d : Nat) (s : State) : (setDelay d s).symCount = s.symCount := rfl
@[simp] theorem setDelay_nodes (d : Nat) (s : State) : (setDelay d s).nodes = s.nodes := rfl
@[simp] theorem setDelay_root (d : Nat) (s : State) : (setDelay d s).root = s.root := rfl
@[simp] theorem setDelay_work (d : Nat) (s : State) : (setDelay d s).work = s.work := rfl
@[simp] theorem setDelay_codes (d : Nat) (s : State) : (setDelay d s).codes = s.codes := rfl
@[simp] theorem setDelay_bits (d : Nat) (s : State) : (setDelay d s).bits = s.bits := rfl
@[simp] theorem setDelay_bitLen (d : Nat) (s : State) : (setDelay d s).bitLen = s.bitLen := rfl
@[simp] theorem setDelay_out (d : Nat) (s : State) : (setDelay d s).out = s.out := rfl
@[simp] theorem setDelay_outPtr (d : Nat) (s : State) : (setDelay d s).outPtr = s.outPtr := rfl
@[simp] theorem setDelay_errCode (d : Nat) (s : State) : (setDelay d s).errCode = s.errCode := rfl
@[simp] theorem setDelay_errStage (d : Nat) (s : State) : (setDelay d s).errStage = s.errStage := rfl
@[simp] theorem setDelay_errCmd (d : Nat) (s : State) : (setDelay d s).errCmd = s.errCmd := rfl
@[simp] theorem setDelay_agents (d : Nat) (s : State) : (setDelay d s).agents = { s.agents with delays := d :: s.agents.delays.tail, draws := drawsAfter s } := rfl

@[simp] theorem takeStage_inCap (s : State) : (takeStage s).inCap = s.inCap := rfl
@[simp] theorem takeStage_phase (s : State) : (takeStage s).phase = s.phase := rfl
@[simp] theorem takeStage_target (s : State) : (takeStage s).target = s.target := rfl
@[simp] theorem takeStage_input (s : State) : (takeStage s).input = s.input := rfl
@[simp] theorem takeStage_freq (s : State) : (takeStage s).freq = s.freq := rfl
@[simp] theorem takeStage_symCount (s : State) : (takeStage s).symCount = s.symCount := rfl
@[simp] theorem takeStage_nodes (s : State) : (takeStage s).nodes = s.nodes := rfl
@[simp] theorem takeStage_root (s : State) : (takeStage s).root = s.root := rfl
@[simp] theorem takeStage_work (s : State) : (takeStage s).work = s.work := rfl
@[simp] theorem takeStage_codes (s : State) : (takeStage s).codes = s.codes := rfl
@[simp] theorem takeStage_bits (s : State) : (takeStage s).bits = s.bits := rfl
@[simp] theorem takeStage_bitLen (s : State) : (takeStage s).bitLen = s.bitLen := rfl
@[simp] theorem takeStage_out (s : State) : (takeStage s).out = s.out := rfl
@[simp] theorem takeStage_outPtr (s : State) : (takeStage s).outPtr = s.outPtr := rfl
@[simp] theorem takeStage_errCode (s : State) : (takeStage s).errCode = s.errCode := rfl
@[simp] theorem takeStage_errStage (s : State) : (takeStage s).errStage = s.errStage := rfl
@[simp] theorem takeStage_errCmd (s : State) : (takeStage s).errCmd = s.errCmd := rfl
@[simp] theorem takeStage_agents (s : State) : (takeStage s).agents = { s.agents with delays := s.agents.delays.tail, draws := drawsAfter s } := rfl

@[simp] theorem bindVar_inCap (v : Word) (s : State) : (bindVar v s).inCap = s.inCap := rfl
@[simp] theorem bindVar_phase (v : Word) (s : State) : (bindVar v s).phase = s.phase := rfl
@[simp] theorem bindVar_target (v : Word) (s : State) : (bindVar v s).target = s.target := rfl
@[simp] theorem bindVar_input (v : Word) (s : State) : (bindVar v s).input = s.input := rfl
@[simp] theorem bindVar_freq (v : Word) (s : State) : (bindVar v s).freq = s.freq := rfl
@[simp] theorem bindVar_symCount (v : Word) (s : State) : (bindVar v s).symCount = s.symCount := rfl
@[simp] theorem bindVar_nodes (v : Word) (s : State) : (bindVar v s).nodes = s.nodes := rfl
@[simp] theorem bindVar_root (v : Word) (s : State) : (bindVar v s).root = s.root := rfl
@[simp] theorem bindVar_work (v : Word) (s : State) : (bindVar v s).work = s.work := rfl
@[simp] theorem bindVar_codes (v : Word) (s : State) : (bindVar v s).codes = s.codes := rfl
@[simp] theorem bindVar_bits (v : Word) (s : State) : (bindVar v s).bits = s.bits := rfl
@[simp] theorem bindVar_bitLen (v : Word) (s : State) : (bindVar v s).bitLen = s.bitLen := rfl
@[simp] theorem bindVar_out (v : Word) (s : State) : (bindVar v s).out = s.out := rfl
@[simp] theorem bindVar_outPtr (v : Word) (s : State) : (bindVar v s).outPtr = s.outPtr := rfl
@[simp] theorem bindVar_errCode (v : Word) (s : State) : (bindVar v s).errCode = s.errCode := rfl
@[simp] theorem bindVar_errStage (v : Word) (s : State) : (bindVar v s).errStage = s.errStage := rfl
@[simp] theorem bindVar_errCmd (v : Word) (s : State) : (bindVar v s).errCmd = s.errCmd := rfl
@[simp] theorem bindVar_agents (v : Word) (s : State) : (bindVar v s).agents = { s.agents with vars := s.agents.vars ++ [v] } := rfl

@[simp] theorem takeOp_inCap (rest : List HostOp) (s : State) : (takeOp rest s).inCap = s.inCap := by
  unfold takeOp; split <;> rfl
@[simp] theorem takeOp_phase (rest : List HostOp) (s : State) : (takeOp rest s).phase = s.phase := by
  unfold takeOp; split <;> rfl
@[simp] theorem takeOp_target (rest : List HostOp) (s : State) : (takeOp rest s).target = s.target := by
  unfold takeOp; split <;> rfl
@[simp] theorem takeOp_input (rest : List HostOp) (s : State) : (takeOp rest s).input = s.input := by
  unfold takeOp; split <;> rfl
@[simp] theorem takeOp_freq (rest : List HostOp) (s : State) : (takeOp rest s).freq = s.freq := by
  unfold takeOp; split <;> rfl
@[simp] theorem takeOp_symCount (rest : List HostOp) (s : State) : (takeOp rest s).symCount = s.symCount := by
  unfold takeOp; split <;> rfl
@[simp] theorem takeOp_nodes (rest : List HostOp) (s : State) : (takeOp rest s).nodes = s.nodes := by
  unfold takeOp; split <;> rfl
@[simp] theorem takeOp_root (rest : List HostOp) (s : State) : (takeOp rest s).root = s.root := by
  unfold takeOp; split <;> rfl
@[simp] theorem takeOp_work (rest : List HostOp) (s : State) : (takeOp rest s).work = s.work := by
  unfold takeOp; split <;> rfl
@[simp] theorem takeOp_codes (rest : List HostOp) (s : State) : (takeOp rest s).codes = s.codes := by
  unfold takeOp; split <;> rfl
@[simp] theorem takeOp_bits (rest : List HostOp) (s : State) : (takeOp rest s).bits = s.bits := by
  unfold takeOp; split <;> rfl
@[simp] theorem takeOp_bitLen (rest : List HostOp) (s : State) : (takeOp rest s).bitLen = s.bitLen := by
  unfold takeOp; split <;> rfl
@[simp] theorem takeOp_out (rest : List HostOp) (s : State) : (takeOp rest s).out = s.out := by
  unfold takeOp; split <;> rfl
@[simp] theorem takeOp_outPtr (rest : List HostOp) (s : State) : (takeOp rest s).outPtr = s.outPtr := by
  unfold takeOp; split <;> rfl
@[simp] theorem takeOp_errCode (rest : List HostOp) (s : State) : (takeOp rest s).errCode = s.errCode := by
  unfold takeOp; split <;> rfl
@[simp] theorem takeOp_errStage (rest : List HostOp) (s : State) : (takeOp rest s).errStage = s.errStage := by
  unfold takeOp; split <;> rfl
@[simp] theorem takeOp_errCmd (rest : List HostOp) (s : State) : (takeOp rest s).errCmd = s.errCmd := by
  unfold takeOp; split <;> rfl

@[simp] theorem takeOp_agents_ops (rest : List HostOp) (s : State) : (takeOp rest s).agents.ops = rest := by
  unfold takeOp; split <;> rfl

@[simp] theorem takeOp_agents_vars (rest : List HostOp) (s : State) : (takeOp rest s).agents.vars = s.agents.vars := by
  unfold takeOp; split <;> rfl

/-- `busy()` looks at the phase and the target only (R39). -/
theorem busy_congr {s t : State} (hp : t.phase = s.phase) (ht : t.target = s.target) : busy t = busy s := by
  simp [busy, hp, ht]

theorem busy_iff (s : State) : busy s = true ↔ s.phase ≠ 7#3 ∧ s.phase.toNat < s.target.toNat := by simp [busy]

@[simp] theorem busy_errorEntry (e : ErrorCode) (st : BitVec 3) (w : Word) (s : State) : busy (errorEntry e st w s) = false := by
  simp [busy]

@[simp] theorem busy_clearJob (s : State) : busy (clearJob s) = false := by simp [busy]

@[simp] theorem busy_setOps (ops : List HostOp) (s : State) : busy (setOps ops s) = busy s := rfl
@[simp] theorem busy_setDelay (d : Nat) (s : State) : busy (setDelay d s) = busy s := rfl
@[simp] theorem busy_takeStage (s : State) : busy (takeStage s) = busy s := rfl
@[simp] theorem busy_bindVar (v : Word) (s : State) : busy (bindVar v s) = busy s := rfl
@[simp] theorem busy_takeOp (rest : List HostOp) (s : State) : busy (takeOp rest s) = busy s :=
  busy_congr (takeOp_phase rest s) (takeOp_target rest s)

/-- No register shows the agents' data: a read looks at the block only. -/
theorem busRead_congr {s t : State} (h : { t with agents := s.agents } = s) (off : Offset) : busRead off t = busRead off s := by
  rw [← h]; rfl

end Sys2Proof.Machine
end

