-- ==== Sys2Proof/Laws/Count.lean ====
section
/-! SUPPORT. What one symbol does to the frequency table (R94), and from that what the whole scan makes of it. -/

namespace Sys2Proof.Machine

@[simp] theorem countSymbols_nil : countSymbols [] = [] := rfl

theorem countSymbols_concat (l : List Symbol) (c : Symbol) : countSymbols (l ++ [c]) = countSymbol (countSymbols l) c := by
  simp [countSymbols]

/-- A symbol that is in the table keeps the table's symbols as they are; a new one goes to the end. -/
theorem countSymbol_syms (f : List FreqEntry) (c : Symbol) :
    (countSymbol f c).map (·.sym) = if c ∈ f.map (·.sym) then f.map (·.sym) else f.map (·.sym) ++ [c] := by
  induction f with
  | nil => simp [countSymbol]
  | cons e f ih =>
    simp only [countSymbol]
    by_cases h : e.sym = c
    · simp [h]
    · rw [if_neg h, List.map_cons, ih]
      by_cases hc : c ∈ f.map (·.sym) <;> simp [hc, Ne.symm h]

theorem countSymbol_sum (f : List FreqEntry) (c : Symbol) :
    ((countSymbol f c).map (·.count)).sum = (f.map (·.count)).sum + 1 := by
  induction f with
  | nil => simp [countSymbol]
  | cons e f ih =>
    simp only [countSymbol]
    split
    · simp; omega
    · simp [ih]; omega

theorem mem_countSymbols_syms (l : List Symbol) (c : Symbol) : c ∈ (countSymbols l).map (·.sym) ↔ c ∈ l := by
  induction l using List.reverseRecOn with
  | nil => simp
  | append_singleton l d ih =>
    rw [countSymbols_concat, countSymbol_syms]
    split
    · rename_i hd
      rw [ih, List.mem_append, List.mem_singleton]
      constructor
      · exact .inl
      · rintro (h | rfl)
        · exact h
        · obtain ⟨e, he, hs⟩ := List.mem_map.1 hd
          exact ih.1 (List.mem_map.2 ⟨e, he, hs⟩)
    · simp [ih]

theorem countSymbols_eq_nil (l : List Symbol) : countSymbols l = [] ↔ l = [] := by
  constructor
  · intro h
    cases l with
    | nil => rfl
    | cons a l => simpa [h] using (mem_countSymbols_syms (a :: l) a).2 (by simp)
  · rintro rfl; rfl

theorem countSymbols_nodup (l : List Symbol) : ((countSymbols l).map (·.sym)).Nodup := by
  induction l using List.reverseRecOn with
  | nil => simp
  | append_singleton l d ih =>
    rw [countSymbols_concat, countSymbol_syms]
    split
    · exact ih
    · rename_i hd
      exact List.nodup_append.2 ⟨ih, by simp, by
        intro a ha b hb
        rw [List.mem_singleton.1 hb]
        rintro rfl
        exact hd ha⟩

theorem countSymbols_sum (l : List Symbol) : ((countSymbols l).map (·.count)).sum = l.length := by
  induction l using List.reverseRecOn with
  | nil => rfl
  | append_singleton l d ih => rw [countSymbols_concat, countSymbol_sum, ih]; simp

/-- Where an entry of the new table comes from. -/
theorem mem_countSymbol {f : List FreqEntry} {c : Symbol} {e : FreqEntry} (hn : (f.map (·.sym)).Nodup)
    (he : e ∈ countSymbol f c) :
    (e.sym ≠ c ∧ e ∈ f) ∨ (e.sym = c ∧ ((∃ e' ∈ f, e'.sym = c ∧ e.count = e'.count + 1) ∨ (c ∉ f.map (·.sym) ∧ e.count = 1))) := by
  induction f with
  | nil =>
    simp only [countSymbol, List.mem_singleton] at he
    subst he; simp
  | cons d f ih =>
    rw [List.map_cons, List.nodup_cons] at hn
    simp only [countSymbol] at he
    split at he
    · rename_i hd
      rcases List.mem_cons.1 he with rfl | he
      · exact .inr ⟨hd, .inl ⟨d, by simp, hd, rfl⟩⟩
      · refine .inl ⟨fun hc => hn.1 ?_, List.mem_cons_of_mem _ he⟩
        rw [hd, ← hc]
        exact List.mem_map.2 ⟨e, he, rfl⟩
    · rename_i hd
      rcases List.mem_cons.1 he with rfl | he
      · exact .inl ⟨hd, by simp⟩
      · rcases ih hn.2 he with ⟨h1, h2⟩ | ⟨h1, ⟨e', h2, h3, h4⟩ | ⟨h2, h3⟩⟩
        · exact .inl ⟨h1, List.mem_cons_of_mem _ h2⟩
        · exact .inr ⟨h1, .inl ⟨e', List.mem_cons_of_mem _ h2, h3, h4⟩⟩
        · refine .inr ⟨h1, .inr ⟨?_, h3⟩⟩
          rw [List.map_cons, List.mem_cons]
          rintro (h | h)
          · exact hd h.symm
          · exact h2 h

theorem countSymbols_count (l : List Symbol) : ∀ e ∈ countSymbols l, e.count = l.count e.sym := by
  induction l using List.reverseRecOn with
  | nil => simp
  | append_singleton l d ih =>
    intro e he
    rw [countSymbols_concat] at he
    rw [List.count_append, List.count_singleton]
    rcases mem_countSymbol (countSymbols_nodup l) he with ⟨h1, h2⟩ | ⟨h1, ⟨e', h2, h3, h4⟩ | ⟨h2, h3⟩⟩
    · rw [ih e h2]; simp [Ne.symm h1]
    · rw [h4, ih e' h2, h3, h1]; simp
    · rw [h3, h1, List.count_eq_zero_of_not_mem (fun h => h2 ((mem_countSymbols_syms l d).2 h))]; simp

theorem countSymbols_length_le (l : List Symbol) : (countSymbols l).length ≤ l.length := by
  have h : ((countSymbols l).map (·.sym)).length ≤ l.length :=
    (List.subperm_of_subset (countSymbols_nodup l) fun c hc => (mem_countSymbols_syms l c).1 hc).length_le
  simpa using h

end Sys2Proof.Machine
end

