-- ==== Sys2Proof/Laws/Bits.lean ====
section
/-! SUPPORT. Bit strings (R16): fixed-width fields and their values, and the lengths of the header and the body of R115. -/

namespace Sys2Proof.Machine

@[simp] theorem binN_length (n v : Nat) : (binN n v).length = n := by simp [binN]

theorem numOf_append (a b : List Bool) : numOf (a ++ b) = numOf a * 2 ^ b.length + numOf b := by
  induction b using List.reverseRecOn with
  | nil => simp [numOf]
  | append_singleton b x ih =>
    have h : ∀ (l : List Bool) x, numOf (l ++ [x]) = 2 * numOf l + x.toNat := by intro l x; simp [numOf]
    rw [← List.append_assoc, h, ih, h]; simp [pow_succ]; ring

/-- `num` reads back what `bin_N` wrote (R16). -/
theorem numOf_binN (n v : Nat) (h : v < 2 ^ n) : numOf (binN n v) = v := by
  induction n generalizing v with
  | zero => simp at h; subst h; rfl
  | succ n ih =>
    have hb : binN (n+1) v = binN n (v/2) ++ [v.testBit 0] := by
      simp only [binN, List.range_succ, List.map_append, List.map_cons, List.map_nil]
      congr 1
      · refine List.map_congr_left fun i hi => ?_
        have : i < n := by simpa using hi
        rw [show n + 1 - 1 - i = (n - 1 - i) + 1 by omega, Nat.testBit_succ]
      · simp
    rw [hb, numOf_append, ih (v/2) (by omega)]
    simp [numOf, Nat.testBit_zero]
    rcases Nat.mod_two_eq_zero_or_one v with h | h <;> simp [h] <;> omega

/-- The header is 32 + 16 n bits long (R114). -/
theorem headerBits_length (codes : List CodeEntry) : (headerBits codes).length = 32 + 16 * codes.length := by
  unfold headerBits
  rw [List.length_append, binN_length]
  congr 1
  induction codes with
  | nil => rfl
  | cons e l ih => simp [entryBits, binN_length] at ih ⊢; omega

theorem countSymbol_weighted (f : Symbol → Nat) (F : List FreqEntry) (c : Symbol) :
    ((countSymbol F c).map (fun e => e.count * f e.sym)).sum = (F.map (fun e => e.count * f e.sym)).sum + f c := by
  induction F with
  | nil => simp [countSymbol]
  | cons e F ih =>
    simp only [countSymbol]
    split
    · rename_i h; subst h; simp [Nat.add_mul]; omega
    · simp [ih]; omega

/-- A sum over the table, weighted by the counts, is the sum over the input. -/
theorem countSymbols_weighted (f : Symbol → Nat) (l : List Symbol) :
    ((countSymbols l).map (fun e => e.count * f e.sym)).sum = (l.map f).sum := by
  induction l using List.reverseRecOn with
  | nil => rfl
  | append_singleton l d ih => rw [countSymbols_concat, countSymbol_weighted, ih]; simp

/-- The body is the codes of the input symbols, one after the other (R112). -/
theorem bodyBits_eq (codes : List CodeEntry) (l : List Symbol) (b : List Bool) (h : bodyBits codes l = some b) :
    b.length = (l.map (fun c => ((codeOf codes c).getD []).length)).sum ∧ b = (l.map fun c => (codeOf codes c).getD []).flatten := by
  induction l generalizing b with
  | nil => cases h; simp
  | cons a l ih =>
    simp only [bodyBits] at h
    split at h
    · rename_i c b' hc hb
      cases h
      obtain ⟨h1, h2⟩ := ih b' hb
      simp [hc, h1, ← h2]
    · cases h

/-- In a table without repeated symbols the code of an entry's symbol is the entry's code. -/
theorem codeOf_of_mem {codes : List CodeEntry} (hn : (codes.map (·.sym)).Nodup) {e : CodeEntry} (he : e ∈ codes) : codeOf codes e.sym = some e.code := by
  induction codes with
  | nil => simp at he
  | cons d codes ih =>
    rw [List.map_cons, List.nodup_cons] at hn
    rcases List.mem_cons.1 he with rfl | he
    · simp [codeOf]
    · have : d.sym ≠ e.sym := fun h => hn.1 (h ▸ List.mem_map.2 ⟨e, he, rfl⟩)
      have := ih hn.2 he
      simp only [codeOf] at this ⊢
      rw [List.find?_cons_of_neg (by simpa)]
      exact this

end Sys2Proof.Machine
end

