-- ==== Sys2Proof/Laws/Sort.lean ====
section
/-! SUPPORT. The stable sort of R18, lemma by lemma: an insertion keeps the elements, the order and the places of equal keys. -/

namespace Sys2Proof.Machine

variable (key : Nat → Nat)

@[simp] theorem stableSortDesc_nil : stableSortDesc key [] = [] := rfl

@[simp] theorem stableSortDesc_cons (x : Nat) (l : List Nat) :
    stableSortDesc key (x :: l) = insertDesc key x (stableSortDesc key l) := rfl

theorem insertDesc_perm (x : Nat) (l : List Nat) : (insertDesc key x l).Perm (x :: l) := by
  induction l with
  | nil => exact .refl _
  | cons y ys ih =>
    simp only [insertDesc]
    split
    · exact .refl _
    · exact (ih.cons y).trans (.swap x y ys)

theorem stableSortDesc_perm (l : List Nat) : (stableSortDesc key l).Perm l := by
  induction l with
  | nil => exact .refl _
  | cons x l ih => exact (insertDesc_perm key x _).trans (ih.cons x)

@[simp] theorem stableSortDesc_length (l : List Nat) : (stableSortDesc key l).length = l.length :=
  (stableSortDesc_perm key l).length_eq

@[simp] theorem mem_stableSortDesc (l : List Nat) (a : Nat) : a ∈ stableSortDesc key l ↔ a ∈ l :=
  (stableSortDesc_perm key l).mem_iff

theorem insertDesc_sorted (x : Nat) (l : List Nat) (h : l.Pairwise fun a b => key b ≤ key a) :
    (insertDesc key x l).Pairwise fun a b => key b ≤ key a := by
  induction l with
  | nil => simp [insertDesc]
  | cons y ys ih =>
    rw [List.pairwise_cons] at h
    simp only [insertDesc]
    split
    · rename_i hyx
      refine List.pairwise_cons.2 ⟨fun z hz => ?_, List.pairwise_cons.2 h⟩
      rcases List.mem_cons.1 hz with rfl | hz
      · exact hyx
      · exact (h.1 z hz).trans hyx
    · rename_i hyx
      refine List.pairwise_cons.2 ⟨fun z hz => ?_, ih h.2⟩
      rcases List.mem_cons.1 ((insertDesc_perm key x ys).mem_iff.1 hz) with rfl | hz
      · omega
      · exact h.1 z hz

theorem stableSortDesc_sorted (l : List Nat) : (stableSortDesc key l).Pairwise fun a b => key b ≤ key a := by
  induction l with
  | nil => simp
  | cons x l ih => exact insertDesc_sorted key x _ ih

/-- Inserting into a sorted list puts `x` in front of the elements of its own key and nowhere among those of another. -/
theorem insertDesc_filter (x v : Nat) (l : List Nat) (h : l.Pairwise fun a b => key b ≤ key a) :
    (insertDesc key x l).filter (fun a => key a == v) = (x :: l).filter fun a => key a == v := by
  induction l with
  | nil => rfl
  | cons y ys ih =>
    rw [List.pairwise_cons] at h
    simp only [insertDesc]
    split
    · rfl
    · rename_i hyx
      have hne : ¬ (key x = v ∧ key y = v) := by omega
      rw [List.filter_cons, ih h.2]
      by_cases hx : key x = v <;> by_cases hy : key y = v <;> simp_all

theorem stableSortDesc_filter (v : Nat) (l : List Nat) :
    (stableSortDesc key l).filter (fun a => key a == v) = l.filter fun a => key a == v := by
  induction l with
  | nil => rfl
  | cons x l ih =>
    rw [stableSortDesc_cons, insertDesc_filter key x v _ (stableSortDesc_sorted key l), List.filter_cons, ih, List.filter_cons]

end Sys2Proof.Machine
end

