-- ==== Sys2Proof/Laws/Tree.lean ====
section
/-! SUPPORT. The arena as a forest of trees (R42, R96): what one merge round does to the trees that the working collection holds, and
what the whole of stage 2 ends with. -/

namespace Sys2Proof.Machine

/-- A tree that an arena index stands for: leaves are slots with their counts. -/
inductive HTree where
  | leaf (slot count : Nat)
  | node (l r : HTree)

/-- The sum of the counts of the leaves. -/
def HTree.weight : HTree → Nat
  | .leaf _ c => c
  | .node l r => l.weight + r.weight

/-- The slots of the leaves, left to right. -/
def HTree.slots : HTree → List Nat
  | .leaf j _ => [j]
  | .node l r => l.slots ++ r.slots

/-- Index `k` of the arena is the root of the tree `t`: children stand before their parent, weights add up. -/
inductive Grows (nodes : List Node) : Nat → HTree → Prop
  | leaf {k : Nat} {s : Symbol} {c : Nat} (h : nodes[k]? = some (.leaf s c)) : Grows nodes k (.leaf k c)
  | node {k l r w : Nat} {tl tr : HTree} (h : nodes[k]? = some (.internal w l r)) (hl : l < k) (hr : r < k)
      (hw : w = tl.weight + tr.weight) (gl : Grows nodes l tl) (gr : Grows nodes r tr) : Grows nodes k (.node tl tr)

variable {nodes : List Node} {k : Nat} {t : HTree}

theorem getElem?_append_some {α : Type} {l : List α} {x : α} (m : List α) (h : l[k]? = some x) : (l ++ m)[k]? = some x := by
  rw [List.getElem?_append_left (List.getElem?_eq_some_iff.1 h).1, h]

/-- Nodes that are appended change no tree that is there. -/
theorem Grows.append (m : List Node) (g : Grows nodes k t) : Grows (nodes ++ m) k t := by
  induction g with
  | leaf h => exact .leaf (getElem?_append_some m h)
  | node h hl hr hw _ _ ihl ihr => exact .node (getElem?_append_some m h) hl hr hw ihl ihr

theorem Grows.lt (g : Grows nodes k t) : k < nodes.length := by
  cases g with
  | leaf h => exact (List.getElem?_eq_some_iff.1 h).1
  | node h => exact (List.getElem?_eq_some_iff.1 h).1

theorem Grows.freqAt (g : Grows nodes k t) : freqAt nodes k = t.weight := by
  cases g with
  | leaf h => simp [Machine.freqAt, h, nodeWeight, HTree.weight]
  | node h hl hr hw => simp [Machine.freqAt, h, nodeWeight, HTree.weight, hw]

theorem freqAt_append (m : List Node) (h : k < nodes.length) : freqAt (nodes ++ m) k = freqAt nodes k := by
  simp [freqAt, List.getElem?_append_left h]

/-- One round, as R96 says it: the sorted collection ends with y, x; the merged node goes to the end of the arena and of the rest. -/
theorem mergeRound_eq {f : Forest} (h : 2 ≤ f.work.length) :
    ∃ x y rest, stableSortDesc (freqAt f.nodes) f.work = rest ++ [y, x]
      ∧ mergeRound f = { nodes := f.nodes ++ [.internal (freqAt f.nodes x + freqAt f.nodes y) x y]
                         work := rest ++ [f.nodes.length] } := by
  have hlen : (stableSortDesc (freqAt f.nodes) f.work).reverse.length = f.work.length := by simp
  unfold mergeRound
  rcases hs : (stableSortDesc (freqAt f.nodes) f.work).reverse with _ | ⟨x, _ | ⟨y, rest⟩⟩
  · simp [hs] at hlen; omega
  · simp [hs] at hlen; omega
  · refine ⟨x, y, rest.reverse, ?_, rfl⟩
    rw [← List.reverse_reverse (stableSortDesc (freqAt f.nodes) f.work), hs]
    simp

/-- The arena is a forest over the n slots: leaves first, every later node with two different earlier children, and the working
collection holds trees that between them hold every slot once. -/
structure ForestOk (freq : List FreqEntry) (f : Forest) : Prop where
  leaves : ∀ (j : Nat) (h : j < freq.length), f.nodes[j]? = some (.leaf freq[j].sym freq[j].count)
  internals : ∀ k, freq.length ≤ k → k < f.nodes.length → ∃ l r,
    f.nodes[k]? = some (.internal (Machine.freqAt f.nodes l + Machine.freqAt f.nodes r) l r)
      ∧ l < k ∧ r < k ∧ l ≠ r ∧ Machine.freqAt f.nodes l ≤ Machine.freqAt f.nodes r
  lengths : f.nodes.length + f.work.length = 2 * freq.length
  enough : freq.length ≤ f.nodes.length
  nodup : f.work.Nodup
  inArena : ∀ k ∈ f.work, k < f.nodes.length
  newest : f.work ≠ [] → f.work.getLast? = some (f.nodes.length - 1)
  trees : ∃ T : Nat → HTree, (∀ k, k < f.nodes.length → Grows f.nodes k (T k))
    ∧ (f.work.flatMap fun k => (T k).slots).Perm (List.range freq.length)

theorem leafForest_ok (freq : List FreqEntry) : ForestOk freq (leafForest freq) where
  leaves j h := by simp [leafForest, h]
  internals k h1 h2 := by simp [leafForest] at h2; omega
  lengths := by simp [leafForest]; omega
  enough := by simp [leafForest]
  nodup := by simpa [leafForest] using List.nodup_range
  inArena k h := by simpa [leafForest] using h
  newest h := by
    have : freq.length ≠ 0 := by simpa [leafForest] using h
    simp [leafForest, List.getLast?_range, this]
  trees := by
    refine ⟨fun j => .leaf j (freqAt (leafForest freq).nodes j), fun k hk => ?_, ?_⟩
    · have hk : k < freq.length := by simpa [leafForest] using hk
      have hn : (leafForest freq).nodes[k]? = some (.leaf freq[k].sym freq[k].count) := by simp [leafForest, hk]
      show Grows _ k (.leaf k (freqAt (leafForest freq).nodes k))
      rw [show freqAt (leafForest freq).nodes k = freq[k].count by simp [freqAt, hn, nodeWeight]]
      exact .leaf hn
    · simp [leafForest, HTree.slots]

/-- Every round keeps the forest a forest over the slots, with one tree fewer. -/
theorem mergeRound_ok {freq : List FreqEntry} {f : Forest} (ok : ForestOk freq f) (h : 2 ≤ f.work.length) :
    ForestOk freq (mergeRound f) ∧ (mergeRound f).work.length + 1 = f.work.length := by
  obtain ⟨x, y, rest, hs, he⟩ := mergeRound_eq h
  have hperm : (rest ++ [y, x]).Perm f.work := hs ▸ stableSortDesc_perm (freqAt f.nodes) f.work
  have hxy : freqAt f.nodes x ≤ freqAt f.nodes y := by
    have hsort := stableSortDesc_sorted (freqAt f.nodes) f.work
    rw [hs] at hsort
    simpa using (List.pairwise_append.1 hsort).2.1
  have hlen : f.work.length = rest.length + 2 := by simpa using hperm.length_eq.symm
  have hnd : (rest ++ [y, x]).Nodup := hperm.nodup_iff.2 ok.nodup
  have hlt : ∀ z ∈ rest ++ [y, x], z < f.nodes.length := fun z hz => ok.inArena z (hperm.mem_iff.1 hz)
  have hxlt := hlt x (by simp)
  have hylt := hlt y (by simp)
  have hne : x ≠ y := by
    rintro rfl
    simpa using (List.nodup_append.1 hnd).2.1
  obtain ⟨T, hT, hslots⟩ := ok.trees
  have hl := ok.lengths
  have he' := ok.enough
  rw [he]
  refine ⟨⟨fun j hj => getElem?_append_some _ (ok.leaves j hj), fun k h1 h2 => ?_, by simp; omega, by simp; omega, ?_, ?_, by simp, ?_⟩,
    by simp; omega⟩
  · rcases Nat.lt_or_ge k f.nodes.length with hk | hk
    · obtain ⟨l, r, e, hl, hr, hd, hle⟩ := ok.internals k h1 hk
      refine ⟨l, r, ?_, hl, hr, hd, ?_⟩
      · rw [freqAt_append _ (hl.trans hk), freqAt_append _ (hr.trans hk)]
        exact getElem?_append_some _ e
      · rwa [freqAt_append _ (hl.trans hk), freqAt_append _ (hr.trans hk)]
    · have hk : k = f.nodes.length := by simp at h2; omega
      subst hk
      refine ⟨x, y, ?_, hxlt, hylt, hne, ?_⟩
      · rw [freqAt_append _ hxlt, freqAt_append _ hylt]; simp
      · rwa [freqAt_append _ hxlt, freqAt_append _ hylt]
  · refine List.nodup_append.2 ⟨(List.nodup_append.1 hnd).1, by simp, fun a ha b hb => ?_⟩
    have := hlt a (by simp [ha])
    simp at hb
    omega
  · intro k hk
    simp only [List.mem_append, List.mem_singleton, List.length_append, List.length_singleton] at hk ⊢
    rcases hk with hk | rfl
    · have := hlt k (by simp [hk]); omega
    · omega
  · refine ⟨fun k => if k = f.nodes.length then .node (T x) (T y) else T k, fun k hk => ?_, ?_⟩
    · by_cases hkl : k = f.nodes.length
      · subst hkl
        simp only [if_true]
        exact .node (by simp : _ = some (Node.internal (freqAt f.nodes x + freqAt f.nodes y) x y)) hxlt hylt
          (by rw [(hT x hxlt).freqAt, (hT y hylt).freqAt]) ((hT x hxlt).append _) ((hT y hylt).append _)
      · have : k < f.nodes.length := by simp at hk; omega
        simpa [hkl] using (hT k this).append _
    · have h1 : (rest.flatMap fun k => (if k = f.nodes.length then HTree.node (T x) (T y) else T k).slots)
          = rest.flatMap fun k => (T k).slots := by
        refine List.flatMap_congr fun k hk => ?_
        have := hlt k (by simp [hk])
        rw [if_neg (by omega)]
      have h2 := (hperm.flatMap_right fun k => (T k).slots).trans hslots
      refine List.Perm.trans ?_ h2
      simp only [List.flatMap_append, h1, List.flatMap_cons, List.flatMap_nil, if_true, HTree.slots, List.append_nil]
      exact (List.perm_append_comm).append_left _

/-- Rounds while more than one tree is left, with enough of them allowed, end with one tree. -/
theorem mergeWhile_ok {freq : List FreqEntry} (fuel : Nat) (f : Forest) (ok : ForestOk freq f) (hf : f.work.length ≤ fuel + 1)
    (h0 : 0 < f.work.length) : ForestOk freq (mergeWhile fuel f) ∧ (mergeWhile fuel f).work.length = 1 := by
  induction fuel generalizing f with
  | zero => exact ⟨ok, by simp [mergeWhile]; omega⟩
  | succ fuel ih =>
    simp only [mergeWhile]
    split
    · obtain ⟨ok', hl⟩ := mergeRound_ok ok (by omega)
      exact ih _ ok' (by omega) (by omega)
    · exact ⟨ok, by omega⟩

/-- The loop of R96 is as many rounds as there are trees too many. -/
theorem mergeWhile_eq_iterate {freq : List FreqEntry} (fuel : Nat) (f : Forest) (ok : ForestOk freq f) (hf : f.work.length ≤ fuel + 1) :
    mergeWhile fuel f = mergeRound^[f.work.length - 1] f := by
  induction fuel generalizing f with
  | zero => rw [show f.work.length - 1 = 0 by omega]; rfl
  | succ fuel ih =>
    simp only [mergeWhile]
    split
    · obtain ⟨ok', hl⟩ := mergeRound_ok ok (by omega)
      rw [ih _ ok' (by omega), show f.work.length - 1 = (mergeRound f).work.length - 1 + 1 by omega, Function.iterate_succ_apply]
    · rw [show f.work.length - 1 = 0 by omega]; rfl

/-- What stage 2 ends with: a forest over the slots with one tree in it. -/
theorem buildTree_ok {freq : List FreqEntry} (h : freq ≠ []) : ForestOk freq (buildTree freq) ∧ (buildTree freq).work.length = 1 := by
  have : 0 < freq.length := List.length_pos_of_ne_nil h
  exact mergeWhile_ok _ _ (leafForest_ok freq) (by simp [leafForest]) (by simpa [leafForest] using this)

/-- The one tree that is left is the last node of the arena. -/
theorem buildTree_work {freq : List FreqEntry} (h : freq ≠ []) : (buildTree freq).work = [2 * freq.length - 2] := by
  obtain ⟨ok, h1⟩ := buildTree_ok h
  obtain ⟨r, hr⟩ := List.length_eq_one_iff.1 h1
  have hl := ok.lengths
  have hn := ok.newest (by simp [hr])
  simp [hr] at hn
  rw [hr, hn]
  congr 1
  omega

theorem buildTree_nodes_length {freq : List FreqEntry} (h : freq ≠ []) : (buildTree freq).nodes.length = 2 * freq.length - 1 := by
  obtain ⟨ok, h1⟩ := buildTree_ok h
  have := ok.lengths
  omega

end Sys2Proof.Machine
end

