-- ==== Sys2Proof/Laws/Codes.lean ====
section
/-! SUPPORT. What the traversal of R104 does on a tree of the arena: it writes the path of each leaf into that leaf's slot. -/

namespace Sys2Proof.Machine

/-- The leaves' slots with their paths, behind the path `p` (R104). -/
def HTree.paths : HTree → List Bool → List (Nat × List Bool)
  | .leaf j _, p => [(j, p)]
  | .node l r, p => l.paths (p ++ [false]) ++ r.paths (p ++ [true])

/-- Each path written into its slot, one after the other. -/
def applyPaths (ps : List (Nat × List Bool)) (cs : List CodeEntry) : List CodeEntry :=
  ps.foldl (fun cs jp => cs.modify jp.1 fun e => { e with code := jp.2 }) cs

@[simp] theorem HTree.paths_slots (t : HTree) (p : List Bool) : (t.paths p).map (·.1) = t.slots := by
  induction t generalizing p with
  | leaf => rfl
  | node l r ihl ihr => simp [HTree.paths, HTree.slots, ihl, ihr]

theorem HTree.paths_eq_map (t : HTree) (p : List Bool) : t.paths p = (t.paths []).map fun jq => (jq.1, p ++ jq.2) := by
  induction t generalizing p with
  | leaf => simp [HTree.paths]
  | node l r ihl ihr =>
    simp only [HTree.paths, List.nil_append]
    rw [ihl, ihr, ihl [false], ihr [true]]
    simp [Function.comp_def]

@[simp] theorem applyPaths_nil (cs : List CodeEntry) : applyPaths [] cs = cs := rfl

@[simp] theorem applyPaths_cons (jp : Nat × List Bool) (ps : List (Nat × List Bool)) (cs : List CodeEntry) :
    applyPaths (jp :: ps) cs = applyPaths ps (cs.modify jp.1 fun e => { e with code := jp.2 }) := rfl

theorem applyPaths_append (ps qs : List (Nat × List Bool)) (cs : List CodeEntry) :
    applyPaths (ps ++ qs) cs = applyPaths qs (applyPaths ps cs) := by simp [applyPaths]

@[simp] theorem applyPaths_length (ps : List (Nat × List Bool)) (cs : List CodeEntry) : (applyPaths ps cs).length = cs.length := by
  induction ps generalizing cs with
  | nil => rfl
  | cons jp ps ih => simp [ih]

@[simp] theorem applyPaths_syms (ps : List (Nat × List Bool)) (cs : List CodeEntry) :
    (applyPaths ps cs).map (·.sym) = cs.map (·.sym) := by
  induction ps generalizing cs with
  | nil => rfl
  | cons jp ps ih =>
    rw [applyPaths_cons, ih]
    apply List.ext_getElem?
    intro i
    simp only [List.getElem?_map, List.getElem?_modify]
    rcases cs[i]? with _ | e
    · rfl
    · simp only [Option.map_eq_map, Option.map_some]; split <;> rfl

/-- A slot that no path names keeps its entry. -/
theorem applyPaths_getElem?_of_not_mem (ps : List (Nat × List Bool)) (cs : List CodeEntry) (j : Nat) (h : j ∉ ps.map (·.1)) :
    (applyPaths ps cs)[j]? = cs[j]? := by
  induction ps generalizing cs with
  | nil => rfl
  | cons jp ps ih =>
    simp only [List.map_cons, List.mem_cons, not_or] at h
    rw [applyPaths_cons, ih _ h.2, List.getElem?_modify]
    simp [Ne.symm h.1]

/-- A slot that one path names holds that path as its code. -/
theorem applyPaths_code (ps : List (Nat × List Bool)) (cs : List CodeEntry) (j : Nat) (p : List Bool)
    (hn : (ps.map (·.1)).Nodup) (hm : (j, p) ∈ ps) (hj : j < cs.length) : ((applyPaths ps cs)[j]?).map (·.code) = some p := by
  induction ps generalizing cs with
  | nil => simp at hm
  | cons jp ps ih =>
    rw [List.map_cons, List.nodup_cons] at hn
    rw [applyPaths_cons]
    rcases List.mem_cons.1 hm with rfl | hm
    · rw [applyPaths_getElem?_of_not_mem _ _ _ hn.1, List.getElem?_modify]
      simp [hj]
    · exact ih _ hn.2 hm (by simpa using hj)

/-- The traversal of a tree over slots of the table writes exactly the tree's paths (R104). -/
theorem visit_of_grows {nodes : List Node} {k : Nat} {t : HTree} (g : Grows nodes k t) (fuel : Nat) (hf : k < fuel) (p : List Bool)
    (cs : List CodeEntry) (hs : ∀ j ∈ t.slots, j < cs.length) : visit nodes fuel k p cs = some (applyPaths (t.paths p) cs) := by
  induction g generalizing fuel p cs with
  | leaf h =>
    obtain ⟨fuel, rfl⟩ := Nat.exists_eq_succ_of_ne_zero (by omega : fuel ≠ 0)
    have := hs _ (List.mem_singleton.2 rfl)
    simp [visit, h, this, HTree.paths]
  | node h hl hr hw _ _ ihl ihr =>
    obtain ⟨fuel, rfl⟩ := Nat.exists_eq_succ_of_ne_zero (by omega : fuel ≠ 0)
    simp only [HTree.slots, List.mem_append] at hs
    simp only [visit, h, HTree.paths]
    rw [ihl fuel (by omega) _ cs fun j hj => hs j (.inl hj)]
    simp only []
    rw [ihr fuel (by omega) _ _ fun j hj => by simpa using hs j (.inr hj), applyPaths_append]

/-- A path of the tree leads from its root to the leaf that it names. -/
theorem followBits_of_grows {nodes : List Node} {k j : Nat} {t : HTree} {p : List Bool} (g : Grows nodes k t) (h : (j, p) ∈ t.paths []) :
    followBits nodes k p = some j := by
  induction g generalizing j p with
  | leaf => simp only [HTree.paths, List.mem_singleton, Prod.mk.injEq] at h; rw [h.1, h.2]; rfl
  | node hn _ _ _ _ _ ihl ihr =>
    simp only [HTree.paths, List.nil_append, List.mem_append] at h
    rw [HTree.paths_eq_map _ [false], HTree.paths_eq_map _ [true]] at h
    simp only [List.mem_map, Prod.mk.injEq] at h
    rcases h with ⟨q, hq, rfl, rfl⟩ | ⟨q, hq, rfl, rfl⟩
    · simpa [followBits, hn] using ihl hq
    · simpa [followBits, hn] using ihr hq

/-- When the paths name every slot once, the codes are the paths in another order. -/
theorem applyPaths_codes_perm (ps : List (Nat × List Bool)) (cs : List CodeEntry)
    (h : (ps.map (·.1)).Perm (List.range cs.length)) : ((applyPaths ps cs).map (·.code)).Perm (ps.map (·.2)) := by
  have hn : (ps.map (·.1)).Nodup := h.nodup_iff.2 List.nodup_range
  let g : Nat → List Bool := fun j => (((applyPaths ps cs)[j]?).map (·.code)).getD []
  have h1 : ps.map (·.2) = (ps.map (·.1)).map g := by
    rw [List.map_map]
    refine List.map_congr_left fun jp hjp => ?_
    have hj : jp.1 < cs.length := by simpa using h.mem_iff.1 (List.mem_map.2 ⟨jp, hjp, rfl⟩)
    simp [g, applyPaths_code ps cs jp.1 jp.2 hn hjp hj]
  have h2 : (applyPaths ps cs).map (·.code) = (List.range cs.length).map g := by
    apply List.ext_getElem?
    intro i
    by_cases hi : i < cs.length
    · simp [g, hi]
    · simp [hi]
  rw [h1, h2]
  exact (h.map g).symm

/-- The code table of a non-empty frequency table is what the paths of one tree over its slots write (R104, R107). -/
theorem codesFrom_eq {freq : List FreqEntry} (h : freq ≠ []) :
    ∃ t : HTree, Grows (buildTree freq).nodes (2 * freq.length - 2) t ∧ t.slots.Perm (List.range freq.length)
      ∧ codesFrom freq (buildTree freq).nodes (2 * freq.length - 2) = some (applyPaths (t.paths []) (emptyCodes freq)) := by
  obtain ⟨ok, h1⟩ := buildTree_ok h
  obtain ⟨T, hT, hs⟩ := ok.trees
  have hlen := buildTree_nodes_length h
  have hpos : 0 < freq.length := List.length_pos_of_ne_nil h
  rw [buildTree_work h] at hs
  simp only [List.flatMap_cons, List.flatMap_nil, List.append_nil] at hs
  have g := hT (2 * freq.length - 2) (by omega)
  refine ⟨_, g, hs, visit_of_grows g _ (by omega) _ _ fun j hj => ?_⟩
  simpa [emptyCodes] using hs.mem_iff.1 hj

/-- The code table of every input that is not empty (R104): it exists, and it is what the paths of the input's tree write. -/
theorem jobCodes_eq {input : List Symbol} (h : input ≠ []) :
    ∃ t : HTree, Grows (jobTree input).nodes (2 * (jobFreq input).length - 2) t ∧ t.slots.Perm (List.range (jobFreq input).length)
      ∧ jobCodes input = some (applyPaths (t.paths []) (emptyCodes (jobFreq input))) := by
  have hf : jobFreq input ≠ [] := fun hc => h ((countSymbols_eq_nil input).1 hc)
  obtain ⟨t, g, hs, hc⟩ := codesFrom_eq hf
  refine ⟨t, g, hs, ?_⟩
  have hw : (jobTree input).work = [2 * (jobFreq input).length - 2] := buildTree_work hf
  simp only [jobCodes, hw]
  exact hc

end Sys2Proof.Machine
end

