-- ==== Sys2Proof/Laws/Depth.lean ====
section
/-! SUPPORT. How deep a leaf can lie (R12): the children of a merged node weigh no more than what is left in the working collection, so a leaf
at depth d stands under a weight of at least Fib(d+2). -/

namespace Sys2Proof.Machine

/-- The codes of the leaves of a tree, left to right. -/
def HTree.codes (t : HTree) : List (List Bool) := (t.paths []).map (·.2)

theorem HTree.codes_leaf (j c) : HTree.codes (.leaf j c) = [[]] := rfl

theorem HTree.codes_node (l r) : HTree.codes (.node l r) = (HTree.codes l).map (false :: ·) ++ (HTree.codes r).map (true :: ·) := by
  simp only [HTree.codes, HTree.paths, List.nil_append]
  rw [HTree.paths_eq_map l, HTree.paths_eq_map r]
  simp [Function.comp_def]

/-- A child of any node weighs no more than that node's sibling (`loc`), nor than any tree that is still to be merged (`bd`). -/
structure Balanced (f : Forest) : Prop where
  loc : ∀ k w l r : Nat, f.nodes[k]? = some (Node.internal w l r) → ∀ cw cl cr : Nat,
    (f.nodes[l]? = some (Node.internal cw cl cr) → freqAt f.nodes cl ≤ freqAt f.nodes r ∧ freqAt f.nodes cr ≤ freqAt f.nodes r) ∧
    (f.nodes[r]? = some (Node.internal cw cl cr) → freqAt f.nodes cl ≤ freqAt f.nodes l ∧ freqAt f.nodes cr ≤ freqAt f.nodes l)
  bd : ∀ k w l r : Nat, f.nodes[k]? = some (Node.internal w l r) → ∀ z ∈ f.work, freqAt f.nodes l ≤ freqAt f.nodes z ∧ freqAt f.nodes r ≤ freqAt f.nodes z

theorem balanced_leafForest (freq : List FreqEntry) : Balanced (leafForest freq) := by
  constructor <;> intro k w l r h <;> simp [leafForest] at h

theorem ForestOk.child_lt {freq f} (ok : ForestOk freq f) {k w l r : Nat} (h : f.nodes[k]? = some (Node.internal w l r)) : l < k ∧ r < k ∧ k < f.nodes.length := by
  have hk := (List.getElem?_eq_some_iff.1 h).1
  by_cases hf : freq.length ≤ k
  · obtain ⟨l', r', e, h1, h2, -⟩ := ok.internals k hf hk
    rw [h] at e; cases e; exact ⟨h1, h2, hk⟩
  · have := ok.leaves k (by omega)
    rw [h] at this; cases this

/-- Every round keeps the forest balanced. -/
theorem balanced_mergeRound {freq f} (ok : ForestOk freq f) (h : 2 ≤ f.work.length) (p : Balanced f) : Balanced (mergeRound f) := by
  obtain ⟨x, y, rest, hs, he⟩ := mergeRound_eq h
  have hperm : (rest ++ [y, x]).Perm f.work := hs ▸ stableSortDesc_perm (freqAt f.nodes) f.work
  have hsort := stableSortDesc_sorted (freqAt f.nodes) f.work
  rw [hs] at hsort
  have hlt : ∀ z ∈ rest ++ [y, x], z < f.nodes.length := fun z hz => ok.inArena z (hperm.mem_iff.1 hz)
  have hx := hlt x (by simp)
  have hy := hlt y (by simp)
  have hxw : x ∈ f.work := hperm.mem_iff.1 (by simp)
  have hyw : y ∈ f.work := hperm.mem_iff.1 (by simp)
  obtain ⟨-, hs2, hs3⟩ := List.pairwise_append.1 hsort
  have hxy : freqAt f.nodes x ≤ freqAt f.nodes y := by simpa using hs2
  set n := Node.internal (freqAt f.nodes x + freqAt f.nodes y) x y with hn
  have fa : ∀ z, z < f.nodes.length → freqAt (f.nodes ++ [n]) z = freqAt f.nodes z := fun z hz => freqAt_append _ hz
  have fn : freqAt (f.nodes ++ [n]) f.nodes.length = freqAt f.nodes x + freqAt f.nodes y := by simp [freqAt, hn, nodeWeight]
  have old : ∀ k, k < f.nodes.length → (f.nodes ++ [n])[k]? = f.nodes[k]? := fun k hk => List.getElem?_append_left hk
  have cases_k : ∀ k w l r : Nat, (f.nodes ++ [n])[k]? = some (Node.internal w l r) → (f.nodes[k]? = some (Node.internal w l r)) ∨ (k = f.nodes.length ∧ l = x ∧ r = y) := by
    intro k w l r hk
    have := (List.getElem?_eq_some_iff.1 hk).1
    rcases Nat.lt_or_ge k f.nodes.length with hl | hl
    · rw [old k hl] at hk; exact .inl hk
    · have : k = f.nodes.length := by simp at this; omega
      subst this
      simp [hn] at hk
      exact .inr ⟨rfl, hk.2.1.symm, hk.2.2.symm⟩
  rw [he]
  constructor
  · intro k w l r hk cw cl cr
    simp only at hk ⊢
    rcases cases_k _ _ _ _ hk with hk | ⟨rfl, rfl, rfl⟩
    · obtain ⟨h1, h2, h3⟩ := ForestOk.child_lt ok hk
      have hl : l < f.nodes.length := by omega
      have hr : r < f.nodes.length := by omega
      rw [old l hl, old r hr, fa l hl, fa r hr]
      obtain ⟨a, b⟩ := p.loc _ _ _ _ hk cw cl cr
      constructor
      · intro hc; obtain ⟨c1, c2, c3⟩ := ForestOk.child_lt ok hc; rw [fa cl (by omega), fa cr (by omega)]; exact a hc
      · intro hc; obtain ⟨c1, c2, c3⟩ := ForestOk.child_lt ok hc; rw [fa cl (by omega), fa cr (by omega)]; exact b hc
    · rw [old _ hx, old _ hy, fa _ hx, fa _ hy]
      constructor
      · intro hc; obtain ⟨c1, c2, c3⟩ := ForestOk.child_lt ok hc; rw [fa cl (by omega), fa cr (by omega)]; exact p.bd _ _ _ _ hc _ hyw
      · intro hc; obtain ⟨c1, c2, c3⟩ := ForestOk.child_lt ok hc; rw [fa cl (by omega), fa cr (by omega)]; exact p.bd _ _ _ _ hc _ hxw
  · intro k w l r hk z hz
    simp only [List.mem_append, List.mem_singleton] at hk hz ⊢
    rcases cases_k _ _ _ _ hk with hk | ⟨rfl, rfl, rfl⟩
    · obtain ⟨h1, h2, h3⟩ := ForestOk.child_lt ok hk
      rw [fa l (by omega), fa r (by omega)]
      rcases hz with hz | rfl
      · have hz' := hlt z (by simp [hz])
        rw [fa z hz']; exact p.bd _ _ _ _ hk z (hperm.mem_iff.1 (by simp [hz]))
      · rw [fn]; have := p.bd _ _ _ _ hk x hxw; omega
    · rw [fa _ hx, fa _ hy]
      rcases hz with hz | rfl
      · have hz' := hlt z (by simp [hz])
        rw [fa z hz']
        have a := hs3 z hz _ (show l ∈ [r, l] by simp)
        have b := hs3 z hz _ (show r ∈ [r, l] by simp)
        exact ⟨a, b⟩
      · rw [fn]; omega

theorem balanced_mergeWhile {freq} (fuel : Nat) (f : Forest) (ok : ForestOk freq f) (p : Balanced f) : Balanced (mergeWhile fuel f) := by
  induction fuel generalizing f with
  | zero => exact p
  | succ fuel ih =>
    simp only [mergeWhile]
    split
    · obtain ⟨ok', hl⟩ := mergeRound_ok ok (by omega)
      exact ih _ ok' (balanced_mergeRound ok (by omega) p)
    · exact p

/-- A code of length d of a tree in a balanced forest needs a weight of at least Fib(d+2) (R12). -/
theorem fib_le_of_code_length {freq f} (ok : ForestOk freq f) (p : Balanced f) (hpos : ∀ e ∈ freq, 1 ≤ e.count) (d : Nat) :
    ∀ k t, Grows f.nodes k t → ∀ q ∈ HTree.codes t, q.length = d → Nat.fib (d + 2) ≤ freqAt f.nodes k := by
  have one : ∀ k t, Grows f.nodes k t → 1 ≤ freqAt f.nodes k := by
    intro k t g
    rw [g.freqAt]
    induction g with
    | leaf h =>
      rename_i k s c
      have hk : k < freq.length := by
        by_contra hc
        obtain ⟨l, r, e, -⟩ := ok.internals k (by omega) (List.getElem?_eq_some_iff.1 h).1
        rw [h] at e; cases e
      rw [ok.leaves k hk] at h; cases h
      exact hpos _ (List.getElem_mem _)
    | node h _ _ _ _ _ il ir => simp [HTree.weight]; omega
  induction d using Nat.strong_induction_on with
  | _ d ih =>
    intro k t g q hq hd
    cases g with
    | leaf h => 
      simp [HTree.codes_leaf] at hq; subst hq; subst hd
      exact one k _ (.leaf h)
    | @node _ l r w tl tr h hl hr hw gl gr =>
      have hf : freqAt f.nodes k = freqAt f.nodes l + freqAt f.nodes r := by
        rw [(Grows.node h hl hr hw gl gr).freqAt, gl.freqAt, gr.freqAt]; rfl
      have key : ∀ a b ta, Grows f.nodes a ta → (1 ≤ freqAt f.nodes b) → (∀ cw cl cr, f.nodes[a]? = some (Node.internal cw cl cr) → freqAt f.nodes cl ≤ freqAt f.nodes b ∧ freqAt f.nodes cr ≤ freqAt f.nodes b) →
          ∀ q' ∈ HTree.codes ta, q'.length + 1 = d → Nat.fib (d + 2) ≤ freqAt f.nodes a + freqAt f.nodes b := by
        intro a b ta ga hb hloc q' hq' hd'
        have h1 := ih q'.length (by omega) a ta ga q' hq' rfl
        have e : Nat.fib (d + 2) = Nat.fib (q'.length + 1) + Nat.fib (q'.length + 2) := by
          rw [← hd']; exact Nat.fib_add_two
        rw [e]
        have h2 : Nat.fib (q'.length + 1) ≤ freqAt f.nodes b := by
          cases ga with
          | leaf h => simp [HTree.codes_leaf] at hq'; subst hq'; simpa using hb
          | @node _ l2 r2 w2 tl2 tr2 hh hl2 hr2 hw2 gl2 gr2 =>
            rw [HTree.codes_node] at hq'
            obtain ⟨c1, c2⟩ := hloc _ _ _ hh
            rcases List.mem_append.1 hq' with hm | hm
            · obtain ⟨q2, hq2, rfl⟩ := List.mem_map.1 hm
              exact (ih q2.length (by simp at hd'; omega) l2 tl2 gl2 q2 hq2 rfl).trans c1
            · obtain ⟨q2, hq2, rfl⟩ := List.mem_map.1 hm
              exact (ih q2.length (by simp at hd'; omega) r2 tr2 gr2 q2 hq2 rfl).trans c2
        omega
      rw [HTree.codes_node] at hq
      rw [hf]
      rcases List.mem_append.1 hq with hm | hm
      · obtain ⟨q', hq', rfl⟩ := List.mem_map.1 hm
        exact key l r tl gl (one _ _ gr) (fun cw cl cr => (p.loc _ _ _ _ h cw cl cr).1) q' hq' (by simpa using hd)
      · obtain ⟨q', hq', rfl⟩ := List.mem_map.1 hm
        rw [Nat.add_comm (freqAt f.nodes l)]
        exact key r l tr gr (one _ _ gl) (fun cw cl cr => (p.loc _ _ _ _ h cw cl cr).2) q' hq' (by simpa using hd)

end Sys2Proof.Machine
end

