-- ==== Sys2Proof/Laws/Encoding.lean ====
section
/-! SUPPORT. The fields and the rows of the encoding (R73, R75) as arithmetic on the word's number. -/

namespace Sys2Proof

/-- A row whose mask is all ones matches its own word only. -/
theorem hits_of_full_mask (p w : Word) : (OpcodeRow.hits ⟨p, 0xFFFFFFFF#32⟩ w = true) ↔ w = p := by
  have : (0xFFFFFFFF#32) = BitVec.allOnes 32 := by decide
  rw [OpcodeRow.hits, this, BitVec.and_allOnes]; simp

/-- The row of LOAD_SYM looks at OP and RSV only. -/
theorem rowLoadSym_hits (w : Word) : rowLoadSym.hits w = true ↔ w.toNat / 2^21 = 16 := by
  simp only [OpcodeRow.hits, rowLoadSym, beq_iff_eq]
  constructor
  · intro h
    have h2 : w.extractLsb' 21 11 = 16#11 := by
      ext i hi
      have h1 : ∀ j, (w &&& 0xFFE00000#32).getLsbD j = (0x02000000#32).getLsbD j := by rw [h]; simp
      have := h1 (21+i)
      rw [BitVec.getLsbD_and] at this
      have h3 : (0xFFE00000#32).getLsbD (21+i) = true := by
        have h : ∀ i, i < 11 → (0xFFE00000#32).getLsbD (21+i) = true := by decide
        exact h i hi
      have h4 : (0x02000000#32).getLsbD (21+i) = (16#11).getLsbD i := by
        have h : ∀ i, i < 11 → (0x02000000#32).getLsbD (21+i) = (16#11).getLsbD i := by decide
        exact h i hi
      rw [h3, h4] at this
      simpa [BitVec.getLsbD_extractLsb', hi] using this
    have h5 := congrArg BitVec.toNat h2
    simp [BitVec.extractLsb'_toNat, Nat.shiftRight_eq_div_pow] at h5
    have := w.isLt
    omega
  · intro h
    have h2 : w.extractLsb' 21 11 = 16#11 := by
      apply BitVec.eq_of_toNat_eq
      simp [BitVec.extractLsb'_toNat, Nat.shiftRight_eq_div_pow]
      omega
    ext i hi
    by_cases hi2 : i < 21
    · have : ∀ i, i < 21 → (0xFFE00000#32).getLsbD i = false ∧ (0x02000000#32).getLsbD i = false := by decide
      have := this i hi2
      simp only [BitVec.getElem_and]
      simp only [← BitVec.getLsbD_eq_getElem]
      rw [this.1, this.2]; simp
    · have h4 : ∀ j, j < 11 → (0xFFE00000#32).getLsbD (21+j) = true ∧ (0x02000000#32).getLsbD (21+j) = (16#11).getLsbD j := by decide
      have := h4 (i-21) (by omega)
      rw [show 21 + (i-21) = i by omega] at this
      simp only [BitVec.getElem_and]
      simp only [← BitVec.getLsbD_eq_getElem]
      rw [this.1, this.2, ← h2, BitVec.getLsbD_extractLsb', show 21 + (i-21) = i by omega]
      simp; omega

theorem encode_loadSym_toNat (cp : Symbol) : (encode (.loadSym cp)).toNat = 0x2000000 + cp.toNat := by
  have h := cp.isLt
  have : (0x2000000 : Nat) ||| cp.toNat = 0x2000000 + cp.toNat := by
    have := Nat.two_pow_add_eq_or_of_lt (i := 21) (b := cp.toNat) h 16
    simpa using this.symm
  simp only [encode, rowLoadSym, BitVec.toNat_or, BitVec.toNat_setWidth, BitVec.toNat_ofNat]
  rw [Nat.mod_eq_of_lt (by omega : cp.toNat < 2^32)]
  exact this

theorem operandField_toNat (w : Word) : (operandField w).toNat = w.toNat % 2^21 := by
  simp [operandField, BitVec.extractLsb'_toNat]

theorem opField_toNat (w : Word) : (opField w).toNat = w.toNat / 2^24 := by
  have := w.isLt
  simp [opField, BitVec.extractLsb'_toNat, Nat.shiftRight_eq_div_pow]; omega

theorem rsvField_toNat (w : Word) : (rsvField w).toNat = w.toNat / 2^21 % 8 := by
  simp [rsvField, BitVec.extractLsb'_toNat, Nat.shiftRight_eq_div_pow]

/-- The decoder as a chain of comparisons of the word's number. -/
theorem decode_eq (w : Word) : decode w =
    if w.toNat = 0 then .command .nop else if w.toNat = 0x1000000 then .command .clear
    else if w.toNat / 2^21 = 16 then .command (.loadSym (operandField w))
    else if w.toNat = 0x3000000 then .command .start
    else if w.toNat = 0x4000000 then .command .step else .malformed (malformedKind w) := by
  have e : ∀ p : Word, (OpcodeRow.hits ⟨p, 0xFFFFFFFF#32⟩ w = true) ↔ w.toNat = p.toNat := by
    intro p; rw [hits_of_full_mask]; exact BitVec.toNat_eq.trans Iff.rfl
  unfold decode
  simp only [rowNop, rowClear, rowStart, rowStep, e, rowLoadSym_hits]
  rfl

/-- The well-formed words by their numbers (R76). -/
theorem wellFormed_word_iff (w : Word) : WellFormed.word w = true ↔ (w.toNat = 0 ∨ w.toNat = 0x1000000 ∨ w.toNat/2^21 = 16 ∨ w.toNat = 0x3000000 ∨ w.toNat = 0x4000000) := by
  simp [WellFormed.word]
  have := w.isLt
  omega

end Sys2Proof
end

