-- ==== Sys2Proof/Laws/Step.lean ====
section
/-! SUPPORT. What each shared operation of the machine can do, said once: the commands, the register writes, the engine's stages, the
host's accesses and the step. -/

namespace Sys2Proof.Machine

/-- What a command word can do (R81 to R86): nothing, clear the job, enter an error that a command raises, append a symbol, or set
the target above the phase. -/
inductive CommandEffect (w : Word) (s : State) : State → Prop
  | none : CommandEffect w s s
  | clear : CommandEffect w s (clearJob s)
  | error (e : ErrorCode) (hp : s.phase ≠ 7#3)
      (he : e = .illegalCommand ∨ e = .sequence ∨ e = .busy ∨ e = .badSymbol ∨ e = .inputFull) :
      CommandEffect w s (errorEntry e 0#3 w s)
  | load (cp : Symbol) (hp : s.phase = 0#3) (hb : busy s = false) (hc : isScalar cp = true) (hl : s.input.length ≠ s.inCap) :
      CommandEffect w s { s with input := s.input ++ [cp] }
  | target (t : BitVec 3) (hp : s.phase ≠ 7#3) (hb : busy s = false) (h4 : s.phase.toNat ≤ 4) (ht : s.phase.toNat < t.toNat)
      (h5 : t.toNat ≤ 5) : CommandEffect w s (setTarget t s)

theorem phase_add_one {p : BitVec 3} (h : p.toNat ≤ 4) : (p + 1#3).toNat = p.toNat + 1 := by
  have h1 : (1#3).toNat = 1 := rfl
  rw [BitVec.toNat_add, h1, Nat.mod_eq_of_lt (by omega)]

theorem exec_effect (i : Instr) (s : State) : ∃ t, exec i s = .next t ∧ CommandEffect (encode i) s t := by
  cases i with
  | nop => exact ⟨s, rfl, .none⟩
  | clear => exact ⟨clearJob s, rfl, .clear⟩
  | loadSym cp =>
    simp only [exec, execLoadSym, unlessError, raiseCommand]
    split
    · exact ⟨s, rfl, .none⟩
    · rename_i h7
      split
      · exact ⟨_, rfl, .error .busy h7 (by simp)⟩
      · rename_i hb
        split
        · exact ⟨_, rfl, .error .sequence h7 (by simp)⟩
        · rename_i h0
          split
          · exact ⟨_, rfl, .error .badSymbol h7 (by simp)⟩
          · rename_i hc
            split
            · exact ⟨_, rfl, .error .inputFull h7 (by simp)⟩
            · rename_i hl
              exact ⟨_, rfl, .load cp (by simpa using h0) (by simpa using hb) (by simpa using hc) hl⟩
  | start =>
    simp only [exec, execStart, unlessError, raiseCommand]
    split
    · exact ⟨s, rfl, .none⟩
    · rename_i h7
      split
      · exact ⟨_, rfl, .error .busy h7 (by simp)⟩
      · rename_i hb
        split
        · exact ⟨_, rfl, .error .sequence h7 (by simp)⟩
        · exact ⟨_, rfl, .target _ h7 (by simpa using hb) (by omega) (by simp; omega) (by simp)⟩
  | step =>
    simp only [exec, execStep, unlessError, raiseCommand]
    split
    · exact ⟨s, rfl, .none⟩
    · rename_i h7
      split
      · exact ⟨_, rfl, .error .busy h7 (by simp)⟩
      · rename_i hb
        split
        · exact ⟨_, rfl, .error .sequence h7 (by simp)⟩
        · rename_i h4
          have := phase_add_one (p := s.phase) (by omega)
          exact ⟨_, rfl, .target _ h7 (by simpa using hb) (by omega) (by omega) (by omega)⟩

/-- Every word written to CMD has one of the effects of a command (R81). -/
theorem runCommand_effect (w : Word) (s : State) : ∃ t w', runCommand w s = .next t ∧ CommandEffect w' s t := by
  unfold runCommand
  split
  · obtain ⟨t, h, he⟩ := exec_effect ‹_› s
    exact ⟨t, _, h, he⟩
  · unfold execMalformed unlessError raiseCommand
    split
    · exact ⟨s, w, rfl, .none⟩
    · rename_i h7; exact ⟨_, w, rfl, .error .illegalCommand h7 (by simp)⟩

/-- What a register write can do (R88). -/
theorem busWrite_effect (off : Offset) (v : Word) (s : State) :
    (∃ t w', busWrite off v s = .next t ∧ CommandEffect w' s t)
      ∨ (off = 0x28#12 ∧ busWrite off v s = .next { s with outPtr := v }) := by
  unfold busWrite
  split
  · exact .inl (runCommand_effect v s)
  · rename_i h
    refine .inr ⟨?_, rfl⟩
    unfold regAt at h
    split at h <;> simp_all
    exact BitVec.eq_of_toNat_eq (by simpa using ‹_›)
  · exact .inl ⟨s, v, rfl, .none⟩

/-- What one thing the host does can do, when it has a next state (R80, R88, R136). -/
inductive HostEffect (op : HostOp) (s : State) : State → Prop
  | command (off : Offset) (v w : Word) (t : State) (ho : op = .write 32 off v) (h : CommandEffect w s t) : HostEffect op s t
  | outPtr (v : Word) (ho : op = .write 32 0x28#12 v) : HostEffect op s { s with outPtr := v }
  | bind (off : Offset) : HostEffect op s (bindVar (busRead off s) s)
  | again (ho : ∃ off mask val, op = .poll off mask val) : HostEffect op s (setOps (op :: s.agents.ops) s)
  | reset (ho : op = .reset) : HostEffect op s (clearJob s)

theorem checkedAccess_next {width : Nat} {off : Offset} {act : Result} {t : State} (h : checkedAccess width off act = .next t) :
    width = 32 ∧ off.toNat % 4 = 0 ∧ act = .next t := by
  unfold checkedAccess at h
  split at h
  · cases h
  · split at h
    · cases h
    · rename_i h1 h2
      exact ⟨by simpa using h1, by simpa using h2, h⟩

theorem hostAccess_effect {op : HostOp} {s t : State} (h : hostAccess op s = .next t) : HostEffect op s t := by
  cases op with
  | read width off =>
    obtain ⟨-, -, h⟩ := checkedAccess_next h
    cases h; exact .bind off
  | write width off v =>
    obtain ⟨rfl, -, h⟩ := checkedAccess_next h
    rcases busWrite_effect off v s with ⟨u, w, hu, he⟩ | ⟨rfl, hu⟩
    · rw [hu] at h; cases h; exact .command off v w _ rfl he
    · rw [hu] at h; cases h; exact .outPtr v rfl
  | poll off mask val =>
    obtain ⟨-, -, h⟩ := checkedAccess_next h
    unfold pollOnce at h
    split at h
    · cases h; exact .bind off
    · cases h; exact .again ⟨_, _, _, rfl⟩
  | reset => cases h; exact .reset rfl

/-- A host access never faults. -/
theorem hostAccess_ne_fault (op : HostOp) (s : State) (f : Fault) : hostAccess op s ≠ .fault f := by
  have key : ∀ (width : Nat) (off : Offset) (act : Result), (∀ f, act ≠ .fault f) → checkedAccess width off act ≠ .fault f := by
    intro width off act h hc
    unfold checkedAccess at hc
    split at hc
    · cases hc
    · split at hc
      · cases hc
      · exact h _ hc
  cases op with
  | read width off => exact key _ _ _ (by simp)
  | write width off v =>
    refine key _ _ _ fun f hf => ?_
    rcases busWrite_effect off v s with ⟨u, w, hu, -⟩ | ⟨-, hu⟩ <;> rw [hu] at hf <;> cases hf
  | poll off mask val =>
    refine key _ _ _ fun f hf => ?_
    unfold pollOnce at hf
    split at hf <;> cases hf
  | reset => simp [hostAccess]

/-- What the engine's step can do, when it has a next state (R92). -/
theorem engineStep_next {s t : State} (h : engineStep s = .next t) :
    (∃ u, runStage (s.phase.toNat + 1) s = .commit u ∧ t = { u with phase := BitVec.ofNat 3 (s.phase.toNat + 1) })
      ∨ ∃ e, runStage (s.phase.toNat + 1) s = .raised e ∧ t = errorEntry e (BitVec.ofNat 3 (s.phase.toNat + 1)) 0#32 s := by
  unfold engineStep at h
  split at h
  · rename_i u hu; cases h; exact .inl ⟨u, hu, rfl⟩
  · rename_i e he; cases h; exact .inr ⟨e, he, rfl⟩
  · cases h

theorem nextMover_of_hostsTurn {s : State} {op : HostOp} {rest : List HostOp} (h : hostsTurn s op rest) :
    nextMover s = .host op rest := by
  unfold nextMover
  rw [h.1]
  cases hb : busy s with
  | false => rfl
  | true => simp [h.2 hb]

theorem nextMover_of_enginesTurn {s : State} (h : enginesTurn s) : nextMover s = .engine := by
  unfold nextMover
  rw [h.1]
  rcases hops : s.agents.ops with _ | ⟨op, rest⟩
  · rfl
  · rcases h.2 with h2 | h2
    · simp [hops] at h2
    · simp [h2]

theorem nextMover_of_idle {s : State} (h : idle s) : nextMover s = .nobody := by
  unfold nextMover; rw [h.1, h.2]

/-- One of the three is the case in every state. -/
theorem turn_cases (s : State) : idle s ∨ enginesTurn s ∨ ∃ op rest, hostsTurn s op rest := by
  rcases hops : s.agents.ops with _ | ⟨op, rest⟩
  · cases hb : busy s with
    | false => exact .inl ⟨hb, hops⟩
    | true => exact .inr (.inl ⟨hb, .inl hops⟩)
  · by_cases h : busy s = true ∧ pendingDelay s = 0
    · exact .inr (.inl ⟨h.1, .inr h.2⟩)
    · exact .inr (.inr ⟨op, rest, hops, fun hb hd => h ⟨hb, hd⟩⟩)

theorem step_of_hostsTurn {s : State} {op : HostOp} {rest : List HostOp} (hl : Config.legalInCap s.inCap = true)
    (h : hostsTurn s op rest) : step s = hostAccess op (takeOp rest s) := by
  simp [step, legalStep, hl, agentStep, nextMover_of_hostsTurn h]

theorem step_of_enginesTurn {s : State} (hl : Config.legalInCap s.inCap = true) (h : enginesTurn s) :
    step s = engineStep (takeStage s) := by
  simp [step, legalStep, hl, agentStep, nextMover_of_enginesTurn h]

theorem step_of_idle {s : State} (hl : Config.legalInCap s.inCap = true) (h : idle s) : step s = .next s := by
  simp [step, legalStep, hl, agentStep, nextMover_of_idle h]

/-- What a step can do, when it has a next state (R65): the block is idle, or the engine moves, or the host does. -/
theorem step_next {s t : State} (h : step s = .next t) :
    Config.legalInCap s.inCap = true ∧
      ((idle s ∧ t = s) ∨ (enginesTurn s ∧ engineStep (takeStage s) = .next t)
        ∨ ∃ op rest, hostsTurn s op rest ∧ HostEffect op (takeOp rest s) t) := by
  have hl : Config.legalInCap s.inCap = true := by
    unfold step legalStep at h
    split at h
    · assumption
    · cases h
  refine ⟨hl, ?_⟩
  rcases turn_cases s with hi | he | ⟨op, rest, hh⟩
  · rw [step_of_idle hl hi] at h; cases h; exact .inl ⟨hi, rfl⟩
  · rw [step_of_enginesTurn hl he] at h; exact .inr (.inl ⟨he, h⟩)
  · rw [step_of_hostsTurn hl hh] at h; exact .inr (.inr ⟨op, rest, hh, hostAccess_effect h⟩)

/-- Taking an access off the host's list leaves the block alone. -/
theorem takeOp_sameBlock (rest : List HostOp) (s : State) : sameBlock s (takeOp rest s) := by
  unfold sameBlock takeOp; split <;> rfl

/-- What a register's offset is. -/
theorem regOffset_of_regAt {off : Offset} {r : Reg} (h : regAt off = some r) : off = regOffset r := by
  unfold regAt at h
  split at h <;> simp at h <;> subst h <;> exact BitVec.eq_of_toNat_eq (by simpa using ‹_›)

/-- What a step of the host can do, with what it did to cause it: nothing to the block, CLEAR or reset, an error, a symbol loaded, a new
target, or a write of OUT_PTR. -/
inductive HostCause (s : State) (op : HostOp) : State → Prop
  | idle (a : Agents) : HostCause s op { s with agents := a }
  | clear (a : Agents) (hc : op = .reset ∨ ∃ w, op = .write 32 0x08#12 w ∧ decode w = .command .clear) :
      HostCause s op (clearJob { s with agents := a })
  | error (a : Agents) (e : ErrorCode) (w : Word) (h7 : s.phase ≠ 7#3) : HostCause s op (errorEntry e 0#3 w { s with agents := a })
  | load (a : Agents) (w : Word) (cp : Symbol) (ho : op = .write 32 0x08#12 w) (hd : decode w = .command (.loadSym cp))
      (h0 : s.phase = 0#3) (hb : busy s = false) (hs : isScalar cp = true) (hl : s.input.length ≠ s.inCap) :
      HostCause s op { s with input := s.input ++ [cp], agents := a }
  | target (a : Agents) (t : BitVec 3) (h7 : s.phase ≠ 7#3) : HostCause s op { s with target := t, agents := a }
  | outPtr (a : Agents) (v : Word) (ho : op = .write 32 0x28#12 v) : HostCause s op { s with outPtr := v, agents := a }

/-- The cause of what a command does, in a state that differs from `s` in the agents only. -/
theorem command_cause {s t : State} {a : Agents} {w : Word} {op : HostOp} (ho : op = .write 32 0x08#12 w)
    (h : runCommand w { s with agents := a } = .next t) : HostCause s op t := by
  have hb : busy { s with agents := a } = busy s := rfl
  unfold runCommand at h
  split at h
  · rename_i i hd
    cases i with
    | nop => cases h; exact .idle a
    | clear => cases h; exact .clear a (.inr ⟨w, ho, hd⟩)
    | loadSym cp =>
      simp only [exec, execLoadSym, unlessError, raiseCommand, hb] at h
      split at h
      · cases h; exact .idle a
      · rename_i h7
        split at h
        · cases h; exact .error a _ _ h7
        · rename_i hbusy
          split at h
          · cases h; exact .error a _ _ h7
          · rename_i h0
            split at h
            · cases h; exact .error a _ _ h7
            · rename_i hs
              split at h
              · cases h; exact .error a _ _ h7
              · rename_i hl
                cases h
                exact .load a w cp ho hd (by simpa using h0) (by simpa using hbusy) (by simpa using hs) hl
    | start =>
      simp only [exec, execStart, unlessError, raiseCommand, hb] at h
      split at h
      · cases h; exact .idle a
      · rename_i h7
        split at h
        · cases h; exact .error a _ _ h7
        · split at h
          · cases h; exact .error a _ _ h7
          · cases h; exact .target a _ h7
    | step =>
      simp only [exec, execStep, unlessError, raiseCommand, hb] at h
      split at h
      · cases h; exact .idle a
      · rename_i h7
        split at h
        · cases h; exact .error a _ _ h7
        · split at h
          · cases h; exact .error a _ _ h7
          · cases h; exact .target a _ h7
  · simp only [execMalformed, unlessError, raiseCommand] at h
    split at h
    · cases h; exact .idle a
    · rename_i h7; cases h; exact .error a _ _ h7

/-- The cause of what the host's turn does. -/
theorem hostsTurn_cause {s t : State} {op : HostOp} {rest : List HostOp} (hl : Config.legalInCap s.inCap = true)
    (ht : hostsTurn s op rest) (hs : step s = .next t) : HostCause s op t := by
  rw [step_of_hostsTurn hl ht] at hs
  have hu : takeOp rest s = { s with agents := (takeOp rest s).agents } := by unfold takeOp; split <;> rfl
  generalize (takeOp rest s).agents = a at hu
  rw [hu] at hs
  cases op with
  | read width off =>
    obtain ⟨-, -, h⟩ := checkedAccess_next hs
    cases h; exact .idle _
  | poll off mask val =>
    obtain ⟨-, -, h⟩ := checkedAccess_next hs
    unfold pollOnce at h
    split at h <;> (cases h; exact .idle _)
  | reset => cases hs; exact .clear a (.inl rfl)
  | write width off v =>
    obtain ⟨rfl, -, h⟩ := checkedAccess_next hs
    unfold busWrite at h
    split at h
    · have ho := regOffset_of_regAt ‹_›
      exact command_cause (by rw [ho]; rfl) h
    · have ho := regOffset_of_regAt ‹_›
      cases h; exact .outPtr a v (by rw [ho]; rfl)
    · cases h; exact .idle _

/-- No engine step writes the input, OUT_PTR, IN_CAP or the agents. -/
theorem engineStep_keeps {s t : State} (h : engineStep s = .next t) :
    t.input = s.input ∧ t.outPtr = s.outPtr ∧ t.inCap = s.inCap ∧ t.agents = s.agents := by
  rcases engineStep_next h with ⟨u, hu, rfl⟩ | ⟨e, he, rfl⟩
  · generalize s.phase.toNat + 1 = k at hu
    unfold runStage at hu
    split at hu
    · cases hu; exact ⟨rfl, rfl, rfl, rfl⟩
    · unfold buildTreeStage at hu
      split at hu <;> cases hu; exact ⟨rfl, rfl, rfl, rfl⟩
    · unfold buildCodesStage at hu
      split at hu
      · cases hu
      · split at hu <;> cases hu; exact ⟨rfl, rfl, rfl, rfl⟩
    · unfold serializeStage at hu
      split at hu
      · cases hu
      · split at hu
        · cases hu
        · split at hu <;> cases hu; exact ⟨rfl, rfl, rfl, rfl⟩
    · unfold packStage at hu
      split at hu <;> cases hu; exact ⟨rfl, rfl, rfl, rfl⟩
    · cases hu
  · exact ⟨rfl, rfl, rfl, rfl⟩

end Sys2Proof.Machine
end

