-- ==== Sys2Proof/Laws/Stages.lean ====
section
/-! SUPPORT. What the stages look at and what each does (R92): a stage reads the stores only, and its answer is known from them. -/

namespace Sys2Proof.Machine

/-- A stage's answer with what no stage reads put in its place. -/
def StageResult.mapState (f : State → State) : StageResult → StageResult
  | .commit u => .commit (f u)
  | .raised e => .raised e
  | .stuck r => .stuck r

/-- No stage reads the target, OUT_PTR or the agents (R92, R93). -/
theorem runStage_update (k : Nat) (s : State) (tg : BitVec 3) (p : Word) (a : Agents) :
    runStage k { s with target := tg, outPtr := p, agents := a }
      = (runStage k s).mapState fun u => { u with target := tg, outPtr := p, agents := a } := by
  rcases k with _ | _ | _ | _ | _ | _ | k
  · rfl
  · rfl
  · simp only [runStage, buildTreeStage]
    by_cases h : s.freq.length = 0 <;> simp [h, StageResult.mapState]
  · simp only [runStage, buildCodesStage]
    cases hr : s.root with
    | none => rfl
    | some r =>
      simp only []
      cases hc : codesFrom s.freq s.nodes r <;> simp [StageResult.mapState]
  · simp only [runStage, serializeStage]
    by_cases h : (s.codes.any fun e => decide (255 < e.code.length)) = true
    · simp only [h, if_true, StageResult.mapState]
    · simp only [h]
      cases hb : bodyBits s.codes s.input with
      | none => simp [StageResult.mapState]
      | some b =>
        by_cases hl : 4294967295 < (headerBits s.codes ++ b).length
        · simp only [hl, if_true, StageResult.mapState]; simp
        · simp only [hl, if_false, StageResult.mapState]; simp
  · simp only [runStage, packStage]
    by_cases h : s.bits.length % 4 = 0 <;> simp [h, StageResult.mapState]
  · rfl

/-- What a successful stage writes, stage by stage (R94, R96, R104, R108, R116). -/
theorem runStage_commit {k : Nat} {s u : State} (h : runStage k s = .commit u) :
    (k = 1 ∧ u = { s with freq := countSymbols s.input, symCount := BitVec.ofNat 32 (countSymbols s.input).length })
    ∨ (k = 2 ∧ s.freq ≠ [] ∧ u = { s with nodes := (buildTree s.freq).nodes, root := (buildTree s.freq).work[0]?, work := (buildTree s.freq).work })
    ∨ (k = 3 ∧ ∃ r c, s.root = some r ∧ codesFrom s.freq s.nodes r = some c ∧ u = { s with codes := c })
    ∨ (k = 4 ∧ (∀ e ∈ s.codes, e.code.length ≤ 255) ∧ ∃ b, bodyBits s.codes s.input = some b
        ∧ (headerBits s.codes ++ b).length ≤ 4294967295
        ∧ u = { s with bits := headerBits s.codes ++ b, bitLen := BitVec.ofNat 32 (headerBits s.codes ++ b).length })
    ∨ (k = 5 ∧ s.bits.length % 4 = 0 ∧ u = { s with out := packBits s.bits }) := by
  rcases k with _ | _ | _ | _ | _ | _ | k
  · cases h
  · cases h; exact .inl ⟨rfl, rfl⟩
  · simp only [runStage, buildTreeStage] at h
    split at h
    · cases h
    · rename_i hf; cases h; exact .inr (.inl ⟨rfl, by simpa using hf, rfl⟩)
  · simp only [runStage, buildCodesStage] at h
    split at h
    · cases h
    · split at h
      · cases h
      · cases h; exact .inr (.inr (.inl ⟨rfl, _, _, ‹_›, ‹_›, rfl⟩))
  · simp only [runStage, serializeStage] at h
    split at h
    · cases h
    · rename_i h255
      split at h
      · cases h
      · split at h
        · cases h
        · rename_i hl
          cases h
          exact .inr (.inr (.inr (.inl ⟨rfl, by simpa using h255, _, ‹_›, by omega, rfl⟩)))
  · simp only [runStage, packStage] at h
    split at h
    · cases h
    · rename_i hl; cases h; exact .inr (.inr (.inr (.inr ⟨rfl, by omega, rfl⟩)))
  · cases h

/-- When each stage raises, and what (R100, R113, R118). -/
theorem runStage_raised {k : Nat} {s : State} {e : ErrorCode} (h : runStage k s = .raised e) :
    (k = 2 ∧ e = .emptyInput ∧ s.freq = []) ∨ (k = 4 ∧ e = .lengthOverflow) ∨ (k = 5 ∧ e = .bitLength ∧ s.bits.length % 4 ≠ 0) := by
  rcases k with _ | _ | _ | _ | _ | _ | k
  · cases h
  · cases h
  · simp only [runStage, buildTreeStage] at h
    split at h
    · rename_i hf; cases h; exact .inl ⟨rfl, rfl, by simpa using hf⟩
    · cases h
  · simp only [runStage, buildCodesStage] at h
    split at h
    · cases h
    · split at h <;> cases h
  · simp only [runStage, serializeStage] at h
    split at h
    · cases h; exact .inr (.inl ⟨rfl, rfl⟩)
    · split at h
      · cases h
      · split at h
        · cases h; exact .inr (.inl ⟨rfl, rfl⟩)
        · cases h
  · simp only [runStage, packStage] at h
    split at h
    · rename_i hl; cases h; exact .inr (.inr ⟨rfl, rfl, hl⟩)
    · cases h
  · cases h

end Sys2Proof.Machine
end

