-- ==== Sys2Proof/Laws/Interleaving.lean ====
section
/-! SUPPORT. The model's account of the interleaving (log entry 1) decides which agent moves and nothing else: every access and every stage
does the same whatever that account is. -/

namespace Sys2Proof.Machine

/-- `s` with another account of the interleaving. -/
def withTurns (ds : List Nat) (n : Nat) (s : State) : State := { s with agents := { s.agents with delays := ds, draws := n } }

/-- An answer with another account of the interleaving. -/
def withTurnsOf (ds : List Nat) (n : Nat) : Result → Result
  | .next t => .next (withTurns ds n t)
  | .fault f => .fault f
  | .refused r => .refused r

theorem withDelays_eq (ds : List Nat) (s : State) : withDelays ds s = withTurns ds s.agents.draws s := rfl
theorem eraseTurns_eq (s : State) : eraseTurns s = withTurns [] 0 s := rfl
theorem eraseTurnsOf_eq (r : Result) : eraseTurnsOf r = withTurnsOf [] 0 r := by cases r <;> rfl

@[simp] theorem withTurns_withTurns (ds es : List Nat) (m n : Nat) (s : State) :
    withTurns ds m (withTurns es n s) = withTurns ds m s := rfl
@[simp] theorem withTurns_self (s : State) : withTurns s.agents.delays s.agents.draws s = s := rfl
@[simp] theorem withTurns_busy (ds : List Nat) (n : Nat) (s : State) : busy (withTurns ds n s) = busy s := rfl
@[simp] theorem withTurns_ops (ds : List Nat) (n : Nat) (s : State) : (withTurns ds n s).agents.ops = s.agents.ops := rfl
@[simp] theorem withTurns_inCap (ds : List Nat) (n : Nat) (s : State) : (withTurns ds n s).inCap = s.inCap := rfl
@[simp] theorem withTurns_setOps (ds : List Nat) (n : Nat) (ops : List HostOp) (s : State) :
    withTurns ds n (setOps ops s) = setOps ops (withTurns ds n s) := rfl
@[simp] theorem withTurns_takeStage (ds : List Nat) (n : Nat) (s : State) : withTurns ds n (takeStage s) = withTurns ds n s := rfl

@[simp] theorem withTurns_takeOp (ds : List Nat) (n : Nat) (rest : List HostOp) (s : State) :
    withTurns ds n (takeOp rest s) = setOps rest (withTurns ds n s) := by
  unfold takeOp; split <;> rfl

@[simp] theorem withTurnsOf_next (ds : List Nat) (n : Nat) (t : State) : withTurnsOf ds n (.next t) = .next (withTurns ds n t) := rfl
@[simp] theorem withTurnsOf_fault (ds : List Nat) (n : Nat) (f : Fault) : withTurnsOf ds n (.fault f) = .fault f := rfl
@[simp] theorem withTurnsOf_refused (ds : List Nat) (n : Nat) (r : Refusal) : withTurnsOf ds n (.refused r) = .refused r := rfl

@[simp] theorem withTurnsOf_withTurnsOf (ds es : List Nat) (m n : Nat) (r : Result) :
    withTurnsOf ds m (withTurnsOf es n r) = withTurnsOf ds m r := by cases r <;> rfl

theorem withTurnsOf_ite (ds : List Nat) (n : Nat) (c : Prop) [Decidable c] (a b : Result) :
    withTurnsOf ds n (if c then a else b) = if c then withTurnsOf ds n a else withTurnsOf ds n b := by split <;> rfl

/-- No command looks at the account of the interleaving or changes it. -/
theorem runCommand_withTurns (ds : List Nat) (n : Nat) (w : Word) (s : State) :
    runCommand w (withTurns ds n s) = withTurnsOf ds n (runCommand w s) := by
  unfold runCommand
  cases decode w with
  | malformed _ => simp only [execMalformed, unlessError, withTurnsOf_ite]; rfl
  | command i =>
    cases i <;>
      simp only [exec, execNop, execClear, execLoadSym, execStart, execStep, unlessError, withTurnsOf_ite, withTurns_busy] <;> rfl

/-- No access of the host looks at it or changes it. -/
theorem hostAccess_withTurns (ds : List Nat) (n : Nat) (op : HostOp) (s : State) :
    hostAccess op (withTurns ds n s) = withTurnsOf ds n (hostAccess op s) := by
  cases op with
  | read width off => simp only [hostAccess, checkedAccess, withTurnsOf_ite]; rfl
  | poll off mask val => simp only [hostAccess, checkedAccess, pollOnce, withTurnsOf_ite]; rfl
  | reset => rfl
  | write width off v =>
    simp only [hostAccess, checkedAccess, busWrite, withTurnsOf_ite]
    rcases regAt off with _ | r
    · rfl
    · cases r <;> simp only [runCommand_withTurns] <;> rfl

/-- No stage looks at it or changes it. -/
theorem engineStep_withTurns (ds : List Nat) (n : Nat) (s : State) :
    engineStep (withTurns ds n s) = withTurnsOf ds n (engineStep s) := by
  have h := runStage_update (s.phase.toNat + 1) s s.target s.outPtr (withTurns ds n s).agents
  have hs : withTurns ds n s = { s with target := s.target, outPtr := s.outPtr, agents := (withTurns ds n s).agents } := rfl
  have hp : (withTurns ds n s).phase = s.phase := rfl
  unfold engineStep
  rw [hp]
  nth_rewrite 1 [hs]
  rw [h]
  cases hr : runStage (s.phase.toNat + 1) s with
  | raised e => rfl
  | stuck f => rfl
  | commit u =>
    rcases runStage_commit hr with ⟨-, rfl⟩ | ⟨-, -, rfl⟩ | ⟨-, _, _, -, -, rfl⟩ | ⟨-, -, _, -, -, rfl⟩ | ⟨-, -, rfl⟩ <;> rfl

/-- An agent's move is the same whatever the account of the interleaving is. -/
theorem moveOf_withTurns (ds : List Nat) (n : Nat) (a : Agent) (s : State) :
    moveOf a (withTurns ds n s) = (moveOf a s).map (withTurnsOf ds n) := by
  cases a with
  | host =>
    simp only [moveOf, withTurns_ops]
    rcases s.agents.ops with _ | ⟨op, rest⟩
    · rfl
    · simp only [← withTurns_setOps, hostAccess_withTurns, Option.map_some]
  | engine =>
    simp only [moveOf, withTurns_busy, engineStep_withTurns]
    split <;> rfl

/-- So is a whole interleaving. -/
theorem runMoves_withTurns (ds : List Nat) (n : Nat) (order : List Agent) (s : State) :
    runMoves order (withTurns ds n s) = (runMoves order s).map (withTurnsOf ds n) := by
  induction order generalizing s with
  | nil => rfl
  | cons a order ih =>
    simp only [runMoves, moveOf_withTurns]
    rcases moveOf a s with _ | t | f | r
    · rfl
    · exact ih t
    · rfl
    · rfl

/-- An agent's move keeps IN_CAP. -/
theorem moveOf_inCap {a : Agent} {s t : State} (h : moveOf a s = some (.next t)) : t.inCap = s.inCap := by
  cases a with
  | host =>
    simp only [moveOf] at h
    split at h
    · cases h
    · rcases hostAccess_effect (Option.some.inj h) with ⟨_, _, _, _, -, hc⟩ | ⟨_, -⟩ | _ | _ | _
      · cases hc <;> rfl
      all_goals rfl
  | engine =>
    simp only [moveOf] at h
    split at h
    · exact (engineStep_keeps (Option.some.inj h)).2.2.1
    · cases h

end Sys2Proof.Machine
end

