-- ==== Sys2Proof/Laws/Optimal.lean ====
section
/-! SUPPORT. Why merging the two lightest is best (R103): Kraft's inequality for prefix-free codes, the exchange that makes the two lightest
trees the deepest ones, and the weight that the rounds of stage 2 merge. -/

namespace Sys2Proof.Machine

/-- What follows the first bit `b` in the codes that start with it. -/
def tailsAfter (b : Bool) (cs : List (List Bool)) : List (List Bool) := cs.filterMap fun c => match c with | [] => none | a :: t => if a = b then some t else none

theorem sum_tailsAfter (M : Nat) (cs : List (List Bool)) (h : [] ∉ cs) :
    (cs.map fun c => 2 ^ (M + 1 - c.length)).sum = ((tailsAfter false cs).map fun c => 2 ^ (M - c.length)).sum + ((tailsAfter true cs).map fun c => 2 ^ (M - c.length)).sum := by
  induction cs with
  | nil => rfl
  | cons c cs ih =>
    simp only [List.mem_cons, not_or] at h
    have ih := ih h.2
    cases c with
    | nil => exact absurd rfl h.1
    | cons a t =>
      cases a <;> simp [tailsAfter] at ih ⊢ <;> omega

theorem prefixFree_tailsAfter (b : Bool) (cs : List (List Bool)) (h : prefixFree cs) : prefixFree (tailsAfter b cs) := by
  unfold prefixFree tailsAfter at *
  refine List.Pairwise.filterMap _ ?_ h
  intro a a' hp c hc c' hc'
  rcases a with _ | ⟨x, a⟩ <;> rcases a' with _ | ⟨x', a'⟩ <;> simp at hc hc'
  obtain ⟨rfl, rfl⟩ := hc
  obtain ⟨rfl, rfl⟩ := hc'
  simpa [List.cons_prefix_cons] using hp

theorem mem_of_mem_tailsAfter {b : Bool} {cs : List (List Bool)} {t : List Bool} (h : t ∈ tailsAfter b cs) : (b :: t) ∈ cs := by
  unfold tailsAfter at h
  obtain ⟨c, hc, he⟩ := List.mem_filterMap.1 h
  rcases c with _ | ⟨x, c⟩ <;> simp at he
  obtain ⟨rfl, rfl⟩ := he
  exact hc

/-- Kraft: Σ 2^(−ℓ) ≤ 1 for a prefix-free code, over the common denominator 2^M. -/
theorem kraft_of_prefixFree (M : Nat) : ∀ cs : List (List Bool), prefixFree cs → (∀ c ∈ cs, c.length ≤ M) → (cs.map fun c => 2 ^ (M - c.length)).sum ≤ 2 ^ M := by
  have one : ∀ cs : List (List Bool), prefixFree cs → [] ∈ cs → cs = [[]] := by
    intro cs h hm
    rcases cs with _ | ⟨a, _ | ⟨b, cs⟩⟩
    · simp at hm
    · simp at hm; rw [← hm]
    · exfalso
      rcases List.mem_cons.1 hm with rfl | hm
      · have := (List.pairwise_cons.1 h).1 b (by simp); simp at this
      · have := (List.pairwise_cons.1 h).1 [] hm; simp at this
  induction M with
  | zero =>
    intro cs h hl
    rcases cs with _ | ⟨a, cs⟩
    · simp
    · have : a = [] := List.eq_nil_of_length_eq_zero (by have := hl a (by simp); omega)
      rw [one _ h (by simp [this])]; simp
  | succ M ih =>
    intro cs h hl
    by_cases hm : [] ∈ cs
    · rw [one _ h hm]; simp
    · rw [sum_tailsAfter M cs hm]
      have h1 := ih _ (prefixFree_tailsAfter false cs h) (fun c hc => by have := hl _ (mem_of_mem_tailsAfter hc); simp at this; omega)
      have h2 := ih _ (prefixFree_tailsAfter true cs h) (fun c hc => by have := hl _ (mem_of_mem_tailsAfter hc); simp at this; omega)
      rw [pow_succ]; omega

/-- The cost of (weight, length) pairs. -/
def pairCost (ps : List (Nat × Nat)) : Nat := (ps.map fun p => p.1 * p.2).sum

/-- Σ 2^(−ℓ) over the common denominator 2^M. -/
def kraftSum (M : Nat) (ls : List Nat) : Nat := (ls.map fun l => 2 ^ (M - l)).sum

theorem kraftSum_perm {M l l'} (h : List.Perm l l') : kraftSum M l = kraftSum M l' := (h.map _).sum_eq

/-- Giving the lightest weight the greatest length costs no more. -/
theorem longest_to_lightest (wx : Nat) (ps : List (Nat × Nat)) (lx : Nat) (hw : ∀ p ∈ ps, wx ≤ p.1) :
    ∃ ps' lx', ps'.map (·.1) = ps.map (·.1) ∧ (lx' :: ps'.map (·.2)).Perm (lx :: ps.map (·.2)) ∧ (∀ p ∈ ps', p.2 ≤ lx')
      ∧ pairCost ps' + wx * lx' ≤ pairCost ps + wx * lx := by
  induction ps with
  | nil => exact ⟨[], lx, rfl, .refl _, by simp, le_refl _⟩
  | cons p ps ih =>
    obtain ⟨ps', lx', h1, h2, h3, h4⟩ := ih (fun q hq => hw q (by simp [hq]))
    have hp := hw p (by simp)
    by_cases hle : p.2 ≤ lx'
    · refine ⟨p :: ps', lx', by simp [h1], ?_, ?_, ?_⟩
      · simp only [List.map_cons]
        exact (List.Perm.swap _ _ _).trans ((h2.cons _).trans (List.Perm.swap _ _ _))
      · intro q hq; rcases List.mem_cons.1 hq with rfl | hq
        · exact hle
        · exact h3 q hq
      · simp [pairCost] at h4 ⊢; omega
    · refine ⟨(p.1, lx') :: ps', p.2, by simp [h1], ?_, ?_, ?_⟩
      · simp only [List.map_cons]
        exact (h2.cons _).trans (List.Perm.swap _ _ _)
      · intro q hq; rcases List.mem_cons.1 hq with rfl | hq
        · simp; omega
        · have := h3 q hq; omega
      · have : p.1 * lx' + wx * p.2 ≤ p.1 * p.2 + wx * lx' := by
          obtain ⟨d, hd⟩ : ∃ d, p.2 = lx' + d := ⟨p.2 - lx', by omega⟩
          rw [hd, Nat.mul_add, Nat.mul_add]
          have := Nat.mul_le_mul_right d hp
          omega
        simp [pairCost] at h4 ⊢; omega

theorem dvd_kraftSum (M ly : Nat) (ls : List Nat) (h : ∀ l ∈ ls, l ≤ ly) (hM : ly ≤ M) : 2 ^ (M - ly) ∣ kraftSum M ls := by
  unfold kraftSum
  refine List.dvd_sum ?_
  intro v hv
  obtain ⟨l, hl, rfl⟩ := List.mem_map.1 hv
  exact pow_dvd_pow 2 (by have := h l hl; omega)

/-- From any lengths that meet Kraft's inequality to lengths for the merged weights, at the merged weight less in cost. -/
theorem merge_two_lightest (M wx wy lx ly : Nat) (ps : List (Nat × Nat)) (hxy : wx ≤ wy) (hw : ∀ p ∈ ps, wy ≤ p.1)
    (hb : ∀ l ∈ lx :: ly :: ps.map (·.2), l ≤ M) (hk : kraftSum M (lx :: ly :: ps.map (·.2)) ≤ 2 ^ M) :
    ∃ ps' L, ps'.map (·.1) = ps.map (·.1) ∧ (∀ l ∈ L :: ps'.map (·.2), l ≤ M) ∧ kraftSum M (L :: ps'.map (·.2)) ≤ 2 ^ M
      ∧ pairCost ps' + (wx + wy) * L + (wx + wy) ≤ pairCost ps + wx * lx + wy * ly := by
  obtain ⟨ps1, lx1, a1, a2, a3, a4⟩ := longest_to_lightest wx ((wy, ly) :: ps) lx (by
    intro p hp; rcases List.mem_cons.1 hp with rfl | hp
    · exact hxy
    · exact hxy.trans (hw p hp))
  rcases ps1 with _ | ⟨⟨wy1, ly1⟩, ps1⟩
  · simp at a1
  simp only [List.map_cons, List.cons.injEq] at a1
  obtain ⟨rfl, a1⟩ := a1
  have hw1 : ∀ p ∈ ps1, wy1 ≤ p.1 := by
    intro p hp
    have : p.1 ∈ ps.map (·.1) := by rw [← a1]; exact List.mem_map.2 ⟨p, hp, rfl⟩
    obtain ⟨q, hq, hqe⟩ := List.mem_map.1 this
    rw [← hqe]; exact hw q hq
  obtain ⟨ps2, ly2, b1, b2, b3, b4⟩ := longest_to_lightest wy1 ps1 ly1 hw1
  have hperm : (lx1 :: ly2 :: ps2.map (·.2)).Perm (lx :: ly :: ps.map (·.2)) := by
    refine (b2.cons lx1).trans ?_
    simpa using a2
  have hb2 : ∀ l ∈ lx1 :: ly2 :: ps2.map (·.2), l ≤ M := fun l hl => hb l (hperm.mem_iff.1 hl)
  have hk2 : kraftSum M (lx1 :: ly2 :: ps2.map (·.2)) ≤ 2 ^ M := by rw [kraftSum_perm hperm]; exact hk
  have hyx : ly2 ≤ lx1 := by
    have : ly2 ∈ ly1 :: ps1.map (·.2) := b2.mem_iff.1 (by simp)
    rcases List.mem_cons.1 this with rfl | h
    · exact a3 (wy1, ly2) (by simp)
    · obtain ⟨q, hq, rfl⟩ := List.mem_map.1 h
      exact a3 q (by simp [hq])
  have hyM := hb2 ly2 (by simp)
  have hd1 := dvd_kraftSum M ly2 (ps2.map (·.2)) (by intro l hl; obtain ⟨q, hq, rfl⟩ := List.mem_map.1 hl; exact b3 q hq) hyM
  have hd2 : 2 ^ (M - ly2) ∣ 2 ^ M := pow_dvd_pow 2 (by omega)
  have hpos : 0 < 2 ^ (M - lx1) := by positivity
  have hD : 0 < 2 ^ (M - ly2) := by positivity
  have hs : 2 ^ (M - lx1) + (2 ^ (M - ly2) + kraftSum M (ps2.map (·.2))) ≤ 2 ^ M := by simpa [kraftSum] using hk2
  have hs2 : kraftSum M (ps2.map (·.2)) + 2 ^ (M - ly2) + 2 ^ (M - ly2) ≤ 2 ^ M := by
    obtain ⟨u, hu⟩ := hd1
    obtain ⟨v, hv⟩ := hd2
    rw [hu, hv] at hs
    rw [hu, hv]
    generalize 2 ^ (M - ly2) = D at *
    have : D * (u + 1) < D * v := by rw [Nat.mul_add]; omega
    have : u + 1 < v := Nat.lt_of_mul_lt_mul_left this
    calc D * u + D + D = D * (u + 2) := by ring
      _ ≤ D * v := Nat.mul_le_mul_left _ (by omega)
  have hly : 1 ≤ ly2 := by
    by_contra hc
    have : ly2 = 0 := by omega
    subst this; simp at hs2
  refine ⟨ps2, ly2 - 1, b1.trans a1, ?_, ?_, ?_⟩
  · intro l hl
    rcases List.mem_cons.1 hl with rfl | hl
    · omega
    · exact hb2 l (by simp [hl])
  · have : 2 ^ (M - (ly2 - 1)) = 2 ^ (M - ly2) + 2 ^ (M - ly2) := by
      rw [show M - (ly2 - 1) = M - ly2 + 1 by omega, pow_succ]; ring
    simp only [kraftSum, List.map_cons, List.sum_cons] at hs2 ⊢
    rw [this]; omega
  · have e : (wx + wy1) * (ly2 - 1) + (wx + wy1) = wx * ly2 + wy1 * ly2 := by
      obtain ⟨m, rfl⟩ : ∃ m, ly2 = m + 1 := ⟨ly2 - 1, by omega⟩
      simp; ring
    have e2 : wx * ly2 ≤ wx * lx1 := Nat.mul_le_mul_left _ hyx
    simp [pairCost] at a4 b4 ⊢
    omega

theorem exists_perm_map_eq {α β : Type} (f : α → β) (l : List α) (m : List β) (h : (l.map f).Perm m) : ∃ l' : List α, l'.Perm l ∧ l'.map f = m := by
  generalize hg : l.map f = k at h
  induction h generalizing l with
  | nil => exact ⟨l, .refl _, hg⟩
  | cons x h ih =>
    rcases l with _ | ⟨a, l⟩
    · simp at hg
    · simp at hg
      obtain ⟨l', h1, h2⟩ := ih l hg.2
      exact ⟨a :: l', h1.cons a, by simp [hg.1, h2]⟩
  | swap x y t =>
    rcases l with _ | ⟨a, _ | ⟨b, l⟩⟩
    · simp at hg
    · simp at hg
    · simp at hg
      exact ⟨b :: a :: l, .swap _ _ _, by simp [hg]⟩
  | trans h1 h2 ih1 ih2 =>
    obtain ⟨l1, a1, a2⟩ := ih1 l hg
    obtain ⟨l2, b1, b2⟩ := ih2 l1 a2
    exact ⟨l2, b1.trans a1, b2⟩

/-- The sum of the weights that the rounds of stage 2 give to new nodes. -/
def mergedWeight : Nat → Forest → Nat
  | 0, _ => 0
  | fuel + 1, f => if 1 < f.work.length then freqAt (mergeRound f).nodes f.nodes.length + mergedWeight fuel (mergeRound f) else 0

/-- No lengths that meet Kraft's inequality cost less than what the rounds merge. -/
theorem mergedWeight_le (fuel : Nat) : ∀ {freq : List FreqEntry} {f : Forest}, ForestOk freq f → ∀ (M : Nat) (ps : List (Nat × Nat)),
    (ps.map (·.1)).Perm (f.work.map (freqAt f.nodes)) → (∀ l ∈ ps.map (·.2), l ≤ M) → kraftSum M (ps.map (·.2)) ≤ 2 ^ M → mergedWeight fuel f ≤ pairCost ps := by
  induction fuel with
  | zero => intros; simp [mergedWeight]
  | succ fuel ih =>
    intro freq f ok M ps hp hb hk
    simp only [mergedWeight]
    split
    case isFalse => simp
    case isTrue h =>
    obtain ⟨x, y, rest, hs, he⟩ := mergeRound_eq (by omega : 2 ≤ f.work.length)
    have hperm : (rest ++ [y, x]).Perm f.work := hs ▸ stableSortDesc_perm (freqAt f.nodes) f.work
    have hsort := stableSortDesc_sorted (freqAt f.nodes) f.work
    rw [hs] at hsort
    obtain ⟨-, hs2, hs3⟩ := List.pairwise_append.1 hsort
    have hxy : freqAt f.nodes x ≤ freqAt f.nodes y := by simpa using hs2
    have hp' : (ps.map (·.1)).Perm (freqAt f.nodes x :: freqAt f.nodes y :: rest.map (freqAt f.nodes)) := by
      refine hp.trans ((hperm.symm.map _).trans ?_)
      rw [List.map_append]
      refine (List.perm_append_comm).trans ?_
      exact List.Perm.swap _ _ _
    obtain ⟨qs, hq1, hq2⟩ := exists_perm_map_eq _ _ _ hp'
    rcases qs with _ | ⟨⟨wx, lx⟩, _ | ⟨⟨wy, ly⟩, qs⟩⟩
    · simp at hq2
    · simp at hq2
    simp only [List.map_cons, List.cons.injEq] at hq2
    obtain ⟨rfl, rfl, hq2⟩ := hq2
    have hl2 := hq1.map (·.2)
    simp only [List.map_cons] at hl2
    obtain ⟨ps', L, c1, c2, c3, c4⟩ := merge_two_lightest M (freqAt f.nodes x) (freqAt f.nodes y) lx ly qs hxy (by
        intro p hpm
        have : p.1 ∈ rest.map (freqAt f.nodes) := by rw [← hq2]; exact List.mem_map.2 ⟨p, hpm, rfl⟩
        obtain ⟨z, hz, hze⟩ := List.mem_map.1 this
        rw [← hze]; exact hs3 z hz y (by simp)) (fun l hl => hb l (hl2.mem_iff.1 hl)) (by rw [kraftSum_perm hl2]; exact hk)
    have hlt : ∀ z ∈ rest ++ [y, x], z < f.nodes.length := fun z hz => ok.inArena z (hperm.mem_iff.1 hz)
    have hnew : freqAt (mergeRound f).nodes f.nodes.length = freqAt f.nodes x + freqAt f.nodes y := by
      rw [he]; simp [freqAt, nodeWeight]
    have hmap : (mergeRound f).work.map (freqAt (mergeRound f).nodes) = rest.map (freqAt f.nodes) ++ [freqAt f.nodes x + freqAt f.nodes y] := by
      rw [← hnew, he]
      simp only [List.map_append, List.map_cons, List.map_nil]
      congr 1
      refine List.map_congr_left fun z hz => freqAt_append _ (hlt z (by simp [hz]))
    have ihh := ih (mergeRound_ok ok (by omega)).1 M ((freqAt f.nodes x + freqAt f.nodes y, L) :: ps') (by
        rw [hmap]; simp only [List.map_cons, c1, hq2]
        exact (List.perm_append_singleton _ _).symm) (by simpa using c2) (by simpa using c3)
    have hc : pairCost ps = pairCost ((freqAt f.nodes x, lx) :: (freqAt f.nodes y, ly) :: qs) := (hq1.map _).sum_eq.symm
    rw [hc, hnew]
    simp [pairCost] at ihh c4 ⊢
    omega

/-- The sum of the weights of the internal nodes. -/
def HTree.mergeSum : HTree → Nat
  | .leaf _ _ => 0
  | .node l r => l.weight + r.weight + HTree.mergeSum l + HTree.mergeSum r

/-- An index stands for one tree. -/
theorem Grows.unique {nodes k t} (g : Grows nodes k t) : ∀ t', Grows nodes k t' → t = t' := by
  induction g with
  | leaf h => intro t' g'; cases g' with
    | leaf h' => rw [h] at h'; cases h'; rfl
    | node h' => rw [h] at h'; cases h'
  | node h _ _ _ _ _ il ir => intro t' g'; cases g' with
    | leaf h' => rw [h] at h'; cases h'
    | node h' _ _ _ gl gr => rw [h] at h'; cases h'; rw [il _ gl, ir _ gr]

/-- The rounds add the merged weight to the trees in the working collection. -/
theorem mergeSum_total (fuel : Nat) : ∀ {freq : List FreqEntry} {f : Forest}, ForestOk freq f → ∀ T T' : Nat → HTree,
    (∀ k, k < f.nodes.length → Grows f.nodes k (T k)) → (∀ k, k < (mergeWhile fuel f).nodes.length → Grows (mergeWhile fuel f).nodes k (T' k)) →
    (((mergeWhile fuel f).work.map fun k => HTree.mergeSum (T' k)).sum = (f.work.map fun k => HTree.mergeSum (T k)).sum + mergedWeight fuel f) := by
  induction fuel with
  | zero =>
    intro freq f ok T T' hT hT'
    simp only [mergeWhile, mergedWeight, Nat.add_zero]
    congr 1
    refine List.map_congr_left fun k hk => ?_
    rw [Grows.unique (hT' k (ok.inArena k hk)) _ (hT k (ok.inArena k hk))]
  | succ fuel ih =>
    intro freq f ok T T' hT hT'
    simp only [mergeWhile, mergedWeight] at hT' ⊢
    split
    case isFalse h =>
      simp only [h, if_false] at hT'
      simp only [Nat.add_zero]
      congr 1
      refine List.map_congr_left fun k hk => ?_
      rw [Grows.unique (hT' k (ok.inArena k hk)) _ (hT k (ok.inArena k hk))]
    case isTrue h =>
    simp only [h, if_true] at hT'
    obtain ⟨x, y, rest, hs, he⟩ := mergeRound_eq (by omega : 2 ≤ f.work.length)
    have hperm : (rest ++ [y, x]).Perm f.work := hs ▸ stableSortDesc_perm (freqAt f.nodes) f.work
    have hlt : ∀ z ∈ rest ++ [y, x], z < f.nodes.length := fun z hz => ok.inArena z (hperm.mem_iff.1 hz)
    have hx := hlt x (by simp)
    have hy := hlt y (by simp)
    have hnew : freqAt (mergeRound f).nodes f.nodes.length = freqAt f.nodes x + freqAt f.nodes y := by
      rw [he]; simp [freqAt, nodeWeight]
    have h1 := ih (mergeRound_ok ok (by omega)).1 (fun k => if k = f.nodes.length then .node (T x) (T y) else T k) T' (by
      intro k hk
      rw [he] at hk ⊢
      by_cases hkl : k = f.nodes.length
      · subst hkl
        simp only [if_true]
        exact .node (by simp : _ = some (Node.internal (freqAt f.nodes x + freqAt f.nodes y) x y)) hx hy
          (by rw [(hT x hx).freqAt, (hT y hy).freqAt]) ((hT x hx).append _) ((hT y hy).append _)
      · have : k < f.nodes.length := by simp at hk; omega
        simpa [hkl] using (hT k this).append _) hT'
    rw [h1, hnew]
    have h2 : ((mergeRound f).work.map fun k => HTree.mergeSum (if k = f.nodes.length then HTree.node (T x) (T y) else T k)).sum
        = (rest.map fun k => HTree.mergeSum (T k)).sum + (freqAt f.nodes x + freqAt f.nodes y + HTree.mergeSum (T x) + HTree.mergeSum (T y)) := by
      rw [he]
      simp only [List.map_append, List.sum_append, List.map_cons, List.map_nil, List.sum_cons, List.sum_nil, if_true, HTree.mergeSum, (hT x hx).freqAt, (hT y hy).freqAt, Nat.add_zero]
      rw [List.map_congr_left (g := fun k => HTree.mergeSum (T k)) fun k hk => by
        have := hlt k (by simp [hk])
        rw [if_neg (by omega)]]
    have h3 : (f.work.map fun k => HTree.mergeSum (T k)).sum = (rest.map fun k => HTree.mergeSum (T k)).sum + (HTree.mergeSum (T y) + HTree.mergeSum (T x)) := by
      rw [← (hperm.map _).sum_eq]; simp
    rw [h2, h3]; omega

/-- The sum of the internal nodes' weights is the sum of weight × depth over the leaves. -/
theorem paths_cost_of_grows {nodes k t} (g : Grows nodes k t) : ∀ p, ((t.paths p).map fun jq => freqAt nodes jq.1 * jq.2.length).sum = HTree.mergeSum t + t.weight * p.length := by
  induction g with
  | leaf h => intro p; simp [HTree.paths, HTree.mergeSum, HTree.weight, freqAt, h, nodeWeight]
  | node h _ _ _ _ _ il ir =>
    intro p
    simp only [HTree.paths, List.map_append, List.sum_append, il, ir, HTree.mergeSum, HTree.weight, List.length_append, List.length_singleton]
    ring

end Sys2Proof.Machine
end

