-- ==== Sys2Proof/Laws/PerInstr.lean ====
section
/-! SUPPORT. What is said of every command as syntax, constructor by constructor. -/

namespace Sys2Proof.Laws

/-- The word of a command is well-formed (R76). -/
def EncodedWellFormed.Statement (i : Instr) : Prop := WellFormed.word (encode i) = true

theorem EncodedWellFormed.nop : EncodedWellFormed.Statement .nop := rfl

theorem EncodedWellFormed.clear : EncodedWellFormed.Statement .clear := rfl

theorem EncodedWellFormed.loadSym (cp : Symbol) : EncodedWellFormed.Statement (.loadSym cp) := by
  have h : (encode (.loadSym cp)).toNat = 0x2000000 + cp.toNat := by
    simp only [encode, rowLoadSym, BitVec.toNat_or, BitVec.toNat_setWidth, BitVec.toNat_ofNat]
    have h2 := Nat.two_pow_add_eq_or_of_lt cp.isLt 16
    rw [Nat.mod_eq_of_lt (cp.isLt.trans (by decide) : cp.toNat < 2 ^ 32)]
    exact h2.symm
  have := cp.isLt
  unfold EncodedWellFormed.Statement WellFormed.word
  rw [h]
  simp only [Bool.and_eq_true, Bool.or_eq_true, decide_eq_true_eq, beq_iff_eq]
  omega

theorem EncodedWellFormed.start : EncodedWellFormed.Statement .start := rfl

theorem EncodedWellFormed.step : EncodedWellFormed.Statement .step := rfl

end Sys2Proof.Laws
end

