-- ==== Sys2Proof/Tests/Slice0.lean ====
section
/-! SUPPORT. Tests. The expected values are those of spec/95_test_vectors.md, named in each docstring, or are worked out by hand from the
rule that is named. The `test_witness_*` theorems meet the hypotheses of the statements, each on a concrete state. -/

namespace Sys2Proof.Tests

open Machine

/-! ## Ill-formed terms, one for each check of WellFormed -/

theorem test_illformed_opcode : WellFormed.word 0b00000101000000000000000000000000#32 = false := by decide
theorem test_illformed_rsv : WellFormed.word 0b00000010001000000000000001100001#32 = false := by decide
theorem test_illformed_operand : WellFormed.word 0b00000001000000000000000000000001#32 = false := by decide
theorem test_illformed_width : WellFormed.access 16 0x0C#12 = false := by decide
theorem test_illformed_offset : WellFormed.access 32 0x0E#12 = false := by decide
theorem test_illformed_hostOp :
    [HostOp.read 16 0x0C#12, .write 8 0x28#12 0#32, .poll 0x0D#12 0#32 0#32].map WellFormed.hostOp = [false, false, false] := by decide
theorem test_illformed_line : WellFormed.asmLine (.loadSym 0x200000) = false := by decide

/-! ## Decoding: words written out bit by bit, OP RSV OPERAND (R73, R75; 95_test_vectors.md section 2.1) -/

theorem test_decode_nop : decode 0b00000000_000_000000000000000000000#32 = .command .nop := by decide
theorem test_decode_clear : decode 0b00000001_000_000000000000000000000#32 = .command .clear := by decide
theorem test_decode_loadSym : decode 0b00000010_000_000000000000001100001#32 = .command (.loadSym 0x61#21) := by decide
theorem test_decode_loadSym_max : decode 0b00000010_000_111111111111111111111#32 = .command (.loadSym 0x1FFFFF#21) := by decide
theorem test_decode_start : decode 0b00000011_000_000000000000000000000#32 = .command .start := by decide
theorem test_decode_step : decode 0b00000100_000_000000000000000000000#32 = .command .step := by decide
theorem test_decode_reserved_opcode : decode 0b11111111_000_000000000000000000000#32 = .malformed .reservedOpcode := by decide
theorem test_decode_reserved_bits : decode 0b00000010_001_000000000000001100001#32 = .malformed .reservedBits := by decide
theorem test_decode_stray_operand : decode 0b00000000_000_000000000000000000001#32 = .malformed .strayOperand := by decide

/-! ## States to test on -/

/-- Reset with the given capacity, input and target, a host with `ops` to do and an interleaving written down. -/
def blockWith (cap : Nat) (input : List Symbol) (target : BitVec 3) (ops : List HostOp) (delays : List Nat) : State :=
  { State.reset with inCap := cap, input := input, target := target, agents := { Agents.none with ops := ops, delays := delays } }

/-- `n` engine steps. -/
def ran : Nat → State → State
  | 0, s => s
  | n + 1, s =>
    match engineStep s with
    | .next t => ran n t
    | .fault _ => s
    | .refused _ => s

/-- "abab" with `n` stages done of all five. -/
def abab (n : Nat) : State := ran n (blockWith 4 [0x61#21, 0x62#21, 0x61#21, 0x62#21] 5#3 [] [])

/-- "ab", whose bit string has 66 bits, with `n` stages done of all five. -/
def ab (n : Nat) : State := ran n (blockWith 4 [0x61#21, 0x62#21] 5#3 [] [])

/-- A host with something to do, and an interleaving, put to a state. -/
def withHost (ops : List HostOp) (delays : List Nat) (s : State) : State :=
  { s with agents := { Agents.none with ops := ops, delays := delays } }

/-- What a read would return after an answer that is a next state. -/
def readAfter (off : Offset) : Result → Option Word
  | .next t => some (busRead off t)
  | .fault _ => none
  | .refused _ => none

/-! ## One step of each command (95_test_vectors.md sections 2.1 and 2.2) -/

/-- "phase 5, NOP: nothing. Output still readable"; STATUS of DONE with target 5 and a full store. -/
theorem test_nop_keeps_output : readAfter 0x0C#12 (exec .nop (abab 5)) = some 0xA55#32 := by decide

/-- "phase 3, busy (target 5), CLEAR: reset values. No further stage runs". -/
theorem test_clear_while_busy : readAfter 0x0C#12 (exec .clear (abab 3)) = some 0#32 := by decide

/-- "phase 0, IN_CAP = 2, S.in = [a], LOAD_SYM 'b': accepted. IN_COUNT = 2, STATUS = 0x800". -/
theorem test_loadSym_fills : (readAfter 0x0C#12 (exec (.loadSym 0x62#21) (blockWith 2 [0x61#21] 0#3 [] [])),
    readAfter 0x18#12 (exec (.loadSym 0x62#21) (blockWith 2 [0x61#21] 0#3 [] []))) = (some 0x800#32, some 2#32) := by decide

/-- "phase 0, IN_CAP = 2, S.in = [a, b], LOAD_SYM 0xD800: BAD_SYMBOL beats INPUT_FULL". -/
theorem test_loadSym_check_order :
    readAfter 0x10#12 (exec (.loadSym 0xD800#21) (blockWith 2 [0x61#21, 0x62#21] 0#3 [] [])) = some 0x13#32 := by decide

/-- 0x0300_0000: "TARGET = 5, BUSY = 1". -/
theorem test_start : readAfter 0x0C#12 (exec .start State.reset) = some 0x150#32 := by decide

/-- "phase 2, busy (target 5), START: BUSY, ERR_CMD = 0x0300_0000". -/
theorem test_start_busy : (readAfter 0x10#12 (exec .start (abab 2)), readAfter 0x14#12 (exec .start (abab 2)))
    = (some 0x12#32, some 0x03000000#32) := by decide

/-- 0x0400_0000: "TARGET = 1, then stage 1: phase 1, STATUS = 0x011". -/
theorem test_step : (match exec .step State.reset with | .next t => readAfter 0x0C#12 (engineStep t) | _ => none) = some 0x011#32 := by
  decide

/-- "phase 5, STEP: SEQUENCE", and the output is emptied. -/
theorem test_step_done : (readAfter 0x10#12 (exec .step { abab 5 with target := 5#3 }), readAfter 0x24#12 (exec .step (abab 5)))
    = (some 0x11#32, some 0#32) := by decide

/-! ## The stages (95_test_vectors.md sections 3.1, 3.2 and 3.4) -/

/-- [U+0100, U+0100, U+0000, U+0000]: two symbols with equal low bytes are two entries (3.1). -/
theorem test_count_low_bytes : countSymbols [0x100#21, 0x100#21, 0#21, 0#21] = [⟨0x100#21, 2⟩, ⟨0#21, 2⟩] := by decide

/-- The reinsert discriminator [(a,4), (b,2), (c,2)] (3.2). -/
theorem test_reinsert_at_tail : buildTree [⟨0x61#21, 4⟩, ⟨0x62#21, 2⟩, ⟨0x63#21, 2⟩]
    = ⟨[.leaf 0x61#21 4, .leaf 0x62#21 2, .leaf 0x63#21 2, .internal 4 2 1, .internal 8 3 0], [4]⟩ := by decide

/-- The codes of [(a,4), (b,2), (c,2)]: a "1", b "01", c "00" (3.2). -/
theorem test_codes : (codesFrom [⟨0x61#21, 4⟩, ⟨0x62#21, 2⟩, ⟨0x63#21, 2⟩]
      [.leaf 0x61#21 4, .leaf 0x62#21 2, .leaf 0x63#21 2, .internal 4 2 1, .internal 8 3 0] 4).map (·.map (·.code))
    = some [[true], [false, true], [false, false]] := by decide

/-- "abab": BIT_LEN 68 and the 17 output bytes (3.4). -/
theorem test_abab : ((abab 5).bitLen, (abab 5).out.map BitVec.toNat)
    = (68#32, [0, 0, 0, 0, 0, 0, 0, 2, 0, 1, 6, 1, 0, 1, 6, 2, 10]) := by decide

/-- "ab": BIT_LENGTH from stage 5, BIT_LEN 66 kept (3.3). -/
theorem test_ab : (busRead 0x10#12 (ab 5), busRead 0x20#12 (ab 5), busRead 0x24#12 (ab 5)) = (0x502#32, 66#32, 0#32) := by decide

/-! ## Witnesses: a state and operands that meet the hypotheses of each statement, each clause at a boundary value of its range -/

/-- The invariant from its checks, for a state that has not failed. -/
theorem inv_of_checks {s : State} (h7 : s.phase ≠ 7#3) (hs : StoresAt s.phase.toNat s)
    (h : Config.legalInCap s.inCap = true ∧ s.input.length ≤ s.inCap ∧ s.input.all isScalar = true ∧ s.phase ≠ 6#3
      ∧ s.target.toNat ≤ 5 ∧ s.out = (if s.phase = 5#3 then packBits s.bits else []) ∧ s.phase.toNat ≤ s.target.toNat
      ∧ s.errCode = 0#8 ∧ s.errStage = 0#3 ∧ s.errCmd = 0#32) : Inv s :=
  ⟨h.1, h.2.1, List.all_eq_true.1 h.2.2.1, h.2.2.2.1, h.2.2.2.2.1, h.2.2.2.2.2.1, fun _ => ⟨h.2.2.2.2.2.2.1, hs, h.2.2.2.2.2.2.2⟩,
    fun hc => absurd hc h7⟩

theorem test_inv_abab0 : Inv (abab 0) := inv_of_checks (by decide) (by constructor <;> decide) (by decide)
theorem test_inv_abab1 : Inv (abab 1) := inv_of_checks (by decide) (by constructor <;> decide) (by decide)
theorem test_inv_abab2 : Inv (abab 2) := inv_of_checks (by decide) (by constructor <;> decide) (by decide)
theorem test_inv_abab3 : Inv (abab 3) := inv_of_checks (by decide) (by constructor <;> decide) (by decide)
theorem test_inv_abab4 : Inv (abab 4) := inv_of_checks (by decide) (by constructor <;> decide) (by decide)
theorem test_inv_abab5 : Inv (abab 5) := inv_of_checks (by decide) (by constructor <;> decide) (by decide)

/-- "ab" after its stage 5 has failed: phase ERROR, with the stores of stage 4. -/
theorem test_inv_ab5 : Inv (ab 5) where
  legalCap := by decide
  inputFits := by decide
  inputScalar := List.all_eq_true.1 (by decide)
  phaseHeld := by decide
  targetHeld := by decide
  output := by decide
  running h := absurd (by decide) h
  failed _ := ⟨by decide, 4, by decide, by constructor <;> decide, .inr (.inr (.inr (by decide)))⟩

/-- "abab" loaded, nothing asked for yet: phase IDLE, not busy, the store full; the host's accesses as given. -/
def loaded (ops : List HostOp) : State := blockWith 4 [0x61#21, 0x62#21, 0x61#21, 0x62#21] 0#3 ops []

theorem test_inv_loaded (ops : List HostOp) : Inv (loaded ops) :=
  inv_of_checks (by simp [loaded, blockWith, State.reset]) (by constructor <;> simp [loaded, blockWith, State.reset])
    ⟨rfl, Nat.le_refl 4, rfl, by simp [loaded, blockWith, State.reset], Nat.zero_le 5, rfl, Nat.zero_le 0, rfl, rfl, rfl⟩

theorem test_witness_DecodeEncodeRoundTrip :
    decode 0x02000000#32 = .command (.loadSym 0#21) ∧ decode 0x021FFFFF#32 = .command (.loadSym 0x1FFFFF#21) := by decide

theorem test_witness_WellFormedWordMatchesExactlyOneRow :
    rowLoadSym ∈ opcodeRows ∧ rowLoadSym.hits 0x02000000#32 = true ∧ rowLoadSym.hits 0x021FFFFF#32 = true := by decide

theorem test_witness_MalformedWordsAreRejectedByKind :
    decode 0x05000000#32 = .malformed .reservedOpcode ∧ decode 0xFFFFFFFF#32 = .malformed .reservedOpcode
      ∧ decode 0x00200000#32 = .malformed .reservedBits ∧ decode 0x04E00000#32 = .malformed .reservedBits
      ∧ decode 0x00000001#32 = .malformed .strayOperand ∧ decode 0x041FFFFF#32 = .malformed .strayOperand := by decide

theorem test_witness_BusReadReturnsTheRegister :
    0x30 ≤ (0x030#12).toNat ∧ 0x30 ≤ (0xFFC#12).toNat ∧ (0x000#12).toNat % 4 = 0 ∧ (0xFFC#12).toNat % 4 = 0 := by decide

theorem test_witness_OutDataReturnsTheIndexedByte :
    ({ abab 5 with outPtr := 16#32 }.outPtr.toNat < (abab 5).out.length ∧ (abab 5).phase = 5#3)
      ∧ ¬ ({ abab 5 with outPtr := 17#32 }.phase = 5#3 ∧ { abab 5 with outPtr := 17#32 }.outPtr.toNat < (abab 5).out.length)
      ∧ ¬ ((abab 4).phase = 5#3 ∧ (abab 4).outPtr.toNat < (abab 4).out.length) := by decide

theorem test_witness_OutDataReturnsTheIndexedByte_inv : Inv (abab 5) ∧ (abab 5).phase = 5#3 := ⟨test_inv_abab5, by decide⟩

theorem test_witness_OnlyCmdAndOutPtrWritesAct :
    0x000#12 ≠ 0x08#12 ∧ 0x000#12 ≠ 0x28#12 ∧ 0xFFC#12 ≠ 0x08#12 ∧ 0xFFC#12 ≠ 0x28#12 := by decide

theorem test_witness_OutPtrWriteSetsTheIndex :
    (0x24#12 ≠ 0x28#12 ∧ 0x24#12 ≠ 0x2C#12) ∧ (∃ t, engineStep (abab 4) = .next t)
      ∧ ∃ t, hostAccess (.write 32 0x28#12 7#32) (loaded []) = .next t ∧ t.outPtr = 7#32 := ⟨by decide, ⟨_, rfl⟩, _, rfl, by decide⟩

theorem test_witness_NopCompletes : (abab 5).phase ≠ 7#3 := by decide

/-- A read while a stage is pending, and one while none is. -/
theorem test_witness_ReadHasNoSideEffect :
    (Config.legalInCap (abab 3).inCap = true ∧ (0x24#12).toNat % 4 = 0
      ∧ hostsTurn (withHost [.read 32 0x24#12] [1] (abab 3)) (.read 32 0x24#12) [])
      ∧ hostsTurn (loaded [.read 32 0xFFC#12]) (.read 32 0xFFC#12) [] :=
  ⟨⟨by decide, by decide, rfl, by decide⟩, rfl, by decide⟩

/-- 95_test_vectors.md section 2.3: "a 16-bit read of 0x0C, or a 32-bit read at 0x0E: refused". -/
theorem test_witness_IllFormedAccessIsRefused :
    (WellFormed.hostOp (.read 16 0x0C#12) = false ∧ step (loaded [.read 16 0x0C#12]) = .refused .accessWidth)
      ∧ (WellFormed.hostOp (.read 32 0x0E#12) = false ∧ step (loaded [.read 32 0x0E#12]) = .refused .misaligned)
      ∧ WellFormed.hostOp (.write 32 0xFFC#12 5#32) = true ∧ (33 : Nat) ≠ 32 ∧ (0x001#12).toNat % 4 ≠ 0 ∧ (0xFFF#12).toNat % 4 ≠ 0 :=
  ⟨⟨by decide, rfl⟩, ⟨by decide, rfl⟩, by decide, by decide, by decide, by decide⟩

/-- The first and the last byte of a window, and the bytes on either side of it. -/
theorem test_witness_WindowSitsAtTheBase :
    Config.legalBase 0x40000000 = true ∧ windowOffset 0x40000000 0x40000000 = some 0#12 ∧ windowOffset 0x40000000 0x40000FFF = some 0xFFF#12
      ∧ windowOffset 0x40000000 0x3FFFFFFF = none ∧ windowOffset 0x40000000 0x40001000 = none := by decide

theorem test_witness_ClearCompletes : (abab 3).inCap ≠ 0 := by decide

/-- The four code points at the edges of the two ranges of R84, with one place left in the store. -/
theorem test_witness_LoadSymCompletes :
    ∀ cp ∈ [0x000000#21, 0x00D7FF#21, 0x00E000#21, 0x10FFFF#21],
      (blockWith 1 [] 0#3 [] []).phase = 0#3 ∧ busy (blockWith 1 [] 0#3 [] []) = false ∧ cp.toNat ≤ 0x10FFFF
        ∧ ¬ (0xD800 ≤ cp.toNat ∧ cp.toNat ≤ 0xDFFF) ∧ (blockWith 1 [] 0#3 [] []).input.length ≠ (blockWith 1 [] 0#3 [] []).inCap := by
  simp only [List.forall_mem_cons, List.not_mem_nil, false_implies, implies_true, and_true]
  decide

/-- The four refusals of LOAD_SYM: busy; in phase 1 and in DONE; the edges of what is no scalar value; a full store. -/
theorem test_witness_LoadSymCompletes_errors :
    ((abab 0).phase ≠ 7#3 ∧ busy (abab 0) = true)
      ∧ ({ abab 1 with target := 1#3 }.phase ≠ 7#3 ∧ busy { abab 1 with target := 1#3 } = false ∧ { abab 1 with target := 1#3 }.phase ≠ 0#3)
      ∧ ((abab 5).phase ≠ 7#3 ∧ busy (abab 5) = false ∧ (abab 5).phase ≠ 0#3)
      ∧ (State.reset.phase = 0#3 ∧ busy State.reset = false ∧ 0x10FFFF < (0x110000#21).toNat ∧ 0xD800 ≤ (0xD800#21).toNat
        ∧ (0xD800#21).toNat ≤ 0xDFFF ∧ 0xD800 ≤ (0xDFFF#21).toNat ∧ (0xDFFF#21).toNat ≤ 0xDFFF)
      ∧ ((loaded []).phase = 0#3 ∧ busy (loaded []) = false ∧ (loaded []).input.length = (loaded []).inCap) := by decide

/-- Not busy in the first phase and in the last one that START takes. -/
theorem test_witness_StartCompletes :
    (busy (loaded []) = false ∧ (loaded []).phase.toNat ≤ 4)
      ∧ (busy { abab 4 with target := 4#3 } = false ∧ { abab 4 with target := 4#3 }.phase.toNat ≤ 4) := by decide

theorem test_witness_StepCommandCompletes :
    (busy State.reset = false ∧ State.reset.phase.toNat ≤ 4)
      ∧ (busy { ab 4 with target := 4#3 } = false ∧ { ab 4 with target := 4#3 }.phase.toNat ≤ 4) := by decide

/-- START that is taken, and START in DONE, which fails. -/
theorem test_witness_CommandFrame :
    Instr.start ≠ .clear ∧ (∃ t, exec .start (loaded []) = .next t ∧ t.phase ≠ 7#3)
      ∧ (∃ t, exec .start (abab 5) = .next t ∧ t.phase = 7#3) :=
  ⟨by decide, ⟨_, rfl, by decide⟩, ⟨_, rfl, by decide⟩⟩

theorem test_witness_ErrorEntryWritesTheRecord : (ab 4).input.length ≠ (ab 4).inCap := by decide

/-- Reset while a stage is pending. -/
theorem test_witness_ResetIsClearInAnyState :
    Config.legalInCap (abab 2).inCap = true ∧ hostsTurn (withHost [.reset] [1] (abab 2)) .reset [] ∧ busy (abab 2) = true :=
  ⟨by decide, ⟨rfl, by decide⟩, by decide⟩

theorem test_witness_StepRunsTheDecodedCommand :
    Config.legalInCap (abab 2).inCap = true
      ∧ hostsTurn (withHost [.write 32 0x08#12 0x03000000#32] [1] (abab 2)) (.write 32 0x08#12 0x03000000#32) []
      ∧ decode 0x03000000#32 = .command .start :=
  ⟨by decide, ⟨rfl, by decide⟩, by decide⟩

/-- Busy and not busy. -/
theorem test_witness_PushedCommandRunsNext :
    Config.legalInCap State.reset.inCap = true ∧ Config.legalInCap (abab 2).inCap = true ∧ busy (abab 2) = true
      ∧ decodeTableWord 32 0x0210FFFF = some (.loadSym 0x10FFFF#21) := by decide

/-- A stage that commits in the last phase, and one that raises. -/
theorem test_witness_EngineStepPerformsOneStage :
    (busy (abab 4) = true ∧ (abab 4).phase.toNat ≤ 4 ∧ ∃ u, runStage ((abab 4).phase.toNat + 1) (abab 4) = .commit u)
      ∧ (busy (ab 4) = true ∧ (ab 4).phase.toNat ≤ 4 ∧ runStage ((ab 4).phase.toNat + 1) (ab 4) = .raised .bitLength) :=
  ⟨⟨by decide, by decide, ⟨_, rfl⟩⟩, by decide, by decide, by decide⟩

/-- The engine's turn with a silent host, and with a host that has to wait; and an idle block. -/
theorem test_witness_TheAgentWhoseTurnItIsMoves :
    hostsTurn (loaded [.reset]) .reset [] ∧ enginesTurn (abab 2) ∧ enginesTurn (withHost [.reset] [0] (abab 2)) ∧ idle (loaded []) :=
  ⟨⟨rfl, by decide⟩, ⟨by decide, .inl (by decide)⟩, ⟨by decide, .inr (by decide)⟩, by decide, rfl⟩

theorem test_witness_EitherAgentMayMoveFirst :
    busy (withHost [.reset] [] (abab 2)) = true ∧ (withHost [.reset] [] (abab 2)).agents.ops = [.reset] := by decide

/-- The race with the engine wholly first, and with stage 1 and with stage 5 still pending. -/
theorem test_witness_RaceAdmitsBothOutcomes :
    ∀ ds ∈ [[0, 0, 0, 0, 0], List.replicate 0 0 ++ [1], List.replicate 4 0 ++ [1]],
      blockWith 0x100000 [0x61#21] 5#3 [.write 32 0x08#12 0x03000000#32] ds
        = { State.reset with
            input := [0x61#21], target := 5#3
            agents := { (blockWith 0x100000 [0x61#21] 5#3 [.write 32 0x08#12 0x03000000#32] ds).agents with
              ops := [.write 32 0x08#12 0x03000000#32] } } := fun _ _ => rfl

/-- A stage that completes, and one whose stores no run leaves (phase 2 without a tree). -/
theorem test_witness_StagesDoNotReadOutPtr :
    (∃ t, engineStep (abab 4) = .next t) ∧ engineStep { State.reset with phase := 2#3, target := 5#3 } = .fault .noRoot :=
  ⟨⟨_, rfl⟩, rfl⟩

theorem test_witness_PendingStageIsNotPostponedForever :
    Config.legalInCap (abab 2).inCap = true ∧ busy (withHost [.read 32 0x0C#12, .reset] [2] (abab 2)) = true
      ∧ pendingDelay (withHost [.read 32 0x0C#12, .reset] [2] (abab 2)) = 2 := by decide

theorem test_witness_EngineSettlesWithinFiveSteps :
    Inv (abab 0) ∧ busy (abab 0) = true ∧ (abab 0).agents.ops = [] := ⟨test_inv_abab0, by decide, by decide⟩

theorem test_witness_FiveStepsEndLikeOneStart :
    Inv (loaded []) ∧ (loaded []).phase = 0#3 ∧ busy (loaded []) = false := ⟨test_inv_loaded [], rfl, by decide⟩

theorem test_witness_CountBuildsTheFrequencyTable : (abab 0).phase = 0#3 := by decide

/-- A list of two equal and one greater key, sorted. -/
theorem test_witness_StableSortIsTheOnlyOne :
    [2, 0, 1].Pairwise (fun a b => ([1, 1, 5].getD b 0) ≤ ([1, 1, 5].getD a 0))
      ∧ ∀ v, [2, 0, 1].filter (fun a => [1, 1, 5].getD a 0 == v) = [0, 1, 2].filter (fun a => [1, 1, 5].getD a 0 == v) := by
  refine ⟨by decide, fun v => ?_⟩
  by_cases h1 : v = 1
  · subst h1; rfl
  · by_cases h5 : v = 5
    · subst h5; rfl
    · simp [List.filter, show (1 == v) = false from beq_false_of_ne (Ne.symm h1),
        show (5 == v) = false from beq_false_of_ne (Ne.symm h5)]

/-- Two equal nodes, the fewest that a round takes; z is x itself, then y. -/
theorem test_witness_MergeRoundTakesTheTwoLightest :
    2 ≤ (leafForest (abab 1).freq).work.length ∧ (leafForest (abab 1).freq).work.Nodup ∧ 1 ∈ (leafForest (abab 1).freq).work
      ∧ 0 ∈ (leafForest (abab 1).freq).work ∧ freqAt (leafForest (abab 1).freq).nodes 0 = freqAt (leafForest (abab 1).freq).nodes 1 := by
  decide

/-- The table of "abab": slots 0 and 1, the one internal node 2, its children 0 and 1. -/
theorem test_witness_BuildTreeShape :
    (abab 1).freq ≠ [] ∧ 1 < (abab 1).freq.length ∧ (abab 1).freq.length ≤ 2 ∧ 2 < 2 * (abab 1).freq.length - 1
      ∧ 1 < 2 * (abab 1).freq.length - 2 ∧ 2 ≤ (leafForest (abab 1).freq).work.length ∧ (abab 1).input ≠ [] := by decide

theorem test_witness_BuildTreeStageEffect :
    ((abab 1).phase = 1#3 ∧ (abab 1).freq ≠ [])
      ∧ ((ran 1 (blockWith 4 [] 5#3 [] [])).phase = 1#3 ∧ (ran 1 (blockWith 4 [] 5#3 [] [])).freq = []) := by decide

/-- An input with two slots, of which 1 is the last; and a state in phase 2. -/
theorem test_witness_EveryInputHasACodeTable :
    (abab 0).input ≠ [] ∧ (∃ codes, jobCodes (abab 0).input = some codes ∧ 1 < codes.length) ∧ Inv (abab 2) ∧ (abab 2).phase = 2#3 :=
  ⟨by decide, ⟨_, rfl, by decide⟩, test_inv_abab2, by decide⟩

/-- A table of one symbol and a table of two. -/
theorem test_witness_OnlyTheSingleSymbolCodeIsEmpty :
    (∃ codes, jobCodes [0x61#21] = some codes ∧ codes.length = 1)
      ∧ ∃ codes, jobCodes [0x61#21, 0x62#21] = some codes ∧ 2 ≤ codes.length :=
  ⟨⟨_, rfl, by decide⟩, _, rfl, by decide⟩

theorem test_witness_CodeTableIsAFullPrefixCode : ∃ codes, jobCodes [0x61#21, 0x62#21] = some codes := ⟨_, rfl⟩

/-- Two codes of unequal lengths beside the two of the table. -/
theorem test_witness_CodeTableIsOptimal :
    ∃ codes, jobCodes [0x61#21, 0x62#21] = some codes ∧ [[false], [true, true]].length = codes.length
      ∧ prefixFree [[false], [true, true]] := ⟨_, rfl, by decide, by unfold prefixFree; decide⟩

/-- The code table of "abab"; its first and last entry. -/
theorem test_witness_BitStringLayout :
    (abab 3).codes.length < 2 ^ 32 ∧ (∀ e ∈ (abab 3).codes, e.code.length ≤ 255)
      ∧ (∃ body, bodyBits (abab 3).codes (abab 3).input = some body) ∧ 0 < (abab 3).codes.length ∧ 1 < (abab 3).codes.length :=
  ⟨by decide, by decide, ⟨_, rfl⟩, by decide, by decide⟩

theorem test_witness_BitStringLength :
    ∃ codes bits, jobCodes [0x61#21, 0x62#21] = some codes ∧ jobBits [0x61#21, 0x62#21] = some bits := ⟨_, _, rfl, rfl⟩

theorem test_witness_SerializeStageCompletes : Inv (abab 3) ∧ (abab 3).phase = 3#3 := ⟨test_inv_abab3, by decide⟩

/-- The first and the last byte of "abab". -/
theorem test_witness_PackMakesOneBytePerFourBits : 4 * 0 + 3 < (abab 4).bits.length ∧ 4 * 16 + 3 < (abab 4).bits.length := by decide

theorem test_witness_PackSucceedsExactlyOnMultiplesOfFour :
    ((abab 4).phase = 4#3 ∧ (abab 4).bits.length % 4 = 0) ∧ ((ab 4).phase = 4#3 ∧ (ab 4).bits.length % 4 ≠ 0) := by decide

theorem test_witness_PackSucceedsExactlyOnMultiplesOfFour_inv : Inv (abab 4) ∧ (abab 4).phase = 4#3 := ⟨test_inv_abab4, by decide⟩

/-- A step of the engine from a state that meets the invariant. -/
theorem test_witness_StepKeepsTheInvariant : Inv (abab 4) ∧ ∃ t, step (abab 4) = .next t ∧ t.phase = 5#3 :=
  ⟨test_inv_abab4, _, rfl, by decide⟩

theorem test_witness_NoStepFaults : Inv (abab 2) ∧ enginesTurn (abab 2) := ⟨test_inv_abab2, by decide, .inl (by decide)⟩

theorem test_witness_LengthOverflowIsUnreachable : Inv (abab 3) ∧ (abab 3).phase = 3#3 := ⟨test_inv_abab3, by decide⟩

/-- In phase 2, where the arena is of use, in phase 5, and in phase ERROR. -/
theorem test_witness_StoresStayWithinCapacity :
    (Inv (abab 2) ∧ (abab 2).codes = [] ∧ (abab 2).nodes ≠ []) ∧ (Inv (abab 5) ∧ (abab 5).codes ≠ [] ∧ (abab 5).out ≠ [])
      ∧ Inv (ab 5) ∧ (ab 5).phase = 7#3 ∧ (ab 5).bits ≠ [] :=
  ⟨⟨test_inv_abab2, by decide, by decide⟩, ⟨test_inv_abab5, by decide, by decide⟩, test_inv_ab5, by decide, by decide⟩

/-- A stage that succeeds, one that fails, and a CLEAR. -/
theorem test_witness_OnlyStagesErrorsAndClearMoveThePhase :
    (∃ t, step (abab 4) = .next t ∧ t.phase = 5#3) ∧ (∃ t, step (ab 4) = .next t ∧ t.phase = 7#3)
      ∧ ∃ t, step (withHost [.write 32 0x08#12 0x01000000#32] [] (abab 5)) = .next t ∧ t.phase = 0#3 :=
  ⟨⟨_, rfl, by decide⟩, ⟨_, rfl, by decide⟩, _, rfl, by decide⟩

/-- A LOAD_SYM that is taken, and a write of OUT_PTR. -/
theorem test_witness_OnlyLoadSymExtendsTheInput :
    (∃ t, step (blockWith 1 [] 0#3 [.write 32 0x08#12 0x02000061#32] []) = .next t ∧ t.input = [0x61#21])
      ∧ ∃ t, step (loaded [.write 32 0x28#12 0xFFFFFFFF#32]) = .next t ∧ t.outPtr = 0xFFFFFFFF#32 :=
  ⟨⟨_, rfl, by decide⟩, _, rfl, by decide⟩

/-- A failed job that is told to START, and one that is cleared. -/
theorem test_witness_ErrorPhaseIsSticky :
    (ab 5).phase = 7#3 ∧ (∃ t, hostAccess (.write 32 0x08#12 0x03000000#32) (ab 5) = .next t ∧ t.phase = 7#3)
      ∧ (∃ t, hostAccess (.write 32 0x08#12 0x01000000#32) (ab 5) = .next t ∧ t.phase = 0#3) ∧ (0xFFC#12).toNat % 4 = 0 :=
  ⟨by decide, ⟨_, rfl, by decide⟩, ⟨_, rfl, by decide⟩, by decide⟩

/-- "abab", whose length of 68 bits is a multiple of 4, and "ab", whose length of 66 is not. -/
theorem test_witness_JobResultDependsOnTheInputAlone :
    (Inv (loaded [.write 32 0x08#12 0x03000000#32]) ∧ (loaded [.write 32 0x08#12 0x03000000#32]).phase = 0#3
      ∧ busy (loaded [.write 32 0x08#12 0x03000000#32]) = false ∧ (loaded [.write 32 0x08#12 0x03000000#32]).input ≠ []
      ∧ (loaded [.write 32 0x08#12 0x03000000#32]).agents.ops = [.write 32 0x08#12 0x03000000#32]
      ∧ (jobBits (loaded []).input).map List.length = some 68)
      ∧ (jobBits [0x61#21, 0x62#21]).map List.length = some 66 :=
  ⟨⟨test_inv_loaded _, rfl, by decide, by decide, rfl, by decide⟩, by decide⟩

/-- The text "aé" into a store with just that much room. -/
theorem test_witness_LoadStrLoadsTheText :
    Config.legalInCap (blockWith 2 [] 0#3 (loadStrOps ['a', 'é']) []).inCap = true
      ∧ (blockWith 2 [] 0#3 (loadStrOps ['a', 'é']) []).phase = 0#3 ∧ busy (blockWith 2 [] 0#3 (loadStrOps ['a', 'é']) []) = false
      ∧ (blockWith 2 [] 0#3 (loadStrOps ['a', 'é']) []).input.length + ['a', 'é'].length ≤ (blockWith 2 [] 0#3 (loadStrOps ['a', 'é']) []).inCap
      ∧ (blockWith 2 [] 0#3 (loadStrOps ['a', 'é']) []).agents.ops = loadStrOps ['a', 'é'] ++ [] := by decide

/-- All 17 bytes of "abab", the most there are. -/
theorem test_witness_ReadOutReadsTheOutput :
    Config.legalInCap (abab 5).inCap = true ∧ (withHost (readOutOps 17) [] (abab 5)).phase = 5#3
      ∧ busy (withHost (readOutOps 17) [] (abab 5)) = false ∧ 17 ≤ (abab 5).out.length ∧ (abab 5).out.length < 2 ^ 32
      ∧ (withHost (readOutOps 17) [] (abab 5)).agents.ops = readOutOps 17 ++ [] :=
  ⟨by decide, by decide, by decide, by decide, by decide, rfl⟩

/-- A line that is taken at the largest value that fits, and one that is refused at the next. -/
theorem test_witness_AssemblerRefusesOnlyOversizedSymbols :
    (assemble (.loadSym 0x1FFFFF) = some [.write 32 0x08#12 0x021FFFFF#32] ∧ assemble (.loadSym 0x200000) = none)
      ∧ assemble (.readOut 1) = some [.write 32 0x28#12 0#32, .read 32 0x2C#12] := by decide

/-- A POLL of IN_COUNT for 4 where it reads 4, and of the last offset of the window for a value that it does not read; WAIT while a stage
is pending, and WAIT when none is. -/
theorem test_witness_WaitEndsWhenNotBusy :
    (hostsTurn (loaded [.poll 0x18#12 0xFF#32 4#32]) (.poll 0x18#12 0xFF#32 4#32) []
        ∧ busRead 0x18#12 (loaded [.poll 0x18#12 0xFF#32 4#32]) &&& 0xFF#32 = 4#32)
      ∧ (hostsTurn (loaded [.poll 0xFFC#12 1#32 1#32]) (.poll 0xFFC#12 1#32 1#32) []
        ∧ busRead 0xFFC#12 (loaded [.poll 0xFFC#12 1#32 1#32]) &&& 1#32 ≠ 1#32)
      ∧ Config.legalInCap (abab 2).inCap = true ∧ (hostsTurn (withHost [waitOp] [1] (abab 2)) waitOp [] ∧ busy (abab 2) = true)
      ∧ hostsTurn (loaded [waitOp]) waitOp [] ∧ busy (loaded [waitOp]) = false :=
  ⟨⟨⟨rfl, by decide⟩, by decide⟩, ⟨⟨rfl, by decide⟩, by decide⟩, by decide, ⟨⟨rfl, by decide⟩, by decide⟩, ⟨rfl, by decide⟩, by decide⟩

/-- A pending stage and a reset: either may come first; after the reset the engine has no step, so an order that asks for one is none. -/
theorem test_witness_RunsAreTheInterleavings :
    Config.legalInCap (withHost [.reset] [] (abab 4)).inCap = true
      ∧ (∃ t, runMoves [.host] (withHost [.reset] [] (abab 4)) = some (.next t) ∧ t.phase = 0#3)
      ∧ (∃ t, runMoves [.engine, .host] (withHost [.reset] [] (abab 4)) = some (.next t) ∧ t.phase = 0#3)
      ∧ runMoves [.host, .engine] (withHost [.reset] [] (abab 4)) = none :=
  ⟨by decide, ⟨_, rfl, by decide⟩, ⟨_, rfl, by decide⟩, rfl⟩

end Sys2Proof.Tests
end

section
/-! The uniqueness claim of R18: a descending list is fixed by the sequences of its elements of each key. -/

namespace Sys2Proof.Machine

variable {key : Nat → Nat} {l l' : List Nat}

/-- The sequence that `l` keeps for the key of `a` decides whether `a` is in `l`. -/
theorem mem_iff_of_keyFilters_eq
    (h : ∀ v, l.filter (fun a => key a == v) = l'.filter (fun a => key a == v)) (a : Nat) : a ∈ l ↔ a ∈ l' := by
  have hmem : a ∈ l.filter (fun b => key b == key a) ↔ a ∈ l'.filter (fun b => key b == key a) := by rw [h]
  simpa using hmem

/-- The head of a descending list has the greatest key in it. -/
theorem key_le_head {a b : Nat} (hl : (a :: l).Pairwise fun a b => key b ≤ key a) (hb : b ∈ a :: l) : key b ≤ key a := by
  rcases List.mem_cons.1 hb with rfl | hb
  · exact le_rfl
  · exact List.rel_of_pairwise_cons hl hb

/-- The heads of the two lists have the same, greatest, key, so both are the first of that key's sequence. -/
theorem descending_eq_of_keyFilters_eq (hl : l.Pairwise fun a b => key b ≤ key a) (hl' : l'.Pairwise fun a b => key b ≤ key a)
    (h : ∀ v, l.filter (fun a => key a == v) = l'.filter (fun a => key a == v)) : l = l' := by
  induction l generalizing l' with
  | nil => exact (List.eq_nil_iff_forall_not_mem.2 fun a ha => by simpa using (mem_iff_of_keyFilters_eq h a).2 ha).symm
  | cons a l ih =>
    cases l' with
    | nil => simpa using mem_iff_of_keyFilters_eq h a
    | cons b l' =>
      have hmem := mem_iff_of_keyFilters_eq h
      have hkey : key b = key a :=
        le_antisymm (key_le_head hl ((hmem b).2 List.mem_cons_self)) (key_le_head hl' ((hmem a).1 List.mem_cons_self))
      obtain rfl : a = b := by
        have hhead := h (key a)
        rw [List.filter_cons_of_pos (by simp), List.filter_cons_of_pos (by simpa using hkey)] at hhead
        exact (List.cons.inj hhead).1
      have htails (v : Nat) : l.filter (fun a => key a == v) = l'.filter (fun a => key a == v) := by
        have hv := h v
        rw [List.filter_cons, List.filter_cons] at hv
        split at hv
        · exact (List.cons.inj hv).2
        · exact hv
      rw [ih hl.of_cons hl'.of_cons htails]

end Sys2Proof.Machine

namespace Sys2Proof.Proofs

open Machine

/-- Settles O34: the sort has both properties of R18, and a descending list is fixed by what it keeps for each key. -/
theorem stableSortIsTheOnlyOne : Obligations.StableSortIsTheOnlyOne := by
  unfold Obligations.StableSortIsTheOnlyOne
  exact fun key l => ⟨stableSortDesc_perm key l, stableSortDesc_sorted key l, fun v => stableSortDesc_filter key v l,
    fun _ hsorted hkeeps => descending_eq_of_keyFilters_eq hsorted (stableSortDesc_sorted key l)
      fun v => (hkeeps v).trans (stableSortDesc_filter key v l).symm⟩

end Sys2Proof.Proofs
end

section
/-! The OUT_DATA word (R34): its fields, and why a byte of the Byte Packer leaves bits [7:4] zero (R117). -/

namespace Sys2Proof.Machine

variable {s : State}

/-- A valid read as a number: bit 31 stands above every bit of the byte. -/
theorem validByte_toNat (b : Byte) : (0x80000000#32 ||| b.setWidth 32).toNat = 2 ^ 31 + b.toNat := by
  have hb : b.toNat < 2 ^ 8 := b.isLt
  rw [BitVec.toNat_or, BitVec.toNat_setWidth_of_le (by decide)]
  exact (Nat.two_pow_add_eq_or_of_lt (i := 31) (by omega) 1).symm

theorem validByte_middle_bits (b : Byte) : (0x80000000#32 ||| b.setWidth 32).extractLsb' 8 23 = 0#23 := by
  have hb : b.toNat < 2 ^ 8 := b.isLt
  apply BitVec.eq_of_toNat_eq
  rw [BitVec.extractLsb'_toNat, validByte_toNat, Nat.shiftRight_eq_div_pow, BitVec.toNat_ofNat]
  omega

theorem validByte_high_nibble {b : Byte} (hb : b.toNat ≤ 15) : (0x80000000#32 ||| b.setWidth 32).extractLsb' 4 4 = 0#4 := by
  apply BitVec.eq_of_toNat_eq
  rw [BitVec.extractLsb'_toNat, validByte_toNat, Nat.shiftRight_eq_div_pow, BitVec.toNat_ofNat]
  omega

theorem outDataWord_of_inRange (hp : s.phase = 5#3) (h : s.outPtr.toNat < s.out.length) :
    outDataWord s = 0x80000000#32 ||| (s.out[s.outPtr.toNat]).setWidth 32 := by
  simp [outDataWord, hp, h]

theorem outDataWord_eq_zero (h : ¬ (s.phase = 5#3 ∧ s.outPtr.toNat < s.out.length)) : outDataWord s = 0#32 := by
  by_cases hp : s.phase = 5#3
  · have hout : s.out.length ≤ s.outPtr.toNat := by simpa [hp] using h
    simp [outDataWord, hp, hout]
  · simp [outDataWord, hp]

/-- What every field of OUT_DATA is shown from: the word is 0, or it is valid with a byte of the output, in phase DONE. -/
theorem outDataWord_cases (s : State) :
    outDataWord s = 0#32 ∨ s.phase = 5#3 ∧ ∃ b ∈ s.out, outDataWord s = 0x80000000#32 ||| b.setWidth 32 := by
  by_cases h : s.phase = 5#3 ∧ s.outPtr.toNat < s.out.length
  · obtain ⟨hp, hi⟩ := h
    exact .inr ⟨hp, _, List.getElem_mem hi, outDataWord_of_inRange hp hi⟩
  · exact .inl (outDataWord_eq_zero h)

theorem numOf_lt_two_pow (l : List Bool) : numOf l < 2 ^ l.length := by
  induction l using List.reverseRecOn with
  | nil => decide
  | append_singleton l x ih =>
    have hx : numOf [x] ≤ 1 := by cases x <;> decide
    rw [numOf_append, List.length_append, List.length_singleton, pow_succ]
    omega

/-- R117: a byte of the Byte Packer is the value of four bits. -/
theorem packBits_byte_le (bits : List Bool) : ∀ b ∈ packBits bits, b.toNat ≤ 15 := by
  induction bits using packBits.induct with
  | case1 a b c d rest ih =>
    have hn : numOf [a, b, c, d] < 2 ^ 4 := numOf_lt_two_pow [a, b, c, d]
    have hhead : (BitVec.ofNat 8 (numOf [a, b, c, d])).toNat ≤ 15 := by rw [BitVec.toNat_ofNat]; omega
    rw [packBits]
    exact List.forall_mem_cons.2 ⟨hhead, ih⟩
  | case2 bits hshort => simp [packBits]

/-- In a state that meets the invariant every output byte in phase DONE is one of the Byte Packer's. -/
theorem Inv.out_byte_le (hi : Inv s) (hp : s.phase = 5#3) : ∀ b ∈ s.out, b.toNat ≤ 15 := by
  rw [hi.output, if_pos hp]
  exact packBits_byte_le s.bits

end Sys2Proof.Machine
end

section
/-! What can change OUT_PTR (R33), and which registers show it. -/

namespace Sys2Proof.Machine

variable {s t : State}

theorem readReg_outPtr_update (v : Word) {r : Reg} (hptr : r ≠ .outPtr) (hdata : r ≠ .outData) :
    readReg r { s with outPtr := v } = readReg r s := by
  cases r with
  | outPtr => exact absurd rfl hptr
  | outData => exact absurd rfl hdata
  | _ => rfl

theorem busRead_outPtr_update (v : Word) {off : Offset} (hptr : off ≠ 0x28#12) (hdata : off ≠ 0x2C#12) :
    busRead off { s with outPtr := v } = busRead off s := by
  unfold busRead
  split
  · rename_i r hr
    have ho := regOffset_of_regAt hr
    exact readReg_outPtr_update v (fun h => hptr (by rw [ho, h]; rfl)) (fun h => hdata (by rw [ho, h]; rfl))
  · rfl

/-- The cause of what a host access does, whosever turn it is. -/
theorem hostAccess_cause {op : HostOp} (h : hostAccess op s = .next t) : HostCause s op t := by
  cases op with
  | read width off =>
    obtain ⟨-, -, h⟩ := checkedAccess_next h
    cases h; exact .idle _
  | write width off v =>
    obtain ⟨rfl, -, h⟩ := checkedAccess_next h
    unfold busWrite at h
    split at h
    · rename_i hcmd
      exact command_cause (a := s.agents) (by rw [regOffset_of_regAt hcmd]; rfl) h
    · rename_i hptr
      cases h; exact .outPtr s.agents v (by rw [regOffset_of_regAt hptr]; rfl)
    · cases h; exact .idle s.agents
  | poll off mask val =>
    obtain ⟨-, -, h⟩ := checkedAccess_next h
    unfold pollOnce at h
    split at h
    · cases h; exact .idle _
    · cases h; exact .idle _
  | reset => cases h; exact .clear s.agents (.inl rfl)

theorem eq_of_decode_clear {w : Word} (h : decode w = .command .clear) : w = 0x01000000#32 := by
  rw [decode_eq] at h
  split_ifs at h with hnop hclear
  · cases h
  · exact BitVec.eq_of_toNat_eq hclear
  all_goals cases h

/-- R33: what the host did, when OUT_PTR is another value after it. -/
theorem HostCause.outPtr_cases {op : HostOp} (h : HostCause s op t) :
    t.outPtr = s.outPtr ∨ op = .write 32 0x28#12 t.outPtr ∨ op = .write 32 0x08#12 0x01000000#32 ∨ op = .reset := by
  cases h with
  | clear a hc =>
    rcases hc with hreset | ⟨w, hw, hd⟩
    · exact .inr (.inr (.inr hreset))
    · exact .inr (.inr (.inl (by rw [hw, eq_of_decode_clear hd])))
  | outPtr a v ho => exact .inr (.inl ho)
  | idle | error | load | target => exact .inl rfl

end Sys2Proof.Machine

namespace Sys2Proof.Proofs

open Machine

/-- Settles O7: OUT_DATA is 0 or a valid byte of the output, and under the invariant that byte is below 16. -/
theorem outDataReturnsTheIndexedByte : Obligations.OutDataReturnsTheIndexedByte := by
  unfold Obligations.OutDataReturnsTheIndexedByte
  intro s
  have hread : busRead 0x2C#12 s = outDataWord s := rfl
  rw [hread]
  refine ⟨fun hi hp => outDataWord_of_inRange hp hi, outDataWord_eq_zero, ?_, fun hinv => ?_, fun v => rfl⟩
  · rcases outDataWord_cases s with h | ⟨-, b, -, h⟩
    · rw [h]; rfl
    · rw [h, validByte_middle_bits]
  · rcases outDataWord_cases s with h | ⟨hp, b, hb, h⟩
    · rw [h]; rfl
    · rw [h, validByte_high_nibble (hinv.out_byte_le hp b hb)]

/-- Settles O9: only two registers show OUT_PTR, no stage writes it, and of the causes of a host access three change it. -/
theorem outPtrWriteSetsTheIndex : Obligations.OutPtrWriteSetsTheIndex := by
  unfold Obligations.OutPtrWriteSetsTheIndex
  intro v s
  refine ⟨rfl, rfl, fun off => busRead_outPtr_update v, fun t h => ?_, fun op t h => (hostAccess_cause h).outPtr_cases⟩
  obtain ⟨-, hptr, -, -⟩ := engineStep_keeps h
  exact hptr

/-- Settles O21: the reset state is a closed record, and so is every register word read from it. -/
theorem resetRegisterValues : Obligations.ResetRegisterValues := by
  unfold Obligations.ResetRegisterValues
  decide

end Sys2Proof.Proofs
end

section
/-! Which host accesses have a step (R56): the check in front of an access agrees with its well-formedness, and behind the check
every access completes. -/

namespace Sys2Proof.Machine

variable {s : State} {width : Nat} {off : Offset} {act : Result} {op : HostOp}

theorem wellFormed_access_iff : WellFormed.access width off = true ↔ width = 32 ∧ off.toNat % 4 = 0 := by
  simp [WellFormed.access]

theorem checkedAccess_wrongWidth (h : width ≠ 32) : checkedAccess width off act = .refused .accessWidth := if_pos h

theorem checkedAccess_misaligned (h : off.toNat % 4 ≠ 0) : checkedAccess 32 off act = .refused .misaligned := by
  simp [checkedAccess, h]

theorem checkedAccess_of_wellFormed (h : WellFormed.access width off = true) : checkedAccess width off act = act := by
  obtain ⟨rfl, hoff⟩ := wellFormed_access_iff.1 h
  simp [checkedAccess, hoff]

theorem checkedAccess_of_illFormed (h : WellFormed.access width off = false) :
    checkedAccess width off act = .refused .accessWidth ∨ checkedAccess width off act = .refused .misaligned := by
  by_cases hw : width = 32
  · subst hw
    have hoff : off.toNat % 4 ≠ 0 := fun hoff => by simp [wellFormed_access_iff.2 ⟨rfl, hoff⟩] at h
    exact .inr (checkedAccess_misaligned hoff)
  · exact .inl (checkedAccess_wrongWidth hw)

theorem busWrite_completes (off : Offset) (v : Word) (s : State) : ∃ t, busWrite off v s = .next t := by
  rcases busWrite_effect off v s with ⟨t, -, h, -⟩ | ⟨-, h⟩
  · exact ⟨t, h⟩
  · exact ⟨_, h⟩

theorem pollOnce_completes (off : Offset) (mask val : Word) (s : State) : ∃ t, pollOnce off mask val s = .next t := by
  unfold pollOnce
  split
  · exact ⟨_, rfl⟩
  · exact ⟨_, rfl⟩

theorem hostAccess_of_wellFormed (h : WellFormed.hostOp op = true) : ∃ t, hostAccess op s = .next t := by
  cases op with
  | read width off => exact ⟨_, checkedAccess_of_wellFormed h⟩
  | write width off v =>
    obtain ⟨t, ht⟩ := busWrite_completes off v s
    exact ⟨t, (checkedAccess_of_wellFormed h).trans ht⟩
  | poll off mask val =>
    obtain ⟨t, ht⟩ := pollOnce_completes off mask val s
    exact ⟨t, (checkedAccess_of_wellFormed h).trans ht⟩
  | reset => exact ⟨_, rfl⟩

theorem hostAccess_of_illFormed (h : WellFormed.hostOp op = false) :
    hostAccess op s = .refused .accessWidth ∨ hostAccess op s = .refused .misaligned := by
  cases op with
  | read width off => exact checkedAccess_of_illFormed h
  | write width off v => exact checkedAccess_of_illFormed h
  | poll off mask val => exact checkedAccess_of_illFormed h
  | reset => cases h

theorem wellFormed_of_hostAccess_next {t : State} (h : hostAccess op s = .next t) : WellFormed.hostOp op = true := by
  by_contra hop
  rcases hostAccess_of_illFormed (s := s) (Bool.eq_false_of_not_eq_true hop) with h' | h' <;> cases h'.symm.trans h

theorem illFormed_of_hostAccess_refused {r : Refusal} (h : hostAccess op s = .refused r) : WellFormed.hostOp op = false := by
  by_contra hop
  obtain ⟨t, ht⟩ := hostAccess_of_wellFormed (s := s) (Bool.eq_true_of_not_eq_false hop)
  cases ht.symm.trans h

end Sys2Proof.Machine

namespace Sys2Proof.Proofs

open Machine

/-- Settles O11: an ill-formed access is refused and a well-formed one completes, and no outcome is both. -/
theorem illFormedAccessIsRefused : Obligations.IllFormedAccessIsRefused := by
  unfold Obligations.IllFormedAccessIsRefused
  intro s op
  exact ⟨⟨hostAccess_of_illFormed, fun h => h.elim illFormed_of_hostAccess_refused illFormed_of_hostAccess_refused⟩,
    ⟨hostAccess_of_wellFormed, fun ⟨_, h⟩ => wellFormed_of_hostAccess_next h⟩,
    fun _ _ => checkedAccess_wrongWidth, fun _ _ _ => checkedAccess_wrongWidth,
    fun _ => checkedAccess_misaligned, fun _ _ => checkedAccess_misaligned⟩

end Sys2Proof.Proofs
end

section
/-! The register window (R87, R88): what STATUS and the unmapped offsets read, which registers show the input, and which writes act. -/

namespace Sys2Proof.Machine

variable {s t : State} {off : Offset}

/-- The STATUS word of R87 with `busy()` written out (R39). -/
theorem statusWord_eq (s : State) :
    statusWord s = (s.phase.setWidth 32 ||| s.target.setWidth 32 <<< 4
      ||| (if s.phase ≠ 7#3 ∧ s.phase.toNat < s.target.toNat then 0x100#32 else 0#32)
      ||| (if s.phase = 5#3 then 0x200#32 else 0#32) ||| (if s.phase = 7#3 then 0x400#32 else 0#32)
      ||| (if s.input.length = s.inCap then 0x800#32 else 0#32)) := by
  simp [statusWord, flagAt, busy_iff, doneFlag, errFlag, inFull]

theorem outDataWord_eq (s : State) :
    outDataWord s = if s.phase = 5#3 ∧ s.outPtr.toNat < s.out.length then
      0x80000000#32 ||| (s.out.getD s.outPtr.toNat 0#8).setWidth 32 else 0#32 := by
  split
  · rename_i h
    obtain ⟨hp, hi⟩ := h
    rw [outDataWord_of_inRange hp hi, List.getD_eq_getElem _ _ hi]
  · rename_i h
    exact outDataWord_eq_zero h

/-- No register stands at or above 0x30 (R57). -/
theorem busRead_unmapped (h : 0x30 ≤ off.toNat) (s : State) : busRead off s = 0#32 := by
  cases hr : regAt off with
  | none => simp [busRead, hr]
  | some r =>
    have hlt : (regOffset r).toNat < 0x30 := by cases r <;> decide
    rw [regOffset_of_regAt hr] at h
    omega

theorem hostAccess_read (h : off.toNat % 4 = 0) (s : State) : hostAccess (.read 32 off) s = .next (bindVar (busRead off s) s) :=
  checkedAccess_of_wellFormed (wellFormed_access_iff.2 ⟨rfl, h⟩)

theorem busRead_of_readReg (h : ∀ r, off = regOffset r → readReg r t = readReg r s) : busRead off t = busRead off s := by
  cases hr : regAt off with
  | none => simp [busRead, hr]
  | some r => simpa [busRead, hr] using h r (regOffset_of_regAt hr)

theorem busRead_input_update (l : List Symbol) (hstatus : off ≠ 0x0C#12) (hcount : off ≠ 0x18#12) :
    busRead off { s with input := l } = busRead off s := by
  refine busRead_of_readReg fun r hr => ?_
  cases r with
  | status => exact absurd hr hstatus
  | inCount => exact absurd hr hcount
  | _ => rfl

theorem inCount_concat (cp : Symbol) : busRead 0x18#12 { s with input := s.input ++ [cp] } = busRead 0x18#12 s + 1#32 := by
  have hcount (t : State) : busRead 0x18#12 t = BitVec.ofNat 32 t.input.length := rfl
  rw [hcount, hcount, List.length_append, List.length_singleton, BitVec.ofNat_add]

theorem busRead_status_clearJob (hcap : s.inCap ≠ 0) : busRead 0x0C#12 (clearJob s) = 0#32 := by
  have hstatus : busRead 0x0C#12 (clearJob s) = statusWord (clearJob s) := rfl
  rw [hstatus, statusWord_eq]
  simp [hcap.symm]

theorem busWrite_ignored (hcmd : off ≠ 0x08#12) (hptr : off ≠ 0x28#12) (v : Word) (s : State) : busWrite off v s = .next s := by
  unfold busWrite
  split
  · rename_i hr
    exact absurd (regOffset_of_regAt hr) hcmd
  · rename_i hr
    exact absurd (regOffset_of_regAt hr) hptr
  · rfl

end Sys2Proof.Machine

namespace Sys2Proof.Proofs

open Machine

/-- Settles O5: the mapped offsets read as `readReg` says, the others 0, and an aligned read binds its value. -/
theorem busReadReturnsTheRegister : Obligations.BusReadReturnsTheRegister := by
  unfold Obligations.BusReadReturnsTheRegister
  intro s
  exact ⟨rfl, rfl, rfl, statusWord_eq s, rfl, rfl, rfl, rfl, rfl, rfl, rfl, outDataWord_eq s, fun off h => busRead_unmapped h s,
    fun off h => ⟨_, hostAccess_read h s, rfl, rfl⟩⟩

/-- Settles O8: the two offsets that act are those of CMD and OUT_PTR. -/
theorem onlyCmdAndOutPtrWritesAct : Obligations.OnlyCmdAndOutPtrWritesAct := by
  unfold Obligations.OnlyCmdAndOutPtrWritesAct
  exact fun off v s => ⟨fun hcmd hptr => busWrite_ignored hcmd hptr v s, rfl, rfl⟩

end Sys2Proof.Proofs
end

section
/-! The encoder and the decoder are inverse to each other on the commands (R73 to R77), so a word written to CMD is malformed or the
word of one command (R81). -/

namespace Sys2Proof

theorem operandField_encode_loadSym (cp : Symbol) : operandField (encode (.loadSym cp)) = cp := by
  have hcp : cp.toNat < 2 ^ 21 := cp.isLt
  apply BitVec.eq_of_toNat_eq
  rw [operandField_toNat, encode_loadSym_toNat]
  omega

/-- OP of each command (R75). -/
def opCode : Instr → BitVec 8
  | .nop => 0x00#8
  | .clear => 0x01#8
  | .loadSym _ => 0x02#8
  | .start => 0x03#8
  | .step => 0x04#8

theorem opField_encode (i : Instr) : opField (encode i) = opCode i := by
  cases i with
  | loadSym cp =>
    have hcp : cp.toNat < 2 ^ 21 := cp.isLt
    apply BitVec.eq_of_toNat_eq
    rw [opField_toNat, encode_loadSym_toNat, opCode, BitVec.toNat_ofNat]
    omega
  | nop | clear | start | step => rfl

theorem decode_encode (i : Instr) : decode (encode i) = .command i := by
  cases i with
  | loadSym cp =>
    have hcp : cp.toNat < 2 ^ 21 := cp.isLt
    rw [decode_eq, operandField_encode_loadSym, encode_loadSym_toNat, if_neg (by omega), if_neg (by omega), if_pos (by omega)]
  | nop | clear | start | step => rfl

theorem encode_injective : Function.Injective encode := fun i j h => by
  have hd : decode (encode i) = decode (encode j) := by rw [h]
  rw [decode_encode, decode_encode] at hd
  exact Decoded.command.inj hd

theorem encode_of_decode {w : Word} {i : Instr} (h : decode w = .command i) : encode i = w := by
  rw [decode_eq] at h
  split_ifs at h with hnop hclear hload hstart hstep
  · cases h; exact BitVec.eq_of_toNat_eq hnop.symm
  · cases h; exact BitVec.eq_of_toNat_eq hclear.symm
  · cases h
    apply BitVec.eq_of_toNat_eq
    rw [encode_loadSym_toNat, operandField_toNat]
    omega
  · cases h; exact BitVec.eq_of_toNat_eq hstart.symm
  · cases h; exact BitVec.eq_of_toNat_eq hstep.symm

theorem wellFormed_word_encode (i : Instr) : WellFormed.word (encode i) = true := by
  cases i with
  | loadSym cp =>
    have hcp : cp.toNat < 2 ^ 21 := cp.isLt
    rw [wellFormed_word_iff, encode_loadSym_toNat]
    omega
  | nop | clear | start | step => rfl

theorem wellFormed_word_of_decode_malformed {w : Word} {why : Malformed} (h : decode w = .malformed why) :
    WellFormed.word w = false := by
  rw [decode_eq] at h
  split_ifs at h
  rw [Bool.eq_false_iff, Ne, wellFormed_word_iff]
  omega

end Sys2Proof
end

section
/-! What each command answers (R82 to R86), as one chain of its checks in the order of R126, and what a word written to CMD runs (R81). -/

namespace Sys2Proof.Machine

variable {s : State} {w : Word}

/-- The checks of a command may stand outside its answer or inside the next state. -/
theorem next_ite {c : Prop} [Decidable c] (a b : State) :
    (Host.Outcome.next (if c then a else b) : Result) = if c then .next a else .next b :=
  apply_ite Host.Outcome.next c a b

theorem isScalar_eq_false_iff {cp : Symbol} :
    isScalar cp = false ↔ 0x10FFFF < cp.toNat ∨ (0xD800 ≤ cp.toNat ∧ cp.toNat ≤ 0xDFFF) := by
  simp [isScalar, imp_iff_not_or]

theorem exec_nop (s : State) : exec .nop s = .next s := rfl

theorem exec_clear (s : State) : exec .clear s = .next (clearJob s) := rfl

theorem exec_loadSym (cp : Symbol) (s : State) : exec (.loadSym cp) s = .next (
    if s.phase = 7#3 then s
    else if busy s then errorEntry .busy 0#3 (encode (.loadSym cp)) s
    else if s.phase ≠ 0#3 then errorEntry .sequence 0#3 (encode (.loadSym cp)) s
    else if 0x10FFFF < cp.toNat ∨ (0xD800 ≤ cp.toNat ∧ cp.toNat ≤ 0xDFFF) then errorEntry .badSymbol 0#3 (encode (.loadSym cp)) s
    else if s.input.length = s.inCap then errorEntry .inputFull 0#3 (encode (.loadSym cp)) s
    else { s with input := s.input ++ [cp] }) := by
  simp only [exec, execLoadSym, unlessError, raiseCommand, Bool.not_eq_true', isScalar_eq_false_iff, next_ite]

theorem exec_start (s : State) : exec .start s = .next (
    if s.phase = 7#3 then s
    else if busy s then errorEntry .busy 0#3 (encode .start) s
    else if 4 < s.phase.toNat then errorEntry .sequence 0#3 (encode .start) s
    else { s with target := 5#3 }) := by
  simp only [exec, execStart, unlessError, raiseCommand, setTarget, next_ite]

theorem exec_step (s : State) : exec .step s = .next (
    if s.phase = 7#3 then s
    else if busy s then errorEntry .busy 0#3 (encode .step) s
    else if 4 < s.phase.toNat then errorEntry .sequence 0#3 (encode .step) s
    else { s with target := s.phase + 1#3 }) := by
  simp only [exec, execStep, unlessError, raiseCommand, setTarget, next_ite]

theorem runCommand_encode (i : Instr) (s : State) : runCommand (encode i) s = exec i s := by
  simp only [runCommand, decode_encode]

theorem runCommand_of_malformed {why : Malformed} (h : decode w = .malformed why) (s : State) :
    runCommand w s = .next (if s.phase = 7#3 then s else errorEntry .illegalCommand 0#3 w s) := by
  simp only [runCommand, h, execMalformed, unlessError, raiseCommand, next_ite]

end Sys2Proof.Machine

namespace Sys2Proof.Proofs

open Machine

/-- Settles O13: the word of NOP runs NOP, and the word with an operand is malformed. -/
theorem nopCompletes : Obligations.NopCompletes := by
  unfold Obligations.NopCompletes
  intro s
  refine ⟨exec_nop s, runCommand_encode .nop s, fun h7 => ?_⟩
  have hd : decode 0x00000001#32 = .malformed .strayOperand := rfl
  rw [runCommand_of_malformed hd, if_neg h7]

/-- Settles O14: every field of the cleared block is at its reset value, so every term of its STATUS is 0. -/
theorem clearCompletes : Obligations.ClearCompletes := by
  unfold Obligations.ClearCompletes
  intro s
  refine ⟨clearJob s, exec_clear s, runCommand_encode .clear s, rfl, rfl, rfl, rfl, rfl, rfl, rfl, rfl, rfl, rfl, rfl, rfl, rfl,
    rfl, rfl, rfl, rfl, rfl, fun hcap => busRead_status_clearJob hcap, busy_clearJob s, rfl, ?_⟩
  have hd : decode 0x01000001#32 = .malformed .strayOperand := rfl
  rw [runCommand_of_malformed hd]

/-- Settles O15: each hypothesis takes one branch of the chain of checks; of the registers only STATUS and IN_COUNT show the input. -/
theorem loadSymCompletes : Obligations.LoadSymCompletes := by
  unfold Obligations.LoadSymCompletes
  intro cp s
  rw [exec_loadSym]
  refine ⟨fun h0 hb hmax hsur hroom => ⟨?_, inCount_concat cp, fun off => busRead_input_update _⟩, fun h7 hb => ?_, fun h7 hb h0 => ?_,
    fun h0 hb hbad => ?_, fun h0 hb hmax hsur hfull => ?_⟩
  · simp [h0, hb, hmax, hsur, hroom]
  · simp [h7, hb]
  · simp [h7, hb, h0]
  · simp [h0, hb, hbad]
  · simp [h0, hb, hmax, hsur, hfull]

/-- Settles O18: a word is malformed, or it is the word of one command and each command's own chain of checks is R81's. -/
theorem commandWordEffect : Obligations.CommandWordEffect := by
  unfold Obligations.CommandWordEffect
  intro w s
  cases hd : decode w with
  | malformed why =>
    have hclear : w ≠ 0x01000000#32 := by rintro rfl; cases hd
    rw [runCommand_of_malformed hd, if_neg hclear, if_pos (wellFormed_word_of_decode_malformed hd)]
  | command i =>
    obtain rfl := encode_of_decode hd
    rw [runCommand_encode]
    have hclear : encode i = 0x01000000#32 ↔ i = .clear := encode_injective.eq_iff (b := .clear)
    rw [opField_encode, wellFormed_word_encode]
    cases i with
    | nop => simp [hclear, exec_nop, opCode]
    | clear => simp [hclear, exec_clear, opCode]
    | loadSym cp => simp [hclear, exec_loadSym, opCode, operandField_encode_loadSym]
    | start => simp [hclear, exec_start, opCode]
    | step => simp [hclear, exec_step, opCode]

end Sys2Proof.Proofs
end

section
/-! The tree of stage 2 (R96, R101): every index of the arena is, once, a child or in the working collection, and a tree weighs what its
leaves weigh. -/

namespace Sys2Proof.Machine

variable {nodes : List Node} {c k : Nat} {t : HTree} {freq : List FreqEntry} {f : Forest} {s : State}

/-- What every round keeps, the loop of R96 keeps. -/
theorem mergeWhile_preserves {P : Forest → Prop} (hround : ∀ f, 2 ≤ f.work.length → P f → P (mergeRound f)) (fuel : Nat) (h : P f) :
    P (mergeWhile fuel f) := by
  induction fuel generalizing f with
  | zero => exact h
  | succ fuel ih =>
    rw [mergeWhile]
    split
    · rename_i hwork
      exact ih (hround f hwork h)
    · exact h

/-- The children of a node, left before right (R42). -/
def children : Node → List Nat
  | .leaf _ _ => []
  | .internal _ l r => [l, r]

theorem mem_children_iff {a : Node} : c ∈ children a ↔ ∃ w l r, a = .internal w l r ∧ (c = l ∨ c = r) := by
  cases a with
  | leaf => simp [children]
  | internal => simp [children]

/-- The children of all nodes and the working collection are between them the indices of the arena, each once. -/
def CoversArena (f : Forest) : Prop := (f.nodes.flatMap children ++ f.work).Perm (List.range f.nodes.length)

theorem coversArena_leafForest (freq : List FreqEntry) : CoversArena (leafForest freq) := by
  have hleaves : (leafForest freq).nodes.flatMap children = [] := by simp [leafForest, children]
  rw [CoversArena, hleaves]
  simp [leafForest]

/-- A round makes x and y children, and puts the index of the new node into the working collection in their stead. -/
theorem coversArena_mergeRound (h : 2 ≤ f.work.length) (hcov : CoversArena f) : CoversArena (mergeRound f) := by
  obtain ⟨x, y, rest, hsort, hround⟩ := mergeRound_eq h
  have hswap : ([x, y] ++ rest).Perm (rest ++ [y, x]) :=
    List.perm_append_comm.trans ((List.Perm.swap y x []).append_left rest)
  have hwork : ([x, y] ++ rest).Perm f.work := hswap.trans (hsort ▸ stableSortDesc_perm (freqAt f.nodes) f.work)
  have hold : (f.nodes.flatMap children ++ ([x, y] ++ rest)).Perm (List.range f.nodes.length) := (hwork.append_left _).trans hcov
  rw [CoversArena, hround]
  simpa [children, List.range_succ] using hold.append_right [f.nodes.length]

theorem coversArena_buildTree (freq : List FreqEntry) : CoversArena (buildTree freq) :=
  mergeWhile_preserves (fun _ => coversArena_mergeRound) _ (coversArena_leafForest freq)

/-- Each element of a join without repetition comes from one of the joined lists. -/
theorem existsUnique_index_of_mem_flatMap {α β : Type} {l : List α} {g : α → List β} {b : β} (hn : (l.flatMap g).Nodup)
    (hb : b ∈ l.flatMap g) : ∃! k : Nat, ∃ a, l[k]? = some a ∧ b ∈ g a := by
  obtain ⟨a, ha, hba⟩ := List.mem_flatMap.1 hb
  obtain ⟨k, hk⟩ := List.mem_iff_getElem?.1 ha
  have hdisjoint := List.pairwise_iff_getElem.1 (List.nodup_flatMap.1 hn).2
  refine ⟨k, ⟨a, hk, hba⟩, fun m ⟨a', hm, hba'⟩ => ?_⟩
  obtain ⟨hkl, rfl⟩ := List.getElem?_eq_some_iff.1 hk
  obtain ⟨hml, rfl⟩ := List.getElem?_eq_some_iff.1 hm
  rcases Nat.lt_trichotomy m k with hlt | heq | hgt
  · exact (hdisjoint m k hml hkl hlt hba' hba).elim
  · exact heq
  · exact (hdisjoint k m hkl hml hgt hba hba').elim

/-- An index that is not left in the working collection is the child of exactly one node. -/
theorem CoversArena.existsUnique_parent (hcov : CoversArena f) (hc : c < f.nodes.length) (hwork : c ∉ f.work) :
    ∃! k : Nat, ∃ w l r : Nat, f.nodes[k]? = some (Node.internal w l r) ∧ (c = l ∨ c = r) := by
  have hn : (f.nodes.flatMap children).Nodup := (List.nodup_append.1 (hcov.nodup_iff.2 List.nodup_range)).1
  have hmem : c ∈ f.nodes.flatMap children :=
    (List.mem_append.1 (hcov.mem_iff.2 (List.mem_range.2 hc))).resolve_right hwork
  have hparent (k : Nat) : (∃ a, f.nodes[k]? = some a ∧ c ∈ children a)
      ↔ ∃ w l r : Nat, f.nodes[k]? = some (Node.internal w l r) ∧ (c = l ∨ c = r) := by
    simp only [mem_children_iff]
    constructor
    · rintro ⟨_, hk, w, l, r, rfl, hlr⟩
      exact ⟨w, l, r, hk, hlr⟩
    · rintro ⟨w, l, r, hk, hlr⟩
      exact ⟨_, hk, w, l, r, rfl, hlr⟩
  simpa only [hparent] using existsUnique_index_of_mem_flatMap hn hmem

theorem mergeRound_work_length (h : 2 ≤ f.work.length) : (mergeRound f).work.length + 1 = f.work.length := by
  obtain ⟨x, y, rest, hsort, hround⟩ := mergeRound_eq h
  have hlen : f.work.length = (rest ++ [y, x]).length := by rw [← hsort, stableSortDesc_length]
  rw [hround, hlen]
  simp

theorem buildTree_eq_iterate (freq : List FreqEntry) : buildTree freq = mergeRound^[freq.length - 1] (leafForest freq) := by
  have hwork : (leafForest freq).work.length = freq.length := List.length_range
  rw [buildTree, mergeWhile_eq_iterate _ _ (leafForest_ok freq) (by omega), hwork]

/-- The weight of a tree of the arena is the sum over its slots. -/
theorem Grows.weight_eq_sum (g : Grows nodes k t) : t.weight = (t.slots.map (Machine.freqAt nodes)).sum := by
  induction g with
  | leaf h => simp [HTree.weight, HTree.slots, Machine.freqAt, h, nodeWeight]
  | node _ _ _ _ _ _ ihl ihr => simp [HTree.weight, HTree.slots, ihl, ihr]

theorem ForestOk.freqAt_slots (ok : ForestOk freq f) : (List.range freq.length).map (Machine.freqAt f.nodes) = freq.map (·.count) := by
  apply List.ext_getElem
  · simp
  · intro j hj _
    have hj : j < freq.length := by simpa using hj
    simp [Machine.freqAt, ok.leaves j hj, nodeWeight]

/-- The root weighs what its leaves weigh, and those are all the slots. -/
theorem buildTree_root_weight (h : freq ≠ []) :
    freqAt (buildTree freq).nodes (2 * freq.length - 2) = (freq.map (·.count)).sum := by
  obtain ⟨ok, -⟩ := buildTree_ok h
  obtain ⟨t, hroot, hslots, -⟩ := codesFrom_eq h
  calc freqAt (buildTree freq).nodes (2 * freq.length - 2)
    _ = t.weight := hroot.freqAt
    _ = (t.slots.map (freqAt (buildTree freq).nodes)).sum := hroot.weight_eq_sum
    _ = ((List.range freq.length).map (freqAt (buildTree freq).nodes)).sum := (hslots.map _).sum_eq
    _ = (freq.map (·.count)).sum := by rw [ok.freqAt_slots]

theorem jobTree_root_weight {input : List Symbol} (h : input ≠ []) :
    freqAt (jobTree input).nodes (2 * (jobFreq input).length - 2) = input.length :=
  (buildTree_root_weight fun hf => h ((countSymbols_eq_nil input).1 hf)).trans (countSymbols_sum input)

theorem buildTree_existsUnique_parent (h : freq ≠ []) (hc : c < 2 * freq.length - 2) :
    ∃! k : Nat, ∃ w l r : Nat, (buildTree freq).nodes[k]? = some (Node.internal w l r) ∧ (c = l ∨ c = r) := by
  refine (coversArena_buildTree freq).existsUnique_parent ?_ ?_
  · rw [buildTree_nodes_length h]; omega
  · rw [buildTree_work h, List.mem_singleton]; omega

/-- Stage 2 on a table that is not empty (R96). -/
theorem engineStep_buildTree (hp : s.phase = 1#3) (hf : s.freq ≠ []) :
    engineStep s = .next { s with phase := 2#3, nodes := (buildTree s.freq).nodes, root := some (2 * s.freq.length - 2),
                                  work := (buildTree s.freq).work } := by
  simp [engineStep, runStage, buildTreeStage, hp, hf, buildTree_work hf]

/-- Stage 2 on an empty table (R100). -/
theorem engineStep_emptyInput (hp : s.phase = 1#3) (hf : s.freq = []) : engineStep s = .next (errorEntry .emptyInput 2#3 0#32 s) := by
  simp [engineStep, runStage, buildTreeStage, hp, hf]

/-- ERR after an error entry names the stage and the code (R27, R123). -/
theorem busRead_err_errorEntry (e : ErrorCode) (stage : BitVec 3) (w : Word) (s : State) :
    busRead 0x10#12 (errorEntry e stage w s) = stage.setWidth 32 <<< 8 ||| (errorValue e).setWidth 32 := rfl

end Sys2Proof.Machine

namespace Sys2Proof.Proofs

open Machine

/-- Settles O36: the shape is that of a forest over the slots with one tree left in it, and `CoversArena` gives each other node
its one parent. -/
theorem buildTreeShape : Obligations.BuildTreeShape := by
  unfold Obligations.BuildTreeShape
  refine ⟨fun freq h => ?_, fun freq => ⟨rfl, rfl, buildTree_eq_iterate freq⟩, fun f => mergeRound_work_length,
    fun input => jobTree_root_weight⟩
  obtain ⟨ok, -⟩ := buildTree_ok h
  have hlen := buildTree_nodes_length h
  exact ⟨hlen, buildTree_work h, ok.leaves, fun k hn hk => ok.internals k hn (hlen.symm ▸ hk), buildTree_root_weight h,
    fun c => buildTree_existsUnique_parent h⟩

/-- Settles O37: the stage commits the tree of the table, or raises when there is no entry. -/
theorem buildTreeStageEffect : Obligations.BuildTreeStageEffect := by
  unfold Obligations.BuildTreeStageEffect
  intro s hp
  refine ⟨fun hf => ⟨_, engineStep_buildTree hp hf, rfl, rfl, rfl, rfl, ?_⟩,
    fun hf => ⟨_, engineStep_emptyInput hp hf, rfl, busRead_err_errorEntry .emptyInput 2#3 0#32 s⟩⟩
  simp [otherStoresKept]

end Sys2Proof.Proofs
end

section
/-! The codes of a job (R104, R106) are the root-to-leaf paths of a tree: none is as long as the tree has leaves, and only the path of
a tree that is one leaf is empty. -/

namespace Sys2Proof.Machine

variable {t : HTree} {q : List Bool} {input : List Symbol} {codes : List CodeEntry}

/-- A code below a node is a code of one child behind the bit of that child. -/
theorem HTree.mem_codes_node {l r : HTree} : q ∈ (HTree.node l r).codes
    ↔ (∃ p ∈ l.codes, false :: p = q) ∨ ∃ p ∈ r.codes, true :: p = q := by
  simp only [HTree.codes_node, List.mem_append, List.mem_map]

theorem HTree.codes_length_node (l r : HTree) : (HTree.node l r).codes.length = l.codes.length + r.codes.length := by
  simp [HTree.codes_node]

theorem HTree.codes_length_pos (t : HTree) : 0 < t.codes.length := by
  induction t with
  | leaf => exact Nat.one_pos
  | node l r ihl _ =>
    rw [HTree.codes_length_node]
    exact Nat.add_pos_left ihl _

/-- Each bit of a code passes by a sibling, which has a leaf of its own. -/
theorem HTree.length_lt_codes_length (hq : q ∈ t.codes) : q.length < t.codes.length := by
  induction t generalizing q with
  | leaf j c =>
    rw [HTree.codes_leaf, List.mem_singleton] at hq
    rw [hq]
    exact Nat.one_pos
  | node l r ihl ihr =>
    have hl := l.codes_length_pos
    have hr := r.codes_length_pos
    rw [HTree.codes_length_node]
    rcases HTree.mem_codes_node.1 hq with ⟨p, hp, rfl⟩ | ⟨p, hp, rfl⟩
    · have hleft := ihl hp
      rw [List.length_cons]
      omega
    · have hright := ihr hp
      rw [List.length_cons]
      omega

theorem HTree.codes_length_of_nil_mem (h : [] ∈ t.codes) : t.codes.length = 1 := by
  cases t with
  | leaf => rfl
  | node => simp [HTree.mem_codes_node] at h

/-- There is no code table of the empty input. -/
theorem jobCodes_nil : jobCodes [] = none := rfl

/-- The codes of a job's table are those of a tree's leaves, in slot order. -/
theorem jobCodes_perm (h : jobCodes input = some codes) : ∃ t : HTree, (codes.map (·.code)).Perm t.codes := by
  have hne : input ≠ [] := by
    rintro rfl
    rw [jobCodes_nil] at h
    cases h
  obtain ⟨t, -, hslots, hcodes⟩ := jobCodes_eq hne
  obtain rfl : applyPaths (t.paths []) (emptyCodes (jobFreq input)) = codes := Option.some.inj (hcodes.symm.trans h)
  refine ⟨t, applyPaths_codes_perm _ _ ?_⟩
  simpa [emptyCodes] using hslots

end Sys2Proof.Machine

namespace Sys2Proof.Proofs

open Machine

/-- Settles O39: a code is shorter than the number of entries, which leaves nothing but the empty code when there is one entry; with
more of them, no path of the tree is empty. -/
theorem onlyTheSingleSymbolCodeIsEmpty : Obligations.OnlyTheSingleSymbolCodeIsEmpty := by
  unfold Obligations.OnlyTheSingleSymbolCodeIsEmpty
  intro input codes h
  obtain ⟨t, hperm⟩ := jobCodes_perm h
  have hlen : codes.length = t.codes.length := by simpa using hperm.length_eq
  have hmem : ∀ e ∈ codes, e.code ∈ t.codes := fun e he => hperm.mem_iff.1 (List.mem_map_of_mem he)
  have hshort : ∀ e ∈ codes, e.code.length < codes.length := fun e he => hlen ▸ HTree.length_lt_codes_length (hmem e he)
  refine ⟨fun hone e he => ?_, fun htwo e he => ⟨fun hempty => ?_, Nat.le_sub_one_of_lt (hshort e he)⟩⟩
  · exact List.length_eq_zero_iff.1 (Nat.lt_one_iff.1 (hone ▸ hshort e he))
  · have hleaf : t.codes.length = 1 := HTree.codes_length_of_nil_mem (hempty ▸ hmem e he)
    omega

end Sys2Proof.Proofs
end

section
/-! The layout of the bit string (R109 to R112): what stands at the place of each entry of the header, and how a field is read back
from the front of a bit string. -/

namespace Sys2Proof.Machine

variable {codes : List CodeEntry} {j n v : Nat}

theorem numOf_take_binN_append (h : v < 2 ^ n) (rest : List Bool) : numOf ((binN n v ++ rest).take n) = v := by
  rw [List.take_left' (binN_length n v), numOf_binN n v h]

theorem flatMap_entryBits_length (codes : List CodeEntry) : (codes.flatMap entryBits).length = 16 * codes.length := by
  have hheader := headerBits_length codes
  rw [headerBits, List.length_append, binN_length] at hheader
  omega

/-- Behind the count and the first `j` entries stands entry `j`: the length of its code, then the low byte of its code point
(R110, R111). -/
theorem drop_headerBits_entry (hj : j < codes.length) (body : List Bool) :
    (headerBits codes ++ body).drop (32 + 16 * j) = binN 8 codes[j].code.length
      ++ (binN 8 (codes[j].sym.toNat % 256) ++ ((codes.drop (j + 1)).flatMap entryBits ++ body)) := by
  have hentries : codes.flatMap entryBits
      = (codes.take j).flatMap entryBits ++ (entryBits codes[j] ++ (codes.drop (j + 1)).flatMap entryBits) := by
    rw [← List.flatMap_cons, ← List.drop_eq_getElem_cons hj, ← List.flatMap_append, List.take_append_drop]
  have hfront : (binN 32 codes.length ++ (codes.take j).flatMap entryBits).length = 32 + 16 * j := by
    rw [List.length_append, binN_length, flatMap_entryBits_length, List.length_take_of_le hj.le]
  rw [headerBits, hentries, ← List.append_assoc, List.append_assoc _ _ body, List.drop_left' hfront, entryBits]
  simp only [List.append_assoc]

theorem numOf_headerBits_count (hn : codes.length < 2 ^ 32) (body : List Bool) :
    numOf ((headerBits codes ++ body).take 32) = codes.length := by
  rw [headerBits, List.append_assoc, numOf_take_binN_append hn]

theorem numOf_headerBits_codeLength (hj : j < codes.length) (hlen : codes[j].code.length ≤ 255) (body : List Bool) :
    numOf (((headerBits codes ++ body).drop (32 + 16 * j)).take 8) = codes[j].code.length := by
  rw [drop_headerBits_entry hj, numOf_take_binN_append (Nat.lt_succ_of_le hlen)]

theorem numOf_headerBits_symbolByte (hj : j < codes.length) (body : List Bool) :
    numOf (((headerBits codes ++ body).drop (40 + 16 * j)).take 8) = codes[j].sym.toNat % 256 := by
  have hplace : 40 + 16 * j = (32 + 16 * j) + 8 := by omega
  have hbyte : codes[j].sym.toNat % 256 < 2 ^ 8 := Nat.mod_lt _ (by decide)
  rw [hplace, ← List.drop_drop, drop_headerBits_entry hj, List.drop_left' (binN_length 8 _),
    numOf_take_binN_append hbyte]

theorem drop_headerBits_body (codes : List CodeEntry) (body : List Bool) :
    (headerBits codes ++ body).drop (32 + 16 * codes.length) = body :=
  List.drop_left' (headerBits_length codes)

end Sys2Proof.Machine

namespace Sys2Proof.Proofs

open Machine

/-- Settles O42: the premises are what makes the count and each code length fit its field, and the body is by `bodyBits_eq` the codes
of the input. -/
theorem bitStringLayout : Obligations.BitStringLayout := by
  unfold Obligations.BitStringLayout
  intro codes input body hn hlen hbody
  obtain ⟨-, hcodes⟩ := bodyBits_eq codes input body hbody
  refine ⟨numOf_headerBits_count hn body, fun j hj => ⟨?_, numOf_headerBits_symbolByte hj body⟩,
    (drop_headerBits_body codes body).trans hcodes⟩
  exact numOf_headerBits_codeLength hj (hlen _ (List.getElem_mem hj)) body

end Sys2Proof.Proofs
end

section
/-! The length of a job's bit string (R114), and stage 5 in both of its cases (R116, R118). -/

namespace Sys2Proof.Machine

variable {s : State} {input : List Symbol} {codes : List CodeEntry} {freq : List FreqEntry} {bits : List Bool}

/-- The code table has the slots of the frequency table (R104). -/
theorem jobCodes_syms (h : jobCodes input = some codes) : codes.map (·.sym) = (jobFreq input).map (·.sym) := by
  cases input with
  | nil => cases h
  | cons c rest =>
    obtain ⟨t, -, -, hcodes⟩ := jobCodes_eq (List.cons_ne_nil c rest)
    obtain rfl := Option.some.inj (hcodes.symm.trans h)
    simp [emptyCodes]

/-- In a table without repeated symbols the column of codes is what `codeOf` finds for the column of symbols. -/
theorem map_codeOf_syms (hn : (codes.map (·.sym)).Nodup) :
    (codes.map (·.sym)).map (fun c => (codeOf codes c).getD []) = codes.map (·.code) := by
  rw [List.map_map]
  exact List.map_congr_left fun e he => by simp [codeOf_of_mem hn he]

/-- Slot by slot, the sum of R107 weighs each count with the length of the code that its symbol has. -/
theorem codeCost_eq_sum (hsyms : codes.map (·.sym) = freq.map (·.sym)) (hn : (codes.map (·.sym)).Nodup) :
    codeCost freq (codes.map (·.code)) = (freq.map fun e => e.count * ((codeOf codes e.sym).getD []).length).sum := by
  rw [codeCost, ← map_codeOf_syms hn, hsyms, List.map_map, List.zipWith_map_right, List.zipWith_self]
  rfl

/-- The sum over the slots is the length of the body (R112): each symbol of the input is counted once. -/
theorem bodyBits_length {body : List Bool} (hc : jobCodes input = some codes) (hb : bodyBits codes input = some body) :
    body.length = codeCost (jobFreq input) (codes.map (·.code)) := by
  have hsyms := jobCodes_syms hc
  have hn : (codes.map (·.sym)).Nodup := hsyms ▸ countSymbols_nodup input
  obtain ⟨hlen, -⟩ := bodyBits_eq codes input body hb
  rw [codeCost_eq_sum hsyms hn, hlen]
  exact (countSymbols_weighted (fun c => ((codeOf codes c).getD []).length) input).symm

/-- R114: the header's 32 bits, 16 bits for each entry, and the body. -/
theorem jobBits_length (hc : jobCodes input = some codes) (hb : jobBits input = some bits) :
    bits.length = 32 + 16 * codes.length + codeCost (jobFreq input) (codes.map (·.code)) := by
  simp only [jobBits, hc, Option.map_eq_some_iff] at hb
  obtain ⟨body, hbody, rfl⟩ := hb
  rw [List.length_append, headerBits_length, bodyBits_length hc hbody]

/-- Header and entries are whole groups of four bits, so the residue is that of the body (R114). -/
theorem jobBits_length_mod_four (hc : jobCodes input = some codes) (hb : jobBits input = some bits) :
    bits.length % 4 = codeCost (jobFreq input) (codes.map (·.code)) % 4 := by
  have hlen := jobBits_length hc hb
  omega

/-- In phase 4 the stores are those of the job's input (R50). -/
theorem Inv.bits_length_mod_four (hi : Inv s) (hp : s.phase = 4#3) :
    s.bits.length % 4 = codeCost s.freq (s.codes.map (·.code)) % 4 := by
  obtain ⟨-, hstores, -⟩ := hi.running (by rw [hp]; decide)
  rw [hp] at hstores
  obtain ⟨hfreq, -⟩ := hstores.counted (by decide)
  obtain ⟨hbits, -⟩ := hstores.serialized (by decide)
  rw [hfreq]
  exact jobBits_length_mod_four (hstores.coded (by decide)) hbits

/-- Stage 5 on a multiple of four bits (R116). -/
theorem engineStep_pack (hp : s.phase = 4#3) (h4 : s.bits.length % 4 = 0) :
    engineStep s = .next { s with out := packBits s.bits, phase := 5#3 } := by
  simp [engineStep, runStage, packStage, hp, h4]

/-- Stage 5 on any other length (R118). -/
theorem engineStep_bitLength (hp : s.phase = 4#3) (h4 : s.bits.length % 4 ≠ 0) :
    engineStep s = .next (errorEntry .bitLength 5#3 0#32 s) := by
  simp [engineStep, runStage, packStage, hp, h4]

end Sys2Proof.Machine

namespace Sys2Proof.Proofs

open Machine

/-- Settles O46: the guard of stage 5 decides between its output and the error entry, which keeps BIT_LEN and empties the output; the
length it looks at is under the invariant that of the job's bit string. -/
theorem packSucceedsExactlyOnMultiplesOfFour : Obligations.PackSucceedsExactlyOnMultiplesOfFour := by
  unfold Obligations.PackSucceedsExactlyOnMultiplesOfFour
  intro s hp
  exact ⟨engineStep_pack hp,
    fun h4 => ⟨_, engineStep_bitLength hp h4, rfl, busRead_err_errorEntry .bitLength 5#3 0#32 s, rfl, rfl⟩,
    fun hi => hi.bits_length_mod_four hp⟩

end Sys2Proof.Proofs
end

section
/-! The error entry (R123) and phase ERROR (R125, R127): what the registers show, and what a host access can do there. -/

namespace Sys2Proof.Machine

variable {s t : State} {op : HostOp}

/-- STATUS after an error entry: phase 7 and ERR, and, as the target is 0 and the input not full, no other bit (R26). -/
theorem busRead_status_errorEntry (e : ErrorCode) (stage : BitVec 3) (w : Word) (hroom : s.input.length ≠ s.inCap) :
    busRead 0x0C#12 (errorEntry e stage w s) = 0x407#32 := by
  have hstatus : busRead 0x0C#12 (errorEntry e stage w s) = statusWord (errorEntry e stage w s) := rfl
  rw [hstatus, statusWord_eq]
  simp [hroom]

theorem busy_errorPhase (h7 : s.phase = 7#3) : busy s = false := by simp [busy, h7]

theorem busRead_outData_errorPhase (h7 : s.phase = 7#3) : busRead 0x2C#12 s = 0#32 := by
  have hdone : s.phase ≠ 5#3 := by rw [h7]; decide
  exact outDataWord_eq_zero fun ⟨hp, _⟩ => hdone hp

theorem runCommand_errorPhase (h7 : s.phase = 7#3) (w : Word) :
    runCommand w s = .next (if w = 0x01000000#32 then clearJob s else s) := by
  rw [Proofs.commandWordEffect w s, if_pos h7]

/-- R127: of the causes of a host access, the error, the load and the new target cannot be in phase ERROR. -/
theorem HostCause.errorPhase_cases (h7 : s.phase = 7#3) (h : HostCause s op t) :
    t = { s with outPtr := t.outPtr, agents := t.agents } ∨ op = .write 32 0x08#12 0x01000000#32 ∨ op = .reset := by
  cases h with
  | idle a => exact .inl rfl
  | outPtr a v ho => exact .inl rfl
  | clear a hc =>
    rcases hc with hreset | ⟨w, hw, hd⟩
    · exact .inr (.inr hreset)
    · exact .inr (.inl (by rw [hw, eq_of_decode_clear hd]))
  | error a e w hne => exact absurd h7 hne
  | load a w cp ho hd h0 => rw [h7] at h0; cases h0
  | target a u hne => exact absurd h7 hne

/-- R83, R136: the host's CLEAR and reset complete in every phase. -/
theorem hostAccess_clears (s : State) (ho : op = .write 32 0x08#12 0x01000000#32 ∨ op = .reset) :
    hostAccess op s = .next (clearJob s) := by
  rcases ho with rfl | rfl
  · exact runCommand_encode .clear s
  · rfl

end Sys2Proof.Machine

namespace Sys2Proof.Proofs

open Machine

/-- Settles O54: R81's chain of checks ignores all words but CLEAR's, and of the causes of a host access only CLEAR and reset touch
more than OUT_PTR and the agents. -/
theorem errorPhaseIsSticky : Obligations.ErrorPhaseIsSticky := by
  unfold Obligations.ErrorPhaseIsSticky
  intro s h7
  refine ⟨runCommand_errorPhase h7, fun v => rfl, busy_errorPhase h7, busRead_outData_errorPhase h7,
    fun off hoff => hostAccess_read hoff s, fun op t h => ?_⟩
  rcases (hostAccess_cause h).errorPhase_cases h7 with hkept | hclears
  · exact .inl hkept
  · exact .inr ⟨hclears, Host.Outcome.next.inj (h.symm.trans (hostAccess_clears s hclears))⟩

/-- Settles O20: the entry is its record update, and of the words read after it only STATUS takes an argument. -/
theorem errorEntryWritesTheRecord : Obligations.ErrorEntryWritesTheRecord := by
  unfold Obligations.ErrorEntryWritesTheRecord
  exact ⟨fun e stage w s => ⟨rfl, busy_errorEntry e stage w s, busRead_status_errorEntry e stage w, rfl⟩,
    rfl, rfl, rfl, rfl, rfl, rfl, rfl, rfl⟩

end Sys2Proof.Proofs
end

section
/-! The opcode table (R75, R76): a row looks at OP whole, so a word has at most one row, and the well-formed words are those that have
one. The three kinds of malformed word (R77) are the ways to have none. -/

namespace Sys2Proof

variable {w : Word} {r q : OpcodeRow} {why : Malformed}

/-- Every mask of the table holds OP whole. -/
theorem opField_mask_of_mem (h : r ∈ opcodeRows) : opField r.mask = 0xFF#8 := by
  have hrows : ∀ r ∈ opcodeRows, opField r.mask = 0xFF#8 := by decide
  exact hrows r h

/-- Each row of the table has an OP of its own. -/
theorem eq_of_opField_pattern_eq (hr : r ∈ opcodeRows) (hq : q ∈ opcodeRows) (h : opField r.pattern = opField q.pattern) : r = q := by
  have hrows : ∀ r ∈ opcodeRows, ∀ q ∈ opcodeRows, opField r.pattern = opField q.pattern → r = q := by decide
  exact hrows r hr q hq h

theorem opField_of_hits (hr : r ∈ opcodeRows) (h : r.hits w = true) : opField w = opField r.pattern := by
  have hand : w &&& r.mask = r.pattern := by simpa [OpcodeRow.hits] using h
  calc opField w
    _ = opField w &&& BitVec.allOnes 8 := BitVec.and_allOnes.symm
    _ = opField w &&& opField r.mask := by rw [opField_mask_of_mem hr]; rfl
    _ = opField (w &&& r.mask) := BitVec.extractLsb'_and.symm
    _ = opField r.pattern := by rw [hand]

theorem full_row_hits_iff (p w : Word) : (OpcodeRow.hits ⟨p, 0xFFFFFFFF#32⟩ w = true) ↔ w.toNat = p.toNat :=
  (hits_of_full_mask p w).trans BitVec.toNat_inj.symm

theorem exists_row_hits_iff : (∃ r ∈ opcodeRows, r.hits w = true) ↔ WellFormed.word w = true := by
  rw [wellFormed_word_iff]
  simp [opcodeRows, rowLoadSym_hits, rowNop, rowClear, rowStart, rowStep, full_row_hits_iff]

theorem exists_decode_command_iff : (∃ i, decode w = .command i) ↔ WellFormed.word w = true := by
  constructor
  · rintro ⟨i, h⟩
    rw [← encode_of_decode h]
    exact wellFormed_word_encode i
  · intro hw
    cases hd : decode w with
    | command i => exact ⟨i, rfl⟩
    | malformed why => simp [wellFormed_word_of_decode_malformed hd] at hw

theorem exists_decode_malformed_iff : (∃ why, decode w = .malformed why) ↔ WellFormed.word w = false := by
  rw [← Bool.not_eq_true, ← exists_decode_command_iff]
  cases decode w <;> simp

/-- A rejection names the first kind of R77's list that applies. -/
theorem kind_of_decode_malformed (h : decode w = .malformed why) : why = malformedKind w := by
  rw [decode_eq] at h
  split_ifs at h
  exact (Decoded.malformed.inj h).symm

theorem rsvField_eq_zero_iff : rsvField w = 0#3 ↔ w.toNat / 2 ^ 21 % 8 = 0 := by
  rw [BitVec.toNat_eq, rsvField_toNat]; rfl

theorem operandField_eq_zero_iff : operandField w = 0#21 ↔ w.toNat % 2 ^ 21 = 0 := by
  rw [BitVec.toNat_eq, operandField_toNat]; rfl

/-- The commands without an operand by the number of their OP. -/
theorem opField_mem_iff : opField w ∈ [0x00#8, 0x01#8, 0x03#8, 0x04#8] ↔ w.toNat / 2 ^ 24 ≤ 4 ∧ w.toNat / 2 ^ 24 ≠ 2 := by
  simp only [List.mem_cons, List.not_mem_nil, or_false, BitVec.toNat_eq, opField_toNat, BitVec.toNat_ofNat]
  omega

/-- R77: a word is malformed in one of three ways. -/
theorem malformed_kinds_iff : (5 ≤ (opField w).toNat ∨ rsvField w ≠ 0#3
      ∨ (operandField w ≠ 0#21 ∧ opField w ∈ [0x00#8, 0x01#8, 0x03#8, 0x04#8])) ↔ WellFormed.word w = false := by
  rw [opField_toNat, Ne, rsvField_eq_zero_iff, Ne, operandField_eq_zero_iff, opField_mem_iff, ← Bool.not_eq_true]
  simp only [WellFormed.word, Bool.and_eq_true, Bool.or_eq_true, decide_eq_true_eq, beq_iff_eq]
  omega

/-- The word is of the kind that is named (R77). -/
def Malformed.fits (w : Word) : Malformed → Prop
  | .reservedOpcode => 5 ≤ (opField w).toNat
  | .reservedBits => rsvField w ≠ 0#3
  | .strayOperand => operandField w ≠ 0#21 ∧ opField w ∈ [0x00#8, 0x01#8, 0x03#8, 0x04#8]

/-- A malformed word with neither a reserved opcode nor a reserved bit has a stray operand. -/
theorem malformedKind_fits (hw : WellFormed.word w = false) : (malformedKind w).fits w := by
  have hkinds := malformed_kinds_iff.2 hw
  unfold malformedKind
  split_ifs with hop hrsv
  · exact hop
  · exact hrsv
  · exact (hkinds.resolve_left (by omega)).resolve_left hrsv

theorem fits_of_decode_malformed (h : decode w = .malformed why) : why.fits w := by
  rw [kind_of_decode_malformed h]
  exact malformedKind_fits (wellFormed_word_of_decode_malformed h)

end Sys2Proof

namespace Sys2Proof.Proofs

open Machine

/-- Settles O1: the encoder and the decoder are inverse to each other. -/
theorem decodeEncodeRoundTrip : Obligations.DecodeEncodeRoundTrip := by
  unfold Obligations.DecodeEncodeRoundTrip
  exact ⟨decode_encode, fun w i h => encode_of_decode h⟩

/-- Settles O2: a row that matches has the word's OP, and each OP has one row. -/
theorem wellFormedWordMatchesExactlyOneRow : Obligations.WellFormedWordMatchesExactlyOneRow := by
  unfold Obligations.WellFormedWordMatchesExactlyOneRow
  exact fun w => ⟨exists_row_hits_iff.symm,
    fun r hr q hq hrw hqw => eq_of_opField_pattern_eq hr hq ((opField_of_hits hr hrw).symm.trans (opField_of_hits hq hqw)),
    exists_decode_command_iff.symm⟩

/-- Settles O3: the kinds are the negation of R76, and the name is the first kind that applies. -/
theorem malformedWordsAreRejectedByKind : Obligations.MalformedWordsAreRejectedByKind := by
  unfold Obligations.MalformedWordsAreRejectedByKind
  exact fun w => ⟨malformed_kinds_iff.trans exists_decode_malformed_iff.symm,
    fits_of_decode_malformed, fits_of_decode_malformed, fits_of_decode_malformed⟩

/-- Settles O4: nine closed words, each decoded by the table. -/
theorem tableWordsDecode : Obligations.TableWordsDecode := by
  unfold Obligations.TableWordsDecode
  decide

end Sys2Proof.Proofs
end

section
/-! The fields of STATUS and ERR by their places in the word's number (R26, R27, R35), and where the window sits in the host's address
map (R55). -/

namespace Sys2Proof.Machine

variable {s : State} {x y : Word} {k m i base addr : Nat} {off : Offset}

/-- A field that stands above the bits of a word is added to the word's number. -/
theorem toNat_or_field {a : Nat} (hx : x.toNat = a) (ha : a < 2 ^ k) (hy : y.toNat = 2 ^ k * m) : (x ||| y).toNat = a + 2 ^ k * m := by
  rw [BitVec.toNat_or, hx, hy, Nat.lor_comm, ← Nat.two_pow_add_eq_or_of_lt ha, Nat.add_comm]

theorem toNat_flagAt (hi : i < 32) (b : Bool) : (flagAt i b).toNat = 2 ^ i * b.toNat := by
  have hpow : 2 ^ i < 2 ^ 32 := Nat.pow_lt_pow_right (by decide) hi
  cases b with
  | false => simp [flagAt]
  | true => simpa [flagAt, Nat.shiftLeft_eq] using hpow

theorem toNat_shifted_field (f : BitVec 3) (hk : k ≤ 29) : (f.setWidth 32 <<< k).toNat = 2 ^ k * f.toNat := by
  have hf : f.toNat < 2 ^ 3 := f.isLt
  have hfit : f.toNat * 2 ^ k < 2 ^ 32 := calc
    f.toNat * 2 ^ k < 2 ^ 3 * 2 ^ k := Nat.mul_lt_mul_of_pos_right hf (by positivity)
    _ = 2 ^ (3 + k) := (pow_add 2 3 k).symm
    _ ≤ 2 ^ 32 := Nat.pow_le_pow_right (by decide) (by omega)
  rw [BitVec.toNat_shiftLeft, BitVec.toNat_setWidth_of_le (by decide), Nat.shiftLeft_eq, Nat.mod_eq_of_lt hfit, Nat.mul_comm]

/-- The fields of STATUS do not overlap (R26). -/
theorem statusWord_toNat (s : State) : (statusWord s).toNat = s.phase.toNat + 16 * s.target.toNat + 256 * (busy s).toNat
    + 512 * (doneFlag s).toNat + 1024 * (errFlag s).toNat + 2048 * (inFull s).toNat := by
  have hphase : (s.phase.setWidth 32).toNat = s.phase.toNat := BitVec.toNat_setWidth_of_le (by decide)
  have hp : s.phase.toNat < 2 ^ 3 := s.phase.isLt
  have ht : s.target.toNat < 2 ^ 3 := s.target.isLt
  have hbusy := (busy s).toNat_le
  have hdone := (doneFlag s).toNat_le
  have herr := (errFlag s).toNat_le
  have h4 := toNat_or_field hphase (by omega) (toNat_shifted_field s.target (by decide : 4 ≤ 29))
  have h8 := toNat_or_field h4 (by omega) (toNat_flagAt (by decide : 8 < 32) (busy s))
  have h9 := toNat_or_field h8 (by omega) (toNat_flagAt (by decide : 9 < 32) (doneFlag s))
  have h10 := toNat_or_field h9 (by omega) (toNat_flagAt (by decide : 10 < 32) (errFlag s))
  exact toNat_or_field h10 (by omega) (toNat_flagAt (by decide : 11 < 32) (inFull s))

/-- The two fields of ERR do not overlap (R27). -/
theorem errWord_toNat (s : State) : (errWord s).toNat = s.errCode.toNat + 256 * s.errStage.toNat := by
  have hcode : (s.errCode.setWidth 32).toNat = s.errCode.toNat := BitVec.toNat_setWidth_of_le (by decide)
  rw [errWord, BitVec.or_comm]
  exact toNat_or_field hcode s.errCode.isLt (toNat_shifted_field s.errStage (by decide : 8 ≤ 29))

/-- A field of a word by its number. -/
theorem extractLsb'_eq_iff {len : Nat} (x : Word) (start : Nat) (f : BitVec len) :
    x.extractLsb' start len = f ↔ x.toNat / 2 ^ start % 2 ^ len = f.toNat := by
  rw [BitVec.toNat_eq, BitVec.extractLsb'_toNat, Nat.shiftRight_eq_div_pow]

theorem getLsbD_eq_decide (x : Word) (i : Nat) : x.getLsbD i = decide (x.toNat / 2 ^ i % 2 = 1) :=
  Nat.testBit_eq_decide_div_mod_eq

theorem windowOffset_eq_some_iff : windowOffset base addr = some off ↔ addr = base + off.toNat := by
  have hoff : off.toNat < 2 ^ 12 := off.isLt
  unfold windowOffset Config.windowBytes
  split
  · rw [Option.some_inj, BitVec.toNat_eq, BitVec.toNat_ofNat]
    omega
  · simp only [reduceCtorEq, false_iff]
    omega

theorem windowOffset_eq_none_iff : windowOffset base addr = none ↔ addr < base ∨ base + 0x1000 ≤ addr := by
  unfold windowOffset Config.windowBytes
  split
  · simp only [reduceCtorEq, false_iff]
    omega
  · simp only [true_iff]
    omega

end Sys2Proof.Machine

namespace Sys2Proof.Proofs

open Machine

/-- Settles O6: each field is read off the sum that the word's number is. -/
theorem statusAndErrFields : Obligations.StatusAndErrFields := by
  unfold Obligations.StatusAndErrFields
  intro s
  have hstatus : busRead 0x0C#12 s = statusWord s := rfl
  have herr : busRead 0x10#12 s = errWord s := rfl
  have hp : s.phase.toNat < 2 ^ 3 := s.phase.isLt
  have ht : s.target.toNat < 2 ^ 3 := s.target.isLt
  have hbusy := (busy s).toNat_le
  have hdone := (doneFlag s).toNat_le
  have herrFlag := (errFlag s).toNat_le
  have hfull := (inFull s).toNat_le
  have hc : s.errCode.toNat < 2 ^ 8 := s.errCode.isLt
  have hst : s.errStage.toNat < 2 ^ 3 := s.errStage.isLt
  have hflag8 : (busy s).toNat = 1 ↔ s.phase ≠ 7#3 ∧ s.phase.toNat < s.target.toNat := by rw [Bool.toNat_eq_one, busy_iff]
  have hflag9 : (doneFlag s).toNat = 1 ↔ s.phase = 5#3 := by rw [Bool.toNat_eq_one, doneFlag, beq_iff_eq]
  have hflag10 : (errFlag s).toNat = 1 ↔ s.phase = 7#3 := by rw [Bool.toNat_eq_one, errFlag, beq_iff_eq]
  have hflag11 : (inFull s).toNat = 1 ↔ s.input.length = s.inCap := by rw [Bool.toNat_eq_one, inFull, beq_iff_eq]
  simp only [hstatus, herr, extractLsb'_eq_iff, getLsbD_eq_decide, decide_eq_true_eq, decide_eq_false_iff_not, statusWord_toNat,
    errWord_toNat, ← hflag8, ← hflag9, ← hflag10, ← hflag11]
  simp only [BitVec.toNat_ofNat]
  omega

/-- Settles O12: the window is the 0x1000 bytes from its base on, and the base is a multiple of 4. -/
theorem windowSitsAtTheBase : Obligations.WindowSitsAtTheBase := by
  unfold Obligations.WindowSitsAtTheBase
  intro base addr off hbase
  refine ⟨windowOffset_eq_some_iff, fun h => ?_, windowOffset_eq_none_iff⟩
  have hmultiple : base % 0x1000 = 0 := by simpa [Config.legalBase, Config.windowBytes] using hbase
  rw [windowOffset_eq_some_iff.1 h]
  omega

end Sys2Proof.Proofs
end

section
/-! One step of one agent (R60, R65): what the step is when it is the host's access of each kind, whose turn the pending delay makes it,
and why the host cannot have the turn for ever (R67). -/

namespace Sys2Proof.Machine

variable {s t u : State} {op : HostOp} {rest : List HostOp} {off : Offset} {mask val w : Word} {i : Instr} {r : Refusal}

/-- While no stage is pending the host has every turn. -/
theorem hostsTurn_of_not_busy (hb : busy s = false) (hops : s.agents.ops = op :: rest) : hostsTurn s op rest :=
  ⟨hops, fun hbusy => by rw [hb] at hbusy; cases hbusy⟩

theorem takeOp_of_not_busy (hb : busy s = false) (rest : List HostOp) : takeOp rest s = setOps rest s := by simp [takeOp, hb]

theorem step_of_read (hl : Config.legalInCap s.inCap = true) (hoff : off.toNat % 4 = 0) (ht : hostsTurn s (.read 32 off) rest) :
    step s = .next (bindVar (busRead off s) (takeOp rest s)) := by
  rw [step_of_hostsTurn hl ht, hostAccess_read hoff, busRead_congr (takeOp_sameBlock rest s)]

theorem step_of_command (hl : Config.legalInCap s.inCap = true) (ht : hostsTurn s (.write 32 0x08#12 w) rest) :
    step s = runCommand w (takeOp rest s) := step_of_hostsTurn hl ht

theorem step_of_reset (hl : Config.legalInCap s.inCap = true) (ht : hostsTurn s .reset rest) :
    step s = .next (clearJob (takeOp rest s)) := step_of_hostsTurn hl ht

theorem step_of_poll (hl : Config.legalInCap s.inCap = true) (hoff : off.toNat % 4 = 0) (ht : hostsTurn s (.poll off mask val) rest) :
    step s = pollOnce off mask val (takeOp rest s) :=
  (step_of_hostsTurn hl ht).trans (checkedAccess_of_wellFormed (wellFormed_access_iff.2 ⟨rfl, hoff⟩))

theorem pollOnce_hit (h : busRead off s &&& mask = val) : pollOnce off mask val s = .next (bindVar (busRead off s) s) := if_pos h

theorem pollOnce_miss (h : busRead off s &&& mask ≠ val) :
    pollOnce off mask val s = .next (setOps (.poll off mask val :: s.agents.ops) s) := if_neg h

/-- R80: the loop ends on the value it waits for, and is the next thing the host does otherwise. -/
theorem step_of_poll_cases (hl : Config.legalInCap s.inCap = true) (hoff : off.toNat % 4 = 0)
    (ht : hostsTurn s (.poll off mask val) rest) : ∃ t, step s = .next t ∧ sameBlock s t
      ∧ (busRead off s &&& mask = val → t.agents.ops = rest ∧ t.agents.vars = s.agents.vars ++ [busRead off s])
      ∧ (busRead off s &&& mask ≠ val → t.agents.ops = .poll off mask val :: rest ∧ t.agents.vars = s.agents.vars) := by
  have hblock := takeOp_sameBlock rest s
  have hread : busRead off (takeOp rest s) = busRead off s := busRead_congr hblock off
  rw [step_of_poll hl hoff ht]
  by_cases hval : busRead off s &&& mask = val
  · exact ⟨_, pollOnce_hit (hread.symm ▸ hval), hblock, by simp [hread], fun hne => absurd hval hne⟩
  · exact ⟨_, pollOnce_miss (hread.symm ▸ hval), hblock, fun he => absurd he hval, by simp⟩

theorem status_busyBit (s : State) : (statusWord s).getLsbD 8 = busy s := by
  have hp : s.phase.toNat < 2 ^ 3 := s.phase.isLt
  have ht : s.target.toNat < 2 ^ 3 := s.target.isLt
  have hbusy := (busy s).toNat_le
  rw [Bool.eq_iff_iff, getLsbD_eq_decide, decide_eq_true_eq, ← Bool.toNat_eq_one, statusWord_toNat]
  omega

/-- BUSY is the bit of STATUS that WAIT looks at (R26, R80). -/
theorem status_and_busyMask (s : State) : busRead 0x0C#12 s &&& 0x00000100#32 = 0#32 ↔ busy s = false := by
  have hstatus : busRead 0x0C#12 s = statusWord s := rfl
  have hmask : (0x00000100#32).toNat = 2 ^ 8 := rfl
  rw [hstatus, BitVec.toNat_eq, BitVec.toNat_and, hmask, Nat.and_two_pow, BitVec.testBit_toNat, status_busyBit]
  simp

/-! ### The delay of the pending stage -/

@[simp] theorem pendingDelay_setDelay (d : Nat) (s : State) : pendingDelay (setDelay d s) = d := rfl

@[simp] theorem pendingDelay_setOps (ops : List HostOp) (s : State) : pendingDelay (setOps ops s) = pendingDelay s := rfl

theorem pendingDelay_takeOp (hb : busy s = true) (rest : List HostOp) : pendingDelay (takeOp rest s) = pendingDelay s - 1 := by
  simp [takeOp, hb]

theorem takeOp_delays_of_cons {d : Nat} {ds : List Nat} (hb : busy s = true) (hd : s.agents.delays = (d + 1) :: ds) :
    (takeOp rest s).agents.delays = d :: ds := by
  simp [takeOp, hb, pendingDelay, hd]

@[simp] theorem busy_pushCommand (w : Word) (s : State) : busy (pushCommand w s) = busy s := by
  unfold pushCommand
  split <;> rfl

theorem pendingDelay_pushCommand (hb : busy s = true) (w : Word) : pendingDelay (pushCommand w s) = pendingDelay s + 1 := by
  simp [pushCommand, hb]

theorem pushCommand_vars (w : Word) (s : State) : (pushCommand w s).agents.vars = s.agents.vars := by
  unfold pushCommand
  split <;> rfl

theorem pushCommand_hostsTurn (w : Word) (s : State) : hostsTurn (pushCommand w s) (.write 32 0x08#12 w) s.agents.ops := by
  refine ⟨?_, fun hb => ?_⟩
  · unfold pushCommand
    split <;> rfl
  · rw [busy_pushCommand] at hb
    rw [pendingDelay_pushCommand hb]
    omega

theorem pushCommand_sameBlock (w : Word) (s : State) : sameBlock s (pushCommand w s) := by
  unfold pushCommand sameBlock
  split <;> rfl

theorem sameBlock_trans (h : sameBlock s t) (h' : sameBlock t u) : sameBlock s u := by
  unfold sameBlock at *
  rw [← h, ← h']

theorem sameBlock_inCap (h : sameBlock s t) : t.inCap = s.inCap := by
  unfold sameBlock at h
  rw [← h]

theorem decode_of_decodeTableWord {n : Nat} (h : decodeTableWord 32 n = some i) : decode (BitVec.ofNat 32 n) = .command i := by
  unfold decodeTableWord at h
  split at h
  · cases hd : decode (BitVec.ofNat 32 n) with
    | command j => simpa [hd, Decoded.toOption] using h
    | malformed why => simp [hd, Decoded.toOption] at h
  · cases h

theorem runCommand_of_decode (h : decode w = .command i) (s : State) : runCommand w s = exec i s := by
  rw [runCommand, h]

/-- No access of the host writes IN_CAP or the delay: it is the taking of it that counts the delay down. -/
theorem hostAccess_keeps (h : hostAccess op s = .next t) : t.inCap = s.inCap ∧ pendingDelay t = pendingDelay s := by
  cases hostAccess_effect h with
  | command off v w t ho hc => cases hc <;> exact ⟨rfl, rfl⟩
  | outPtr | bind | again | reset => exact ⟨rfl, rfl⟩

theorem runSteps_succ (k : Nat) (h : step s = .next t) : runSteps (k + 1) s = runSteps k t := by rw [runSteps, h]

theorem runSteps_one (s : State) : runSteps 1 s = step s := by
  rw [runSteps]
  cases step s <;> rfl

theorem runSteps_one_of_refused (h : step s = .refused r) : runSteps 1 s = .refused r := by rw [runSteps_one, h]

/-- R67: each access of the host counts the delay down, so that the engine's turn comes unless a refusal or the host ends the run. -/
theorem pending_stage_comes (d : Nat) : ∀ s : State, Config.legalInCap s.inCap = true → busy s = true → pendingDelay s = d →
    ∃ k, k ≤ d ∧ ((∃ t, runSteps k s = .next t ∧ (busy t = false ∨ enginesTurn t)) ∨ ∃ r, runSteps k s = .refused r) := by
  induction d with
  | zero => exact fun s _ hb hd => ⟨0, le_rfl, .inl ⟨s, rfl, .inr ⟨hb, .inr hd⟩⟩⟩
  | succ d ih =>
    intro s hl hb hd
    rcases turn_cases s with ⟨hidle, -⟩ | hengine | ⟨op, rest, hhost⟩
    · rw [hb] at hidle; cases hidle
    · exact ⟨0, by omega, .inl ⟨s, rfl, .inr hengine⟩⟩
    · have hstep := step_of_hostsTurn hl hhost
      cases haccess : hostAccess op (takeOp rest s) with
      | fault f => exact absurd haccess (hostAccess_ne_fault op _ f)
      | refused r => exact ⟨1, by omega, .inr ⟨r, runSteps_one_of_refused (hstep.trans haccess)⟩⟩
      | next t =>
        obtain ⟨hcap, hdelay⟩ := hostAccess_keeps haccess
        rw [pendingDelay_takeOp hb, hd] at hdelay
        rw [takeOp_inCap] at hcap
        have hrun (k : Nat) : runSteps (k + 1) s = runSteps k t := runSteps_succ k (hstep.trans haccess)
        cases hbt : busy t with
        | false => exact ⟨1, by omega, .inl ⟨t, hrun 0, .inl hbt⟩⟩
        | true =>
          obtain ⟨k, hk, hend⟩ := ih t (hcap ▸ hl) hbt hdelay
          exact ⟨k + 1, by omega, hrun k ▸ hend⟩

end Sys2Proof.Machine

namespace Sys2Proof.Proofs

open Machine

/-- Settles O10: the step binds the word that is read and touches the agents' data only, which no read looks at. -/
theorem readHasNoSideEffect : Obligations.ReadHasNoSideEffect := by
  unfold Obligations.ReadHasNoSideEffect
  intro s off rest hl hoff ht
  have hblock : sameBlock s (bindVar (busRead off s) (takeOp rest s)) := takeOp_sameBlock rest s
  exact ⟨_, step_of_read hl hoff ht, hblock, by simp, by simp, busRead_congr hblock⟩

/-- Settles O26: one of the three is the case, and taking a turn touches the agents' data only. -/
theorem theAgentWhoseTurnItIsMoves : Obligations.TheAgentWhoseTurnItIsMoves := by
  unfold Obligations.TheAgentWhoseTurnItIsMoves
  exact fun s hl => ⟨fun op rest ht => ⟨step_of_hostsTurn hl ht, takeOp_sameBlock rest s, takeOp_agents_ops rest s⟩,
    fun ht => ⟨step_of_enginesTurn hl ht, rfl, rfl⟩, step_of_idle hl, turn_cases s⟩

/-- Settles O59: one turn of the loop, and for WAIT the bit of STATUS that its mask selects. -/
theorem waitEndsWhenNotBusy : Obligations.WaitEndsWhenNotBusy := by
  unfold Obligations.WaitEndsWhenNotBusy
  refine ⟨fun s off mask val rest hl hoff ht => step_of_poll_cases hl hoff ht, fun s rest hl ht => ?_⟩
  obtain ⟨t, hstep, hblock, hhit, hmiss⟩ := step_of_poll_cases (off := 0x0C#12) hl rfl ht
  refine ⟨t, hstep, hblock, fun hb => hhit ((status_and_busyMask s).2 hb), fun hb => hmiss fun hzero => ?_⟩
  rw [(status_and_busyMask s).1 hzero] at hb
  cases hb

/-- Settles O30: the pending delay is the bound. -/
theorem pendingStageIsNotPostponedForever : Obligations.PendingStageIsNotPostponedForever := by
  unfold Obligations.PendingStageIsNotPostponedForever
  exact fun s hl hb => pending_stage_comes (pendingDelay s) s hl hb rfl

/-- Settles O22: reset does what CLEAR does, to the state whose host has it behind it. -/
theorem resetIsClearInAnyState : Obligations.ResetIsClearInAnyState := by
  unfold Obligations.ResetIsClearInAnyState
  intro s rest hl ht
  refine ⟨_, step_of_reset hl ht, ?_, by simp, by simp⟩
  rw [clearJob, takeOp_inCap]

/-- Settles O23: the write to CMD runs the decoded command. -/
theorem stepRunsTheDecodedCommand : Obligations.StepRunsTheDecodedCommand := by
  unfold Obligations.StepRunsTheDecodedCommand
  exact fun s w i rest hl ht hd => ⟨(step_of_command hl ht).trans (runCommand_of_decode hd _), takeOp_sameBlock rest s,
    takeOp_agents_ops rest s, takeOp_agents_vars rest s, busy_takeOp rest s⟩

/-- Settles O24: the push gives the host the turn, busy or not, and its own access pays for the delay it adds. -/
theorem pushedCommandRunsNext : Obligations.PushedCommandRunsNext := by
  unfold Obligations.PushedCommandRunsNext
  intro s n i hl hd
  have hpushed := pushCommand_sameBlock (BitVec.ofNat 32 n) s
  refine ⟨takeOp s.agents.ops (pushCommand (BitVec.ofNat 32 n) s), ?_, sameBlock_trans hpushed (takeOp_sameBlock _ _),
    takeOp_agents_ops _ _, ?_, fun hb => ?_⟩
  · exact (step_of_command (sameBlock_inCap hpushed ▸ hl) (pushCommand_hostsTurn _ s)).trans
      (runCommand_of_decode (decode_of_decodeTableWord hd) _)
  · rw [takeOp_agents_vars, pushCommand_vars]
  · rw [pendingDelay_takeOp (by simpa using hb), pendingDelay_pushCommand hb, Nat.add_sub_cancel]

/-- Settles O27: the delay in front decides the turn, and the turn that is taken uses it up or counts it down. -/
theorem eitherAgentMayMoveFirst : Obligations.EitherAgentMayMoveFirst := by
  unfold Obligations.EitherAgentMayMoveFirst
  intro s op rest ds d hb hops
  exact ⟨⟨hb, .inr rfl⟩, rfl, ⟨hops, fun _ => Nat.succ_ne_zero d⟩, takeOp_delays_of_cons hb rfl⟩

end Sys2Proof.Proofs
end

section
/-! What the commands other than CLEAR can do and leave (R81 to R86). -/

namespace Sys2Proof.Machine

variable {s t : State} {i : Instr} {off : Offset} {p : BitVec 3}

theorem ne_error_of_le_four (h4 : p.toNat ≤ 4) : p ≠ 7#3 := by
  rintro rfl
  exact absurd h4 (by decide)

theorem exec_start_of_idle (hb : busy s = false) (h4 : s.phase.toNat ≤ 4) : exec .start s = .next { s with target := 5#3 } := by
  simp [exec_start, ne_error_of_le_four h4, hb, h4]

theorem exec_step_of_idle (hb : busy s = false) (h4 : s.phase.toNat ≤ 4) :
    exec .step s = .next { s with target := s.phase + 1#3 } := by
  simp [exec_step, ne_error_of_le_four h4, hb, h4]

theorem busy_target_update (h4 : s.phase.toNat ≤ 4) (ht : s.phase.toNat < p.toNat) : busy { s with target := p } = true :=
  (busy_iff _).2 ⟨ne_error_of_le_four h4, ht⟩

/-- Of the registers only STATUS shows the target. -/
theorem busRead_target_update (p : BitVec 3) (hstatus : off ≠ 0x0C#12) : busRead off { s with target := p } = busRead off s := by
  refine busRead_of_readReg fun r hr => ?_
  cases r with
  | status => exact absurd hr hstatus
  | _ => rfl

/-- What a command other than CLEAR answers: the same state, an error entry, or outside phase ERROR a loaded symbol or a new target. -/
inductive ExecCase (i : Instr) (s : State) : State → Prop
  | same : ExecCase i s s
  | error (e : ErrorCode) (w : Word) : ExecCase i s (errorEntry e 0#3 w s)
  | load (cp : Symbol) (hi : i = .loadSym cp) (h7 : s.phase ≠ 7#3) : ExecCase i s { s with input := s.input ++ [cp] }
  | target (p : BitVec 3) (h7 : s.phase ≠ 7#3) : ExecCase i s { s with target := p }

theorem exec_cases (hi : i ≠ .clear) (h : exec i s = .next t) : ExecCase i s t := by
  cases i with
  | clear => exact absurd rfl hi
  | nop => cases h; exact .same
  | loadSym cp =>
    rw [exec_loadSym] at h
    obtain rfl := Host.Outcome.next.inj h
    split_ifs with h7
    exacts [.same, .error _ _, .error _ _, .error _ _, .error _ _, .load cp rfl h7]
  | start =>
    rw [exec_start] at h
    obtain rfl := Host.Outcome.next.inj h
    split_ifs with h7
    exacts [.same, .error _ _, .error _ _, .target _ h7]
  | step =>
    rw [exec_step] at h
    obtain rfl := Host.Outcome.next.inj h
    split_ifs with h7
    exacts [.same, .error _ _, .error _ _, .target _ h7]

end Sys2Proof.Machine

namespace Sys2Proof.Proofs

open Machine

/-- Settles O16: the checks of START pass, and of the registers only STATUS shows the target. -/
theorem startCompletes : Obligations.StartCompletes := by
  unfold Obligations.StartCompletes
  exact fun s hb h4 => ⟨exec_start_of_idle hb h4, busy_target_update h4 (Nat.lt_succ_of_le h4), fun off => busRead_target_update _⟩

/-- Settles O17: the checks of STEP pass, and the phase plus 1 does not wrap. -/
theorem stepCommandCompletes : Obligations.StepCommandCompletes := by
  unfold Obligations.StepCommandCompletes
  intro s hb h4
  have hnext := phase_add_one h4
  exact ⟨_, exec_step_of_idle hb h4, rfl, hnext, busy_target_update h4 (by omega), fun off => busRead_target_update _⟩

/-- Settles O19: each of the four things such a command can do keeps the frame. -/
theorem commandFrame : Obligations.CommandFrame := by
  unfold Obligations.CommandFrame
  intro i s t hi h
  cases exec_cases hi h with
  | same => simp
  | error e w => simp
  | load cp hcp h7 => simp [hcp, h7]
  | target p h7 => simp [h7]

end Sys2Proof.Proofs
end

section
/-! The engine's step (R92, R93): the frame of a stage that succeeds, what no stage reads, and stage 1 (R94, R95). -/

namespace Sys2Proof.Machine

variable {s t u : State} {k : Nat} {f : Fault} {e : ErrorCode} {input : List Symbol}

theorem ofNat_phase_succ_toNat (hk : k ≤ 4) : (BitVec.ofNat 3 (k + 1)).toNat = k + 1 := by
  rw [BitVec.toNat_ofNat]
  omega

theorem engineStep_of_commit (hk : s.phase.toNat + 1 = k) (h : runStage k s = .commit u) :
    engineStep s = .next { u with phase := BitVec.ofNat 3 k } := by rw [engineStep, hk, h]

theorem engineStep_of_raised (hk : s.phase.toNat + 1 = k) (h : runStage k s = .raised e) :
    engineStep s = .next (errorEntry e (BitVec.ofNat 3 k) 0#32 s) := by rw [engineStep, hk, h]

theorem engineStep_of_stuck (hk : s.phase.toNat + 1 = k) (h : runStage k s = .stuck f) : engineStep s = .fault f := by
  rw [engineStep, hk, h]

/-- Each stage keeps the stores of the others (R92). -/
theorem otherStoresKept_of_commit (h : runStage k s = .commit u) (p : BitVec 3) : otherStoresKept k s { u with phase := p } := by
  rcases runStage_commit h with ⟨rfl, rfl⟩ | ⟨rfl, -, rfl⟩ | ⟨rfl, _, _, -, -, rfl⟩ | ⟨rfl, -, _, -, -, rfl⟩ | ⟨rfl, -, rfl⟩
  · simp [otherStoresKept]
  · simp [otherStoresKept]
  · simp [otherStoresKept]
  · simp [otherStoresKept]
  · simp [otherStoresKept]

/-- An answer whose next state is changed by `g`. -/
def mapNext (g : State → State) : Result → Result
  | .next t => .next (g t)
  | .fault f => .fault f
  | .refused r => .refused r

section Update

/-! No stage reads the target, OUT_PTR or the agents, so the engine's step passes them by; an error writes the target. -/

variable (tg : BitVec 3) (v : Word) (a : Agents)

theorem engineStep_update_of_commit (h : runStage (s.phase.toNat + 1) s = .commit u) :
    engineStep { s with target := tg, outPtr := v, agents := a }
      = .next { u with target := tg, outPtr := v, agents := a, phase := BitVec.ofNat 3 (s.phase.toNat + 1) } := by
  have hstage := runStage_update (s.phase.toNat + 1) s tg v a
  rw [h] at hstage
  exact engineStep_of_commit (s := { s with target := tg, outPtr := v, agents := a }) rfl hstage

theorem engineStep_update_of_raised (h : runStage (s.phase.toNat + 1) s = .raised e) :
    engineStep { s with target := tg, outPtr := v, agents := a }
      = .next (errorEntry e (BitVec.ofNat 3 (s.phase.toNat + 1)) 0#32 { s with outPtr := v, agents := a }) := by
  have hstage := runStage_update (s.phase.toNat + 1) s tg v a
  rw [h] at hstage
  exact engineStep_of_raised rfl hstage

theorem engineStep_update_of_stuck (h : runStage (s.phase.toNat + 1) s = .stuck f) :
    engineStep { s with target := tg, outPtr := v, agents := a } = .fault f := by
  have hstage := runStage_update (s.phase.toNat + 1) s tg v a
  rw [h] at hstage
  exact engineStep_of_stuck rfl hstage

end Update

theorem engineStep_outPtr_update (s : State) (v : Word) :
    engineStep { s with outPtr := v } = mapNext (fun t => { t with outPtr := v }) (engineStep s) := by
  cases hstage : runStage (s.phase.toNat + 1) s with
  | commit u =>
    obtain ⟨-, -, -, htarget, -, -, -, hagents, -⟩ := otherStoresKept_of_commit hstage u.phase
    refine (engineStep_update_of_commit s.target v s.agents hstage).trans ?_
    rw [engineStep_of_commit rfl hstage, ← htarget, ← hagents]
    rfl
  | raised e =>
    rw [engineStep_of_raised rfl hstage]
    exact engineStep_update_of_raised s.target v s.agents hstage
  | stuck f =>
    rw [engineStep_of_stuck rfl hstage]
    exact engineStep_update_of_stuck s.target v s.agents hstage

/-- Stage 1 (R94). -/
theorem engineStep_count (hp : s.phase = 0#3) : engineStep s
    = .next { s with phase := 1#3, freq := jobFreq s.input, symCount := BitVec.ofNat 32 (jobFreq s.input).length } := by
  simp [engineStep, runStage, countStage, hp, jobFreq]

theorem countSymbols_count_pos : ∀ e ∈ countSymbols input, 1 ≤ e.count := by
  intro e he
  rw [countSymbols_count input e he]
  exact List.count_pos_iff.2 ((mem_countSymbols_syms input e.sym).1 (List.mem_map_of_mem he))

/-- The entries stand in the order of first occurrence (R95). -/
theorem countSymbols_firstOccurrence (input : List Symbol) :
    ((countSymbols input).map (·.sym)).Pairwise fun a b => input.idxOf a < input.idxOf b := by
  induction input using List.reverseRecOn with
  | nil => simp
  | append_singleton l d ih =>
    have hidx {a : Symbol} (ha : a ∈ (countSymbols l).map (·.sym)) : (l ++ [d]).idxOf a = l.idxOf a :=
      List.idxOf_append_of_mem ((mem_countSymbols_syms l a).1 ha)
    have hold : ((countSymbols l).map (·.sym)).Pairwise fun a b => (l ++ [d]).idxOf a < (l ++ [d]).idxOf b :=
      ih.imp_of_mem fun ha hb hab => by rwa [hidx ha, hidx hb]
    rw [countSymbols_concat, countSymbol_syms]
    split
    · exact hold
    · rename_i hd
      refine List.pairwise_append.2 ⟨hold, List.pairwise_singleton _ d, fun a ha b hb => ?_⟩
      obtain rfl := List.mem_singleton.1 hb
      have hnew : b ∉ l := fun hmem => hd ((mem_countSymbols_syms l b).2 hmem)
      rw [hidx ha, List.idxOf_append_of_notMem hnew]
      exact Nat.lt_add_right _ (List.idxOf_lt_length_of_mem ((mem_countSymbols_syms l a).1 ha))

end Sys2Proof.Machine

namespace Sys2Proof.Proofs

open Machine

/-- Settles O25: the stage's writes and the phase land together, or the error entry is all that happens. -/
theorem engineStepPerformsOneStage : Obligations.EngineStepPerformsOneStage := by
  unfold Obligations.EngineStepPerformsOneStage
  intro s hb h4
  exact ⟨fun u hu => ⟨_, engineStep_of_commit rfl hu, ofNat_phase_succ_toNat h4, rfl, otherStoresKept_of_commit hu _⟩,
    fun e he => ⟨_, engineStep_of_raised rfl he, rfl, ofNat_phase_succ_toNat h4⟩⟩

/-- Settles O29: the engine's step passes OUT_PTR by. -/
theorem stagesDoNotReadOutPtr : Obligations.StagesDoNotReadOutPtr := by
  unfold Obligations.StagesDoNotReadOutPtr
  exact fun s v => ⟨fun t h => by rw [engineStep_outPtr_update, h]; rfl, fun f h => by rw [engineStep_outPtr_update, h]; rfl⟩

/-- Settles O33: stage 1 commits the table of the input, and the scan keeps each property of the table. -/
theorem countBuildsTheFrequencyTable : Obligations.CountBuildsTheFrequencyTable := by
  unfold Obligations.CountBuildsTheFrequencyTable
  intro s hp
  refine ⟨_, engineStep_count hp, rfl, rfl, countSymbols_nodup s.input, mem_countSymbols_syms s.input,
    fun e he => ⟨countSymbols_count s.input e he, countSymbols_count_pos e he⟩, countSymbols_sum s.input,
    countSymbols_firstOccurrence s.input, rfl, ?_⟩
  exact otherStoresKept_of_commit (k := 1) (s := s) rfl 1#3

end Sys2Proof.Proofs
end

section
/-! The order that the stable sort leaves (R18): descending, and of equal keys the one that stood first stays first. So a merge round
(R96 to R99) takes the last of the lightest. -/

namespace Sys2Proof.Machine

variable {key : Nat → Nat} {l : List Nat} {f : Forest}

theorem pairwise_idxOf_lt (hn : l.Nodup) : l.Pairwise fun a b => l.idxOf a < l.idxOf b :=
  List.pairwise_iff_getElem.2 fun i j hi hj hij => by rwa [hn.idxOf_getElem i hi, hn.idxOf_getElem j hj]

/-- Elements of equal keys stand in the sorted list as they stood in the list (R18). -/
theorem stableSortDesc_ties (hn : l.Nodup) :
    (stableSortDesc key l).Pairwise fun a b => key a = key b → l.idxOf a < l.idxOf b := by
  refine List.pairwise_iff_forall_sublist.2 fun {a b} hab hkey => ?_
  have hclass : ((stableSortDesc key l).filter fun c => key c == key b).Pairwise fun a b => l.idxOf a < l.idxOf b := by
    rw [stableSortDesc_filter]
    exact (pairwise_idxOf_lt hn).filter _
  exact List.pairwise_iff_forall_sublist.1 (List.pairwise_filter.1 hclass) hab (by simpa using hkey) (by simp)

/-- `a` is the last of the lightest in `l`: nothing else in it is lighter, or as light and further back. -/
def lastLightest (key : Nat → Nat) (l : List Nat) (a z : Nat) : Prop := key a ≤ key z ∧ (key z = key a → l.idxOf z ≤ l.idxOf a)

/-- Everything that the sort puts in front of an element is heavier, or as heavy and stood in front of it before. -/
theorem stableSortDesc_lastLightest (hn : l.Nodup) : (stableSortDesc key l).Pairwise fun z a => lastLightest key l a z :=
  ((stableSortDesc_sorted key l).and (stableSortDesc_ties hn)).imp fun ⟨hle, hties⟩ => ⟨hle, fun heq => (hties heq).le⟩

theorem lastLightest_self (a : Nat) : lastLightest key l a a := ⟨le_rfl, fun _ => le_rfl⟩

end Sys2Proof.Machine

namespace Sys2Proof.Proofs

open Machine

/-- Settles O35: x and y are the last two of the sorted collection, and nothing in front of either is lighter or a later tie. -/
theorem mergeRoundTakesTheTwoLightest : Obligations.MergeRoundTakesTheTwoLightest := by
  unfold Obligations.MergeRoundTakesTheTwoLightest
  intro f hwork hn
  obtain ⟨x, y, rest, hsort, hround⟩ := mergeRound_eq hwork
  have hperm : (rest ++ [y, x]).Perm f.work := hsort ▸ stableSortDesc_perm _ _
  have horder := stableSortDesc_lastLightest (key := freqAt f.nodes) hn
  have hdesc := stableSortDesc_sorted (freqAt f.nodes) f.work
  rw [hsort, List.pairwise_append] at horder hdesc
  obtain ⟨-, hyx, hrest⟩ := horder
  obtain ⟨hrestDesc, -, -⟩ := hdesc
  have hmem (z : Nat) (hz : z ∈ f.work) : z ∈ rest ∨ z = y ∨ z = x := by simpa using hperm.mem_iff.2 hz
  refine ⟨x, y, rest, hsort.symm, hperm, hrestDesc, fun z hz => ?_, fun z hz hne => ?_, ?_, ?_⟩
  · rcases hmem z hz with hz | rfl | rfl
    · exact hrest z hz x (by simp)
    · exact List.rel_of_pairwise_cons hyx (by simp)
    · exact lastLightest_self z
  · rcases hmem z hz with hz | rfl | rfl
    · exact hrest z hz y (by simp)
    · exact lastLightest_self z
    · exact absurd rfl hne
  · rw [hround]
  · rw [hround]

end Sys2Proof.Proofs
end

section
/-! Packing (R116, R117) and the exact length of the bit string (R114). -/

namespace Sys2Proof.Machine

theorem length_lt_four_of_no_chunk {bits : List Bool} (h : ∀ a b c d rest, bits = a :: b :: c :: d :: rest → False) :
    bits.length < 4 := by
  rcases bits with _ | ⟨a, _ | ⟨b, _ | ⟨c, _ | ⟨d, rest⟩⟩⟩⟩
  · simp
  · simp
  · simp
  · simp
  · exact (h a b c d rest rfl).elim

theorem packBits_length (bits : List Bool) : (packBits bits).length = bits.length / 4 := by
  induction bits using packBits.induct with
  | case1 a b c d rest ih =>
    simp only [packBits, List.length_cons, ih]
    omega
  | case2 bits hshort =>
    rw [packBits, List.length_nil, Nat.div_eq_of_lt (length_lt_four_of_no_chunk hshort)]
    exact hshort

/-- The byte of four bits is 8, 4, 2, 1 times them (R63). -/
theorem packedByte_toNat (a b c d : Bool) :
    (BitVec.ofNat 8 (numOf [a, b, c, d])).toNat = 8 * a.toNat + 4 * b.toNat + 2 * c.toNat + d.toNat := by
  have hfit : numOf [a, b, c, d] < 2 ^ 4 := numOf_lt_two_pow [a, b, c, d]
  rw [BitVec.toNat_ofNat, Nat.mod_eq_of_lt (by omega)]
  simp only [numOf, List.foldl_cons, List.foldl_nil]
  omega

theorem packBits_getElem? (bits : List Bool) : ∀ (m : Nat) (h : 4 * m + 3 < bits.length), ((packBits bits)[m]?).map BitVec.toNat
    = some (8 * (bits[4 * m]).toNat + 4 * (bits[4 * m + 1]).toNat + 2 * (bits[4 * m + 2]).toNat + (bits[4 * m + 3]).toNat) := by
  induction bits using packBits.induct with
  | case1 a b c d rest ih =>
    intro m h
    cases m with
    | zero => simpa [packBits] using packedByte_toNat a b c d
    | succ m =>
      have hrest := ih m (by simp only [List.length_cons] at h; omega)
      simpa [packBits, Nat.mul_add] using hrest
  | case2 bits hshort =>
    have hlt := length_lt_four_of_no_chunk hshort
    intro m h
    omega

end Sys2Proof.Machine

namespace Sys2Proof.Proofs

open Machine

/-- Settles O45: one byte a chunk, by induction along the chunks. -/
theorem packMakesOneBytePerFourBits : Obligations.PackMakesOneBytePerFourBits := by
  unfold Obligations.PackMakesOneBytePerFourBits
  exact fun bits => ⟨packBits_length bits, packBits_byte_le bits, packBits_getElem? bits⟩

/-- Settles O43: header, entries and body of a job's bit string. -/
theorem bitStringLength : Obligations.BitStringLength := by
  unfold Obligations.BitStringLength
  exact fun input codes bits hc hb => ⟨jobBits_length hc hb, jobBits_length_mod_four hc hb⟩

end Sys2Proof.Proofs
end

section
/-! A job's code table is what the paths of one tree write (R104): every slot has its path, every symbol of the input its code, and
stage 3 finds what it reads. -/

namespace Sys2Proof.Machine

variable {input : List Symbol} {codes : List CodeEntry} {t : HTree} {s : State} {j : Nat} {q : List Bool}

/-- `t` is the tree that stage 2 builds for the input, and `codes` is what its paths write (R96, R104). -/
structure IsCodeTree (input : List Symbol) (codes : List CodeEntry) (t : HTree) : Prop where
  root : Grows (jobTree input).nodes (2 * (jobFreq input).length - 2) t
  slots : t.slots.Perm (List.range (jobFreq input).length)
  codes_eq : codes = applyPaths (t.paths []) (emptyCodes (jobFreq input))

theorem input_ne_nil_of_jobCodes (h : jobCodes input = some codes) : input ≠ [] := by
  rintro rfl
  rw [jobCodes_nil] at h
  cases h

theorem exists_isCodeTree (h : jobCodes input = some codes) : ∃ t, IsCodeTree input codes t := by
  obtain ⟨t, hroot, hslots, hcodes⟩ := jobCodes_eq (input_ne_nil_of_jobCodes h)
  exact ⟨t, hroot, hslots, Option.some.inj (h.symm.trans hcodes)⟩

theorem exists_jobCodes (h : input ≠ []) : ∃ codes, jobCodes input = some codes := by
  obtain ⟨t, -, -, hcodes⟩ := jobCodes_eq h
  exact ⟨_, hcodes⟩

theorem jobFreq_ne_nil (h : input ≠ []) : jobFreq input ≠ [] := fun hf => h ((countSymbols_eq_nil input).1 hf)

theorem jobTree_work (h : input ≠ []) : (jobTree input).work = [2 * (jobFreq input).length - 2] :=
  buildTree_work (jobFreq_ne_nil h)

theorem jobCodes_length (h : jobCodes input = some codes) : codes.length = (jobFreq input).length := by
  simpa using congrArg List.length (jobCodes_syms h)

theorem jobCodes_syms_nodup (h : jobCodes input = some codes) : (codes.map (·.sym)).Nodup := by
  rw [jobCodes_syms h]
  exact countSymbols_nodup input

/-- The path of a leaf is the code of its slot. -/
theorem IsCodeTree.code_of_mem_paths (ht : IsCodeTree input codes t) (h : (j, q) ∈ t.paths []) : (codes[j]?).map (·.code) = some q := by
  have hslots : ((t.paths []).map (·.1)).Perm (List.range (jobFreq input).length) := by
    rw [HTree.paths_slots]
    exact ht.slots
  have hj : j < (jobFreq input).length := List.mem_range.1 (hslots.mem_iff.1 (List.mem_map_of_mem h))
  rw [ht.codes_eq]
  exact applyPaths_code _ _ j q (hslots.nodup_iff.2 List.nodup_range) h (by simpa [emptyCodes] using hj)

/-- Every slot is a leaf's, and its code is that leaf's path. -/
theorem IsCodeTree.mem_paths (ht : IsCodeTree input codes t) (hj : j < codes.length) : (j, codes[j].code) ∈ t.paths [] := by
  have hlen : codes.length = (jobFreq input).length := by simp [ht.codes_eq, emptyCodes]
  have hslot : j ∈ (t.paths []).map (·.1) := by
    rw [HTree.paths_slots, ht.slots.mem_iff, List.mem_range, ← hlen]
    exact hj
  obtain ⟨⟨i, q⟩, hq, rfl⟩ := List.mem_map.1 hslot
  have hcode : codes[i].code = q := by simpa [hj] using ht.code_of_mem_paths hq
  rw [hcode]
  exact hq

/-- Leaf j of the arena is the leaf of the symbol of slot j (R96). -/
theorem jobTree_leaf (h : jobCodes input = some codes) (hj : j < codes.length) :
    ∃ w, (jobTree input).nodes[j]? = some (.leaf codes[j].sym w) := by
  obtain ⟨ok, -⟩ := buildTree_ok (jobFreq_ne_nil (input_ne_nil_of_jobCodes h))
  have hj' : j < (jobFreq input).length := jobCodes_length h ▸ hj
  have hsym : codes[j].sym = (jobFreq input)[j].sym := by
    have hsyms := congrArg (·[j]?) (jobCodes_syms h)
    simpa [hj, hj'] using hsyms
  exact ⟨_, hsym ▸ ok.leaves j hj'⟩

theorem exists_bodyBits {l : List Symbol} (h : ∀ c ∈ l, ∃ b, codeOf codes c = some b) : ∃ b, bodyBits codes l = some b := by
  induction l with
  | nil => exact ⟨[], rfl⟩
  | cons c l ih =>
    obtain ⟨hc, hl⟩ := List.forall_mem_cons.1 h
    obtain ⟨b, hb⟩ := hc
    obtain ⟨body, hbody⟩ := ih hl
    exact ⟨b ++ body, by rw [bodyBits, hb, hbody]⟩

/-- R108: every symbol of the input has a code, so the body exists. -/
theorem exists_jobBody (h : jobCodes input = some codes) : ∃ body, bodyBits codes input = some body := by
  refine exists_bodyBits fun c hc => ?_
  have hmem : c ∈ codes.map (·.sym) := by
    rw [jobCodes_syms h]
    exact (mem_countSymbols_syms input c).2 hc
  obtain ⟨e, he, rfl⟩ := List.mem_map.1 hmem
  exact ⟨e.code, codeOf_of_mem (jobCodes_syms_nodup h) he⟩

theorem jobBits_eq {body : List Bool} (hc : jobCodes input = some codes) (hb : bodyBits codes input = some body) :
    jobBits input = some (headerBits codes ++ body) := by
  simp [jobBits, hc, hb]

theorem runStage_codes (h : jobCodes s.input = some codes) (hst : StoresAt 2 s) : runStage 3 s = .commit { s with codes := codes } := by
  obtain ⟨hfreq, -⟩ := hst.counted (by decide)
  obtain ⟨hnodes, hroot, -⟩ := hst.built rfl
  have hwork := jobTree_work (input_ne_nil_of_jobCodes h)
  have hfrom : codesFrom s.freq s.nodes (2 * (jobFreq s.input).length - 2) = some codes := by
    rw [hfreq, hnodes, ← h, jobCodes, hwork]
    rfl
  have hr : s.root = some (2 * (jobFreq s.input).length - 2) := by
    rw [hroot, hwork]
    rfl
  simp only [runStage, buildCodesStage, hr, hfrom]

theorem Inv.storesAt_of_phase (hi : Inv s) {p : BitVec 3} (hp : s.phase = p) (h7 : p ≠ 7#3) : StoresAt p.toNat s := by
  obtain ⟨-, hstores, -⟩ := hi.running (hp ▸ h7)
  exact hp ▸ hstores

/-- Stage 3 in a state that meets the invariant (R104). -/
theorem Inv.runStage_codes (hi : Inv s) (hp : s.phase = 2#3) :
    ∃ codes, jobCodes s.input = some codes ∧ runStage 3 s = .commit { s with codes := codes } := by
  have hst : StoresAt 2 s := hi.storesAt_of_phase hp (by decide)
  obtain ⟨codes, hc⟩ := exists_jobCodes (hst.loaded le_rfl)
  exact ⟨codes, hc, Machine.runStage_codes hc hst⟩

end Sys2Proof.Machine

namespace Sys2Proof.Proofs

open Machine

/-- Settles O38: the codes are the paths of the job's tree, and under the invariant stage 3 reads that tree. -/
theorem everyInputHasACodeTable : Obligations.EveryInputHasACodeTable := by
  unfold Obligations.EveryInputHasACodeTable
  refine ⟨fun input hne => ?_, fun s hi hp => ?_⟩
  · obtain ⟨codes, hc⟩ := exists_jobCodes hne
    obtain ⟨t, ht⟩ := exists_isCodeTree hc
    obtain ⟨body, hbody⟩ := exists_jobBody hc
    exact ⟨codes, _, _, hc, jobCodes_syms hc, jobBits_eq hc hbody, by rw [jobTree_work hne]; rfl,
      fun j hj => ⟨followBits_of_grows ht.root (ht.mem_paths hj), jobTree_leaf hc hj⟩⟩
  · obtain ⟨codes, hc, hstage⟩ := hi.runStage_codes hp
    obtain ⟨hfreq, -⟩ := (hi.storesAt_of_phase hp (by decide)).counted (by decide)
    have hk : s.phase.toNat + 1 = 3 := by rw [hp]; rfl
    refine ⟨_, engineStep_of_commit hk hstage, rfl, hc, ?_, otherStoresKept_of_commit hstage _⟩
    rw [hfreq]
    exact jobCodes_syms hc

end Sys2Proof.Proofs
end

section
/-! A job's code is full, no code of it begins another, and it costs least (R103, R107): the first two along the tree, the cost by the weight
that the rounds of stage 2 merge. -/

namespace Sys2Proof.Machine

variable {input : List Symbol} {codes : List CodeEntry} {t : HTree} {freq : List FreqEntry} {others : List (List Bool)} {M : Nat}

theorem prefixFree_perm {cs ds : List (List Bool)} (h : cs.Perm ds) : prefixFree cs ↔ prefixFree ds :=
  h.pairwise_iff fun ⟨hcd, hdc⟩ => ⟨hdc, hcd⟩

theorem prefixFree_map_cons (b : Bool) {cs : List (List Bool)} (h : prefixFree cs) : prefixFree (cs.map (b :: ·)) :=
  List.pairwise_map.2 (h.imp fun ⟨hcd, hdc⟩ => by simpa [List.cons_prefix_cons] using ⟨hcd, hdc⟩)

/-- Codes of different children differ in their first bit, and those of one child by induction behind it. -/
theorem HTree.prefixFree_codes (t : HTree) : prefixFree t.codes := by
  induction t with
  | leaf => exact List.pairwise_singleton _ _
  | node l r ihl ihr =>
    rw [HTree.codes_node]
    refine List.pairwise_append.2 ⟨prefixFree_map_cons false ihl, prefixFree_map_cons true ihr, fun c hc d hd => ?_⟩
    obtain ⟨c, -, rfl⟩ := List.mem_map.1 hc
    obtain ⟨d, -, rfl⟩ := List.mem_map.1 hd
    simp [List.cons_prefix_cons]

/-- Every internal node has both children, so Σ 2^(−ℓ) = 1. -/
theorem HTree.kraft_codes (t : HTree) : ∀ M, (∀ q ∈ t.codes, q.length ≤ M) → (t.codes.map fun q => 2 ^ (M - q.length)).sum = 2 ^ M := by
  induction t with
  | leaf => simp [HTree.codes_leaf]
  | node l r ihl ihr =>
    intro M hM
    simp only [HTree.codes_node, List.forall_mem_append, List.forall_mem_map, List.length_cons] at hM
    obtain ⟨hl, hr⟩ := hM
    obtain ⟨q, hq⟩ := List.exists_mem_of_length_pos l.codes_length_pos
    obtain ⟨M, rfl⟩ : ∃ m, M = m + 1 := ⟨M - 1, by have := hl q hq; omega⟩
    have hleft := ihl M fun q hq => Nat.le_of_succ_le_succ (hl q hq)
    have hright := ihr M fun q hq => Nat.le_of_succ_le_succ (hr q hq)
    simp only [HTree.codes_node, List.map_append, List.map_map, Function.comp_def, List.length_cons, Nat.add_sub_add_right,
      List.sum_append, hleft, hright]
    rw [pow_succ, mul_two]

/-- Slot by slot, the count of the entry with the length of the code (R107). -/
def countsAndLengths (freq : List FreqEntry) (cs : List (List Bool)) : List (Nat × Nat) := (freq.map (·.count)).zip (cs.map List.length)

theorem codeCost_eq_pairCost (freq : List FreqEntry) (cs : List (List Bool)) : codeCost freq cs = pairCost (countsAndLengths freq cs) := by
  simp [codeCost, pairCost, countsAndLengths, List.zip, List.map_zipWith, List.zipWith_map]

/-- Codes of which none begins another cost at least what the rounds merge. -/
theorem mergedWeight_le_codeCost (hlen : others.length = freq.length) (hp : prefixFree others) :
    mergedWeight freq.length (leafForest freq) ≤ codeCost freq others := by
  have hmax : ∀ l ∈ others.map List.length, l ≤ (others.map List.length).sum := fun l hl => List.le_sum_of_mem hl
  have hcounts : (countsAndLengths freq others).map (·.1) = freq.map (·.count) := List.map_fst_zip (by simp [hlen])
  have hlengths : (countsAndLengths freq others).map (·.2) = others.map List.length := List.map_snd_zip (by simp [hlen])
  rw [codeCost_eq_pairCost]
  refine mergedWeight_le freq.length (leafForest_ok freq) (others.map List.length).sum (countsAndLengths freq others) ?_ ?_ ?_
  · rw [hcounts, ← (leafForest_ok freq).freqAt_slots]
    exact .refl _
  · rwa [hlengths]
  · rw [hlengths, kraftSum, List.map_map]
    exact kraft_of_prefixFree _ others hp fun c hc => hmax _ (List.mem_map_of_mem hc)

theorem mergeSum_of_leafForest {k : Nat} (g : Grows (leafForest freq).nodes k t) : t.mergeSum = 0 := by
  cases g with
  | leaf => rfl
  | node h => simp [leafForest] at h

/-- The root of the tree carries all that the rounds have merged. -/
theorem mergeSum_eq_mergedWeight (hf : freq ≠ []) (g : Grows (buildTree freq).nodes (2 * freq.length - 2) t) :
    t.mergeSum = mergedWeight freq.length (leafForest freq) := by
  obtain ⟨ok, -⟩ := buildTree_ok hf
  obtain ⟨T', hT', -⟩ := ok.trees
  obtain ⟨T, hT, -⟩ := (leafForest_ok freq).trees
  have hroot : T' (2 * freq.length - 2) = t := (hT' _ g.lt).unique _ g
  have hleaves : ((leafForest freq).work.map fun k => (T k).mergeSum).sum = 0 := by
    refine List.sum_eq_zero fun v hv => ?_
    obtain ⟨k, hk, rfl⟩ := List.mem_map.1 hv
    exact mergeSum_of_leafForest (hT k ((leafForest_ok freq).inArena k hk))
  have htotal : ((buildTree freq).work.map fun k => (T' k).mergeSum).sum = _ :=
    mergeSum_total freq.length (leafForest_ok freq) T T' hT hT'
  simpa [buildTree_work hf, hroot, hleaves] using htotal

/-- The weight of leaf `j` times the length of the code of slot `j`. -/
def slotCost (nodes : List Node) (codes : List CodeEntry) (j : Nat) : Nat :=
  freqAt nodes j * (((codes[j]?).map (·.code)).getD []).length

theorem codeCost_eq_sum_slotCost {f : Forest} (ok : ForestOk freq f) (hlen : codes.length = freq.length) :
    codeCost freq (codes.map (·.code)) = ((List.range freq.length).map (slotCost f.nodes codes)).sum := by
  rw [codeCost]
  congr 1
  apply List.ext_getElem
  · simp [hlen]
  · intro j hj _
    have hj : j < freq.length := by
      rw [List.length_zipWith] at hj
      omega
    simp [slotCost, freqAt, ok.leaves j hj, nodeWeight, hlen, hj]

/-- The cost of the job's table is the sum of weight times depth over the leaves. -/
theorem IsCodeTree.codeCost_eq (ht : IsCodeTree input codes t) (hne : input ≠ []) :
    codeCost (jobFreq input) (codes.map (·.code)) = t.mergeSum := by
  obtain ⟨ok, -⟩ := buildTree_ok (jobFreq_ne_nil hne)
  have hlen : codes.length = (jobFreq input).length := by simp [ht.codes_eq, emptyCodes]
  have hpath : ∀ jq ∈ t.paths [], slotCost (jobTree input).nodes codes jq.1 = freqAt (jobTree input).nodes jq.1 * jq.2.length :=
    fun jq hjq => by rw [slotCost, ht.code_of_mem_paths hjq, Option.getD_some]
  calc codeCost (jobFreq input) (codes.map (·.code))
    _ = ((List.range (jobFreq input).length).map (slotCost (jobTree input).nodes codes)).sum := codeCost_eq_sum_slotCost ok hlen
    _ = (t.slots.map (slotCost (jobTree input).nodes codes)).sum := (ht.slots.map _).sum_eq.symm
    _ = ((t.paths []).map fun jq => slotCost (jobTree input).nodes codes jq.1).sum := by
      rw [← HTree.paths_slots t [], List.map_map]; rfl
    _ = ((t.paths []).map fun jq => freqAt (jobTree input).nodes jq.1 * jq.2.length).sum := by rw [List.map_congr_left hpath]
    _ = t.mergeSum := paths_cost_of_grows ht.root []

end Sys2Proof.Machine

namespace Sys2Proof.Proofs

open Machine

/-- Settles O40: the codes are those of a tree's leaves in another order, and no code is longer than there are leaves. -/
theorem codeTableIsAFullPrefixCode : Obligations.CodeTableIsAFullPrefixCode := by
  unfold Obligations.CodeTableIsAFullPrefixCode
  intro input codes h
  obtain ⟨t, hperm⟩ := jobCodes_perm h
  have hlen : codes.length = t.codes.length := by simpa using hperm.length_eq
  refine ⟨(prefixFree_perm hperm).2 t.prefixFree_codes, ?_⟩
  have hkraft := t.kraft_codes codes.length fun q hq => hlen ▸ (HTree.length_lt_codes_length hq).le
  rw [← hkraft, ← (hperm.map _).sum_eq, List.map_map]
  rfl

/-- Settles O41: the table costs what the rounds merge, and no code of which `prefixFree` holds costs less. -/
theorem codeTableIsOptimal : Obligations.CodeTableIsOptimal := by
  unfold Obligations.CodeTableIsOptimal
  intro input codes others h hlen hp
  obtain ⟨t, ht⟩ := exists_isCodeTree h
  have hne := input_ne_nil_of_jobCodes h
  calc codeCost (jobFreq input) (codes.map (·.code))
    _ = t.mergeSum := ht.codeCost_eq hne
    _ = mergedWeight (jobFreq input).length (leafForest (jobFreq input)) := mergeSum_eq_mergedWeight (jobFreq_ne_nil hne) ht.root
    _ ≤ codeCost (jobFreq input) others := mergedWeight_le_codeCost (hlen.trans (jobCodes_length h)) hp

end Sys2Proof.Proofs
end

section
/-! The capacities (R10 to R13): LMAX as the largest depth that the weight of the input allows, so that every code and every bit string
of a job fits, and stage 4 never raises (R113). -/

namespace Sys2Proof.Machine

variable {input : List Symbol} {codes : List CodeEntry} {bits : List Bool} {s : State} {cap d e L : Nat}

/-- The search for LMAX passes no depth whose Fibonacci weight fits. -/
theorem le_lmaxFrom (hfit : Nat.fib (e + 2) ≤ cap) : ∀ fuel d, e ≤ d + fuel →
    e ≤ Config.lmaxFrom cap fuel (Nat.fib (d + 2)) (Nat.fib (d + 3)) d := by
  intro fuel
  induction fuel with
  | zero => exact fun d hd => hd
  | succ fuel ih =>
    intro d hd
    rw [Config.lmaxFrom]
    split
    · rw [← Nat.fib_add_two]
      exact ih (d + 1) (by omega)
    · rename_i hb
      have hlt : Nat.fib (e + 2) < Nat.fib (d + 3) := by omega
      have := Nat.fib_mono.reflect_lt hlt
      omega

/-- The weight of the depth that the search answers fits. -/
theorem fib_lmaxFrom_le (fuel : Nat) : ∀ d, Nat.fib (d + 2) ≤ cap →
    Nat.fib (Config.lmaxFrom cap fuel (Nat.fib (d + 2)) (Nat.fib (d + 3)) d + 2) ≤ cap := by
  induction fuel with
  | zero => exact fun d hd => hd
  | succ fuel ih =>
    intro d hd
    rw [Config.lmaxFrom]
    split
    · rename_i hb
      rw [← Nat.fib_add_two]
      exact ih (d + 1) hb
    · exact hd

theorem legalInCap_iff : Config.legalInCap cap = true ↔ 1 ≤ cap ∧ cap ≤ 2 ^ 24 := by
  rw [Config.legalInCap, Bool.and_eq_true, decide_eq_true_eq, decide_eq_true_eq]
  rfl

/-- No depth above 34 has a weight that a legal IN_CAP admits (R12). -/
theorem depth_le_of_fib_le (hcap : cap ≤ 2 ^ 24) (h : Nat.fib (d + 2) ≤ cap) : d ≤ 34 := by
  have hfib : 2 ^ 24 < Nat.fib 37 := by norm_num
  have hlt : d + 2 < 37 := Nat.fib_mono.reflect_lt (by omega)
  omega

theorem le_lmax (hcap : cap ≤ 2 ^ 24) (h : Nat.fib (d + 2) ≤ cap) : d ≤ Config.lmax cap :=
  le_lmaxFrom h 40 0 (by have := depth_le_of_fib_le hcap h; omega)

theorem lmax_le (hl : Config.legalInCap cap = true) : Config.lmax cap ≤ 34 := by
  obtain ⟨hpos, hcap⟩ := legalInCap_iff.1 hl
  exact depth_le_of_fib_le hcap (fib_lmaxFrom_le 40 0 hpos)

/-- The bit buffer of a legal configuration is shorter than 2^32 bits (R13). -/
theorem bitCap_lt (hl : Config.legalInCap cap = true) : Config.bitCap cap < 2 ^ 32 := by
  obtain ⟨-, hcap⟩ := legalInCap_iff.1 hl
  have hdepth := lmax_le hl
  calc 32 + cap * (16 + Config.lmax cap)
    _ ≤ 32 + 2 ^ 24 * (16 + 34) := Nat.add_le_add_left (Nat.mul_le_mul hcap (by omega)) 32
    _ < 2 ^ 32 := by norm_num

/-- R12: a code of a job is a path to a leaf, and the tree weighs what the input is long. -/
theorem jobCodes_fib_le (h : jobCodes input = some codes) : ∀ e ∈ codes, Nat.fib (e.code.length + 2) ≤ input.length := by
  intro e he
  obtain ⟨j, hj, rfl⟩ := List.mem_iff_getElem.1 he
  obtain ⟨t, ht⟩ := exists_isCodeTree h
  have hne := input_ne_nil_of_jobCodes h
  obtain ⟨ok, -⟩ := buildTree_ok (jobFreq_ne_nil hne)
  have hbalanced : Balanced (jobTree input) := balanced_mergeWhile _ _ (leafForest_ok _) (balanced_leafForest _)
  have hcode : codes[j].code ∈ t.codes := List.mem_map_of_mem (ht.mem_paths hj)
  rw [← jobTree_root_weight hne]
  exact fib_le_of_code_length ok hbalanced countSymbols_count_pos _ _ t ht.root _ hcode rfl

theorem jobCodes_length_le_lmax (h : jobCodes input = some codes) (hlen : input.length ≤ cap) (hcap : cap ≤ 2 ^ 24) :
    ∀ e ∈ codes, e.code.length ≤ Config.lmax cap :=
  fun e he => le_lmax hcap ((jobCodes_fib_le h e he).trans hlen)

theorem codeOf_length_le (h : ∀ e ∈ codes, e.code.length ≤ L) (c : Symbol) : ((codeOf codes c).getD []).length ≤ L := by
  rw [codeOf]
  cases hfind : codes.find? fun e => e.sym == c with
  | none => simp
  | some e => exact h e (List.mem_of_find?_eq_some hfind)

/-- R11: no bit string of a job is longer than BIT_CAP. -/
theorem jobBits_length_le_bitCap (hb : jobBits input = some bits) (hlen : input.length ≤ cap) (hcap : cap ≤ 2 ^ 24) :
    bits.length ≤ Config.bitCap cap := by
  cases hc : jobCodes input with
  | none => simp [jobBits, hc] at hb
  | some codes =>
    obtain ⟨body, hbody⟩ := exists_jobBody hc
    obtain rfl : headerBits codes ++ body = bits := Option.some.inj ((jobBits_eq hc hbody).symm.trans hb)
    obtain ⟨hsum, -⟩ := bodyBits_eq codes input body hbody
    have hcodes : body.length ≤ input.length * Config.lmax cap := by
      have hle := List.sum_le_card_nsmul (input.map fun c => ((codeOf codes c).getD []).length) (Config.lmax cap) (by
        simpa using fun c _ => codeOf_length_le (jobCodes_length_le_lmax hc hlen hcap) c)
      simpa [← hsum] using hle
    have hentries : codes.length ≤ input.length := jobCodes_length hc ▸ countSymbols_length_le input
    calc (headerBits codes ++ body).length
      _ = 32 + 16 * codes.length + body.length := by rw [List.length_append, headerBits_length]
      _ ≤ 32 + input.length * (16 + Config.lmax cap) := by rw [Nat.mul_add]; omega
      _ ≤ 32 + cap * (16 + Config.lmax cap) := Nat.add_le_add_left (Nat.mul_le_mul_right _ hlen) 32

/-- Stage 4 on the codes of a job that fits a legal IN_CAP: neither guard of R113 applies. -/
theorem runStage_serialize (hl : Config.legalInCap cap = true) (hlen : s.input.length ≤ cap) (hc : jobCodes s.input = some s.codes) :
    ∃ bits, jobBits s.input = some bits ∧ bits.length < 2 ^ 32
      ∧ runStage 4 s = .commit { s with bits := bits, bitLen := BitVec.ofNat 32 bits.length } := by
  obtain ⟨-, hcap⟩ := legalInCap_iff.1 hl
  obtain ⟨body, hbody⟩ := exists_jobBody hc
  have hbits := jobBits_eq hc hbody
  have hlt := (jobBits_length_le_bitCap hbits hlen hcap).trans_lt (bitCap_lt hl)
  have hshort : ¬ (s.codes.any fun e => decide (255 < e.code.length)) = true := by
    simp only [List.any_eq_true, decide_eq_true_eq, not_exists, not_and, Nat.not_lt]
    exact fun e he => ((jobCodes_length_le_lmax hc hlen hcap e he).trans (lmax_le hl)).trans (by decide)
  refine ⟨_, hbits, hlt, ?_⟩
  simp only [runStage, serializeStage, if_neg hshort, hbody]
  exact if_neg (by omega)

/-- Stage 4 in a state that meets the invariant (R108). -/
theorem Inv.runStage_serialize (hi : Inv s) (hp : s.phase = 3#3) :
    ∃ bits, jobBits s.input = some bits ∧ bits.length < 2 ^ 32
      ∧ runStage 4 s = .commit { s with bits := bits, bitLen := BitVec.ofNat 32 bits.length } :=
  Machine.runStage_serialize hi.legalCap hi.inputFits ((hi.storesAt_of_phase hp (by decide)).coded (by decide))

/-- The phases of a job that has not failed, as numbers: 6 is never held (R37). -/
theorem Inv.phase_le (hi : Inv s) (h7 : s.phase ≠ 7#3) : s.phase.toNat ≤ 5 := by
  obtain ⟨hle, -, -⟩ := hi.running h7
  exact hle.trans hi.targetHeld

/-- In every phase, ERROR too, the stores are those of some stage of the input (R50). -/
theorem Inv.exists_storesAt (hi : Inv s) : ∃ q, q ≤ 5 ∧ StoresAt q s := by
  by_cases h7 : s.phase = 7#3
  · obtain ⟨-, q, hq, hst, -⟩ := hi.failed h7
    exact ⟨q, hq, hst⟩
  · obtain ⟨-, hst, -⟩ := hi.running h7
    exact ⟨_, hi.phase_le h7, hst⟩

/-! ### What the stores of a stage hold, as bounds in terms of the input -/

section Bounds

variable {q : Nat} (hst : StoresAt q s)

include hst

theorem StoresAt.freq_length_le : s.freq.length ≤ s.input.length := by
  rcases Nat.lt_or_ge q 1 with hq | hq
  · simp [(hst.uncounted hq).1]
  · rw [(hst.counted hq).1]
    exact countSymbols_length_le s.input

theorem StoresAt.codes_cases : s.codes = [] ∨ jobCodes s.input = some s.codes := by
  rcases Nat.lt_or_ge q 3 with hq | hq
  · exact .inl (hst.uncoded hq)
  · exact .inr (hst.coded hq)

theorem StoresAt.bits_cases : s.bits = [] ∨ jobBits s.input = some s.bits := by
  rcases Nat.lt_or_ge q 4 with hq | hq
  · exact .inl (hst.unserialized hq).1
  · exact .inr (hst.serialized hq).1

theorem StoresAt.codes_length_le : s.codes.length ≤ s.input.length := by
  rcases hst.codes_cases with hnone | hc
  · simp [hnone]
  · exact jobCodes_length hc ▸ countSymbols_length_le s.input

/-- Until there is a code table the arena is empty or the tree of the input (R49). -/
theorem StoresAt.nodes_length_le (huncoded : s.codes = []) : s.nodes.length ≤ 2 * s.input.length - 1 := by
  rcases Nat.lt_trichotomy q 2 with hq | hq | hq
  · simp [(hst.treeless hq).1]
  · obtain ⟨hnodes, -, -⟩ := hst.built hq
    have hlen : (jobTree s.input).nodes.length = 2 * (jobFreq s.input).length - 1 :=
      buildTree_nodes_length (jobFreq_ne_nil (hst.loaded hq.ge))
    have hfreq : (jobFreq s.input).length ≤ s.input.length := countSymbols_length_le s.input
    rw [hnodes, hlen]
    omega
  · have hlen := jobCodes_length (hst.coded hq)
    rw [huncoded] at hlen
    exact absurd (List.eq_nil_of_length_eq_zero hlen.symm) (jobFreq_ne_nil (hst.loaded hq.le))

end Bounds

end Sys2Proof.Machine

namespace Sys2Proof.Proofs

open Machine

/-- Settles O44: the job's bit string fits BIT_CAP, so no guard of stage 4 applies and BIT_LEN holds its length. -/
theorem serializeStageCompletes : Obligations.SerializeStageCompletes := by
  unfold Obligations.SerializeStageCompletes
  intro s hi hp
  obtain ⟨bits, hbits, hlt, hstage⟩ := hi.runStage_serialize hp
  have hk : s.phase.toNat + 1 = 4 := by rw [hp]; rfl
  refine ⟨_, engineStep_of_commit hk hstage, rfl, hbits, ?_, otherStoresKept_of_commit hstage _⟩
  exact (BitVec.toNat_ofNat ..).trans (Nat.mod_eq_of_lt hlt)

/-- Settles O50: stage 4 commits instead. -/
theorem lengthOverflowIsUnreachable : Obligations.LengthOverflowIsUnreachable := by
  unfold Obligations.LengthOverflowIsUnreachable
  intro s hi hp hraised
  obtain ⟨bits, -, -, hstage⟩ := hi.runStage_serialize hp
  cases hraised.symm.trans hstage

/-- Settles O51: the stores of whatever stage was last are bounded by the input, and the input by IN_CAP. -/
theorem storesStayWithinCapacity : Obligations.StoresStayWithinCapacity := by
  unfold Obligations.StoresStayWithinCapacity
  intro s hi
  obtain ⟨-, hcap⟩ := legalInCap_iff.1 hi.legalCap
  obtain ⟨q, -, hst⟩ := hi.exists_storesAt
  have hfits := hi.inputFits
  have hbits : s.bits.length ≤ Config.bitCap s.inCap := by
    rcases hst.bits_cases with hnone | hb
    · simp [hnone]
    · exact jobBits_length_le_bitCap hb hfits hcap
  refine ⟨hfits, hst.freq_length_le.trans hfits, hst.codes_length_le.trans hfits, fun huncoded => ?_, fun e he => ?_, hbits, ?_⟩
  · have hnodes := hst.nodes_length_le huncoded
    unfold Config.nodeCap
    omega
  · rcases hst.codes_cases with hnone | hc
    · simp [hnone] at he
    · exact jobCodes_length_le_lmax hc hfits hcap e he
  · rw [hi.output]
    split
    · rw [packBits_length]
      exact Nat.div_le_div_right hbits
    · exact Nat.zero_le _

end Sys2Proof.Proofs
end

section
/-! Every step keeps the invariant, and no step faults: the stores after a stage are those of the next phase, an error entry keeps
the stores of the phase it ends, and what the host does to the block is a command or a write of OUT_PTR. -/

namespace Sys2Proof.Machine

variable {s t u : State} {q k : Nat} {op : HostOp} {w : Word} {e : ErrorCode} {st p : BitVec 3} {f : Fault}

/-- `t` holds in the input and the stores of stages 1 to 4 what `s` holds. -/
def SameStores (s t : State) : Prop :=
  t = { s with inCap := t.inCap, phase := t.phase, target := t.target, out := t.out, outPtr := t.outPtr, errCode := t.errCode,
               errStage := t.errStage, errCmd := t.errCmd, agents := t.agents }

theorem StoresAt.of_sameStores (hst : StoresAt q s) (h : SameStores s t) : StoresAt q t := by
  rw [h]
  exact ⟨hst.uncounted, hst.counted, hst.treeless, hst.built, hst.loaded, hst.uncoded, hst.coded, hst.unserialized, hst.serialized,
    hst.packable⟩

/-- Before stage 1 the stores do not depend on the input. -/
theorem StoresAt.of_input (hst : StoresAt 0 s) (l : List Symbol) : StoresAt 0 { s with input := l } where
  uncounted := hst.uncounted
  counted h := absurd h (by decide)
  treeless := hst.treeless
  built h := absurd h (by decide)
  loaded h := absurd h (by decide)
  uncoded := hst.uncoded
  coded h := absurd h (by decide)
  unserialized := hst.unserialized
  serialized h := absurd h (by decide)
  packable h := absurd h (by decide)

theorem storesAt_clearJob (s : State) : StoresAt 0 (clearJob s) where
  uncounted _ := ⟨rfl, rfl⟩
  counted h := absurd h (by decide)
  treeless _ := ⟨rfl, rfl, rfl⟩
  built h := absurd h (by decide)
  loaded h := absurd h (by decide)
  uncoded _ := rfl
  coded h := absurd h (by decide)
  unserialized _ := ⟨rfl, rfl⟩
  serialized h := absurd h (by decide)
  packable h := absurd h (by decide)

/-- What stage 3 makes of the tree of the input is the job's code table (R104). -/
theorem StoresAt.jobCodes_eq_codesFrom {r : Nat} (hst : StoresAt 2 s) (hr : s.root = some r) :
    jobCodes s.input = codesFrom s.freq s.nodes r := by
  obtain ⟨hfreq, -⟩ := hst.counted (by decide)
  obtain ⟨hnodes, hroot, -⟩ := hst.built rfl
  rw [hr] at hroot
  rw [hfreq, hnodes, jobCodes, ← hroot]

/-- Stage `q + 1` makes the stores those of its phase. -/
theorem StoresAt.commit (hst : StoresAt q s) (h : runStage (q + 1) s = .commit u) : StoresAt (q + 1) u := by
  rcases runStage_commit h with ⟨hq, rfl⟩ | ⟨hq, hf, rfl⟩ | ⟨hq, r, c, hr, hc, rfl⟩ | ⟨hq, -, b, hb, -, rfl⟩ | ⟨hq, h4, rfl⟩
  · obtain rfl : q = 0 := by omega
    exact ⟨nofun, fun _ => ⟨rfl, rfl⟩, fun _ => hst.treeless (by decide), nofun, nofun, fun _ => hst.uncoded (by decide), nofun,
      fun _ => hst.unserialized (by decide), nofun, nofun⟩
  · obtain rfl : q = 1 := by omega
    obtain ⟨hfreq, hcount⟩ := hst.counted le_rfl
    have htree : buildTree s.freq = jobTree s.input := by rw [hfreq, jobTree]
    have hne : s.input ≠ [] := fun hnil => hf (hfreq.trans (by rw [hnil]; rfl))
    exact ⟨nofun, fun _ => ⟨hfreq, hcount⟩, nofun, fun _ => by simp only [htree, and_self], fun _ => hne,
      fun _ => hst.uncoded (by decide), nofun, fun _ => hst.unserialized (by decide), nofun, nofun⟩
  · obtain rfl : q = 2 := by omega
    exact ⟨nofun, fun _ => hst.counted (by decide), nofun, nofun, fun _ => hst.loaded le_rfl, nofun,
      fun _ => (hst.jobCodes_eq_codesFrom hr).trans hc, fun _ => hst.unserialized (by decide), nofun, nofun⟩
  · obtain rfl : q = 3 := by omega
    exact ⟨nofun, fun _ => hst.counted (by decide), nofun, nofun, fun _ => hst.loaded (by decide), nofun,
      fun _ => hst.coded le_rfl, nofun, fun _ => ⟨jobBits_eq (hst.coded le_rfl) hb, rfl⟩, nofun⟩
  · obtain rfl : q = 4 := by omega
    exact ⟨nofun, fun _ => hst.counted (by decide), nofun, nofun, fun _ => hst.loaded (by decide), nofun,
      fun _ => hst.coded (by decide), nofun, fun _ => hst.serialized le_rfl, fun _ => h4⟩

/-! ### The invariant under each update of the state -/

theorem inv_clearJob (hl : Config.legalInCap s.inCap = true) : Inv (clearJob s) where
  legalCap := hl
  inputFits := Nat.zero_le _
  inputScalar := nofun
  phaseHeld := by simp
  targetHeld := by simp
  output := rfl
  running _ := ⟨le_rfl, storesAt_clearJob s, rfl, rfl, rfl⟩
  failed h7 := by simp at h7

/-- OUT_PTR and the agents are not in the invariant. -/
theorem Inv.after_outPtr_agents (hi : Inv s) (v : Word) (a : Agents) : Inv { s with outPtr := v, agents := a } where
  legalCap := hi.legalCap
  inputFits := hi.inputFits
  inputScalar := hi.inputScalar
  phaseHeld := hi.phaseHeld
  targetHeld := hi.targetHeld
  output := hi.output
  running h7 := by
    obtain ⟨hle, hst, hrecord⟩ := hi.running h7
    exact ⟨hle, hst.of_sameStores rfl, hrecord⟩
  failed h7 := by
    obtain ⟨ht, q, hq, hst, hrecord⟩ := hi.failed h7
    exact ⟨ht, q, hq, hst.of_sameStores rfl, hrecord⟩

theorem Inv.of_sameBlock (hi : Inv s) (h : sameBlock s t) : Inv t := by
  have ht : t = { s with outPtr := s.outPtr, agents := t.agents } := by rw [← h]
  rw [ht]
  exact hi.after_outPtr_agents _ _

/-- An error whose record fits the phase that it ends. -/
theorem Inv.after_errorEntry (hi : Inv s) (h7 : s.phase ≠ 7#3) (hrecord : errorRecordAt s.phase.toNat (errorEntry e st w s)) :
    Inv (errorEntry e st w s) where
  legalCap := hi.legalCap
  inputFits := hi.inputFits
  inputScalar := hi.inputScalar
  phaseHeld := by simp
  targetHeld := by simp
  output := rfl
  running h := absurd rfl h
  failed _ := by
    obtain ⟨-, hst, -⟩ := hi.running h7
    exact ⟨rfl, _, hi.phase_le h7, hst.of_sameStores rfl, hrecord⟩

theorem Inv.after_load {c : Symbol} (hi : Inv s) (hp : s.phase = 0#3) (hc : isScalar c = true) (hroom : s.input.length ≠ s.inCap) :
    Inv { s with input := s.input ++ [c] } where
  legalCap := hi.legalCap
  inputFits := by
    have := hi.inputFits
    simp only [List.length_append, List.length_singleton]
    omega
  inputScalar := by
    simp only [List.forall_mem_append, List.forall_mem_singleton]
    exact ⟨hi.inputScalar, hc⟩
  phaseHeld := hi.phaseHeld
  targetHeld := hi.targetHeld
  output := hi.output
  running h7 := by
    have h0 : s.phase.toNat = 0 := by rw [hp]; rfl
    obtain ⟨hle, hst, hrecord⟩ := hi.running h7
    rw [h0] at hst
    refine ⟨hle, ?_, hrecord⟩
    have hloaded : StoresAt s.phase.toNat { s with input := s.input ++ [c] } := h0 ▸ hst.of_input _
    exact hloaded
  failed h7 := by simp [hp] at h7

theorem Inv.after_setTarget (hi : Inv s) (h7 : s.phase ≠ 7#3) (hlt : s.phase.toNat < p.toNat) (h5 : p.toNat ≤ 5) : Inv (setTarget p s) where
  legalCap := hi.legalCap
  inputFits := hi.inputFits
  inputScalar := hi.inputScalar
  phaseHeld := hi.phaseHeld
  targetHeld := h5
  output := hi.output
  running _ := by
    obtain ⟨-, hst, hrecord⟩ := hi.running h7
    exact ⟨hlt.le, hst.of_sameStores rfl, hrecord⟩
  failed h := absurd h h7

/-- R121: an error that a command raises has stage 0 and a code of its own. -/
theorem errorRecordAt_command (he : e = .illegalCommand ∨ e = .sequence ∨ e = .busy ∨ e = .badSymbol ∨ e = .inputFull) :
    errorRecordAt q (errorEntry e 0#3 w s) := by
  refine .inl ⟨rfl, ?_⟩
  rcases he with rfl | rfl | rfl | rfl | rfl
  all_goals simp [errorValue]

theorem Inv.after_command (hi : Inv s) (h : CommandEffect w s t) : Inv t := by
  cases h with
  | none => exact hi
  | clear => exact inv_clearJob hi.legalCap
  | error e h7 he => exact hi.after_errorEntry h7 (errorRecordAt_command he)
  | load c hp hb hc hroom => exact hi.after_load hp hc hroom
  | target p h7 hb h4 hlt h5 => exact hi.after_setTarget h7 hlt h5

theorem Inv.after_hostEffect (hi : Inv s) (h : HostEffect op s t) : Inv t := by
  cases h with
  | command off v w t ho hc => exact hi.after_command hc
  | outPtr v ho => exact hi.after_outPtr_agents v s.agents
  | bind off => exact hi.of_sameBlock rfl
  | again ho => exact hi.of_sameBlock rfl
  | reset ho => exact inv_clearJob hi.legalCap

/-! ### The engine's step -/

/-- The phases in which the engine can have a stage to perform. -/
theorem Inv.busy_phase_cases (hi : Inv s) (hb : busy s = true) :
    s.phase = 0#3 ∨ s.phase = 1#3 ∨ s.phase = 2#3 ∨ s.phase = 3#3 ∨ s.phase = 4#3 := by
  have hphases : ∀ p : BitVec 3, p.toNat < 5 → p = 0#3 ∨ p = 1#3 ∨ p = 2#3 ∨ p = 3#3 ∨ p = 4#3 := by decide
  obtain ⟨-, hlt⟩ := (busy_iff s).1 hb
  exact hphases s.phase (hlt.trans_le hi.targetHeld)

theorem buildTreeStage_ne_stuck : buildTreeStage s ≠ .stuck f := by
  unfold buildTreeStage
  split <;> simp

theorem packStage_ne_stuck : packStage s ≠ .stuck f := by
  unfold packStage
  split <;> simp

/-- Each stage finds what it reads. -/
theorem Inv.runStage_ne_stuck (hi : Inv s) (hb : busy s = true) : runStage (s.phase.toNat + 1) s ≠ .stuck f := by
  rcases hi.busy_phase_cases hb with hp | hp | hp | hp | hp
  · simp [hp, runStage, countStage]
  · rw [hp]
    exact buildTreeStage_ne_stuck
  · obtain ⟨codes, -, hstage⟩ := hi.runStage_codes hp
    simp [hp, hstage]
  · obtain ⟨bits, -, -, hstage⟩ := hi.runStage_serialize hp
    simp [hp, hstage]
  · rw [hp]
    exact packStage_ne_stuck

/-- Only stage 5 writes the output (R116). -/
theorem commit_out (h : runStage k s = .commit u) : u.out = if k = 5 then packBits u.bits else s.out := by
  rcases runStage_commit h with ⟨rfl, rfl⟩ | ⟨rfl, -, rfl⟩ | ⟨rfl, _, _, -, -, rfl⟩ | ⟨rfl, -, _, -, -, rfl⟩ | ⟨rfl, -, rfl⟩
  all_goals simp

theorem Inv.after_commit (hi : Inv s) (hb : busy s = true) (h : runStage (s.phase.toNat + 1) s = .commit u) :
    Inv { u with phase := BitVec.ofNat 3 (s.phase.toNat + 1) } := by
  obtain ⟨h7, hlt⟩ := (busy_iff s).1 hb
  have htargetHeld := hi.targetHeld
  have hphase : (BitVec.ofNat 3 (s.phase.toNat + 1)).toNat = s.phase.toNat + 1 := ofNat_phase_succ_toNat (by omega)
  have hne {p : BitVec 3} (hp : p.toNat ≠ s.phase.toNat + 1) : BitVec.ofNat 3 (s.phase.toNat + 1) ≠ p := by
    rintro rfl
    exact hp hphase
  have hfive : BitVec.ofNat 3 (s.phase.toNat + 1) = 5#3 ↔ s.phase.toNat + 1 = 5 := by rw [BitVec.toNat_eq, hphase]; rfl
  have hnotDone : s.phase ≠ 5#3 := by
    intro hp
    rw [hp] at hlt
    exact absurd (hlt.trans_le htargetHeld) (by decide)
  obtain ⟨-, hst, hrecord⟩ := hi.running h7
  obtain ⟨hcap, hinput, -, htarget, hcode, hstage, hcmd, -⟩ :=
    otherStoresKept_of_commit h (BitVec.ofNat 3 (s.phase.toNat + 1))
  constructor
  case legalCap => exact hcap ▸ hi.legalCap
  case inputFits => rw [hinput, hcap]; exact hi.inputFits
  case inputScalar => rw [hinput]; exact hi.inputScalar
  case phaseHeld => exact hne (p := 6#3) (by simp; omega)
  case targetHeld => rw [htarget]; exact htargetHeld
  case output => simp only [commit_out h, hi.output, hnotDone, hfive, if_false]
  case running =>
    intro _
    rw [hcode, hstage, hcmd, htarget]
    refine ⟨hphase.trans_le hlt, ?_, hrecord⟩
    rw [hphase]
    exact (hst.commit h).of_sameStores rfl
  case failed => exact fun hp => absurd hp (hne (p := 7#3) (by simp; omega))

/-- The record of an error that a stage raises is one of R121's. -/
theorem Inv.after_raised (hi : Inv s) (hb : busy s = true) (h : runStage (s.phase.toNat + 1) s = .raised e) :
    Inv (errorEntry e (BitVec.ofNat 3 (s.phase.toNat + 1)) 0#32 s) := by
  obtain ⟨h7, -⟩ := (busy_iff s).1 hb
  obtain ⟨-, hst, -⟩ := hi.running h7
  refine hi.after_errorEntry h7 ?_
  rcases runStage_raised h with ⟨hk, rfl, hf⟩ | ⟨hk, rfl⟩ | ⟨hk, rfl, h4⟩
  · have hq : s.phase.toNat = 1 := by omega
    obtain ⟨hfreq, -⟩ := hst.counted hq.ge
    have hnil : s.input = [] := (countSymbols_eq_nil _).1 (hfreq.symm.trans hf)
    exact .inr (.inl ⟨by rw [hk]; rfl, rfl, rfl, hq, hnil⟩)
  · exact .inr (.inr (.inl ⟨by rw [hk]; rfl, rfl, rfl, by omega⟩))
  · exact .inr (.inr (.inr ⟨by rw [hk]; rfl, rfl, rfl, by omega, h4⟩))

/-- What a pending stage does in a state that meets the invariant: it succeeds and the phase goes up by one, or the job fails. -/
theorem Inv.engineStep_cases (hi : Inv s) (hb : busy s = true) : ∃ t, engineStep s = .next t ∧ Inv t
    ∧ ((t.phase.toNat = s.phase.toNat + 1 ∧ t.target = s.target) ∨ t.phase = 7#3) := by
  obtain ⟨-, hlt⟩ := (busy_iff s).1 hb
  have htarget := hi.targetHeld
  cases hstage : runStage (s.phase.toNat + 1) s with
  | commit u =>
    obtain ⟨-, -, -, hkept, -⟩ := otherStoresKept_of_commit hstage (BitVec.ofNat 3 (s.phase.toNat + 1))
    exact ⟨_, engineStep_of_commit rfl hstage, hi.after_commit hb hstage, .inl ⟨ofNat_phase_succ_toNat (by omega), hkept⟩⟩
  | raised e => exact ⟨_, engineStep_of_raised rfl hstage, hi.after_raised hb hstage, .inr rfl⟩
  | stuck f => exact absurd hstage (hi.runStage_ne_stuck hb)

theorem Inv.takeStage (hi : Inv s) : Inv (takeStage s) := hi.of_sameBlock rfl

theorem Inv.takeOp (hi : Inv s) (rest : List HostOp) : Inv (takeOp rest s) := hi.of_sameBlock (takeOp_sameBlock rest s)

/-! ### What a step can do to the phase and the input -/

theorem commit_stage_le (h : runStage k s = .commit u) : k ≤ 5 := by
  rcases runStage_commit h with ⟨rfl, -⟩ | ⟨rfl, -⟩ | ⟨rfl, -⟩ | ⟨rfl, -⟩ | ⟨rfl, -⟩
  all_goals decide

/-- R90: a stage makes the phase its own number, or 7 with the engine stopped and no output. -/
theorem engineStep_phase (h : engineStep s = .next t) :
    t.phase.toNat = s.phase.toNat + 1 ∨ (t.phase = 7#3 ∧ t.target = 0#3 ∧ t.out = []) := by
  rcases engineStep_next h with ⟨u, hu, rfl⟩ | ⟨e, -, rfl⟩
  · have hk := commit_stage_le hu
    exact .inl (ofNat_phase_succ_toNat (by omega))
  · exact .inr ⟨rfl, rfl, rfl⟩

/-- The host's turn that clears the block is a write of CLEAR's word or reset. -/
theorem hostClears_of_cause {rest : List HostOp} (ht : hostsTurn s op rest)
    (hc : op = .reset ∨ ∃ w, op = .write 32 0x08#12 w ∧ decode w = .command .clear) : hostClears s := by
  rcases hc with rfl | ⟨w, rfl, hd⟩
  · exact ⟨rest, .inr ht⟩
  · rw [eq_of_decode_clear hd] at ht
    exact ⟨rest, .inl ht⟩

/-- What a step can do, when it has a next state, with the cause of what the host does. -/
theorem step_cause (h : step s = .next t) : (idle s ∧ t = s) ∨ (enginesTurn s ∧ engineStep (takeStage s) = .next t)
    ∨ ∃ op rest, hostsTurn s op rest ∧ HostCause s op t := by
  obtain ⟨hl, hidle | hengine | ⟨op, rest, ht, -⟩⟩ := step_next h
  · exact .inl hidle
  · exact .inr (.inl hengine)
  · exact .inr (.inr ⟨op, rest, ht, hostsTurn_cause hl ht h⟩)

end Sys2Proof.Machine

namespace Sys2Proof.Proofs

open Machine

/-- Settles O47: reset is CLEAR of a block that has the default IN_CAP. -/
theorem resetSatisfiesTheInvariant : Obligations.ResetSatisfiesTheInvariant := by
  unfold Obligations.ResetSatisfiesTheInvariant
  exact inv_clearJob (s := State.reset) rfl

/-- Settles O48: the block is idle, or a stage keeps the invariant, or a host access does. -/
theorem stepKeepsTheInvariant : Obligations.StepKeepsTheInvariant := by
  unfold Obligations.StepKeepsTheInvariant
  intro s t hi hstep
  obtain ⟨-, ⟨-, rfl⟩ | ⟨⟨hb, -⟩, hengine⟩ | ⟨op, rest, -, heffect⟩⟩ := step_next hstep
  · exact hi
  · obtain ⟨u, hu, hinv, -⟩ := hi.takeStage.engineStep_cases hb
    obtain rfl := Host.Outcome.next.inj (hengine.symm.trans hu)
    exact hinv
  · exact (hi.takeOp rest).after_hostEffect heffect

/-- Settles O49: a pending stage answers a next state, and no host access faults. -/
theorem noStepFaults : Obligations.NoStepFaults := by
  unfold Obligations.NoStepFaults
  intro s f hi hfault
  rcases turn_cases s with hidle | hengine | ⟨op, rest, hhost⟩
  · rw [step_of_idle hi.legalCap hidle] at hfault
    cases hfault
  · obtain ⟨t, ht, -, -⟩ := hi.takeStage.engineStep_cases hengine.1
    rw [step_of_enginesTurn hi.legalCap hengine, ht] at hfault
    cases hfault
  · rw [step_of_hostsTurn hi.legalCap hhost] at hfault
    exact hostAccess_ne_fault op _ f hfault

/-- Settles O52: the phase moves by a stage, by an error, or by what clears the block. -/
theorem onlyStagesErrorsAndClearMoveThePhase : Obligations.OnlyStagesErrorsAndClearMoveThePhase := by
  unfold Obligations.OnlyStagesErrorsAndClearMoveThePhase
  intro s t hstep
  rcases step_cause hstep with ⟨-, rfl⟩ | ⟨ht, hengine⟩ | ⟨op, rest, ht, hcause⟩
  · exact .inl rfl
  · obtain ⟨h7, -⟩ := (busy_iff s).1 ht.1
    rcases engineStep_phase hengine with hphase | herror
    · exact .inr (.inl ⟨ht, hphase⟩)
    · exact .inr (.inr (.inl ⟨h7, herror⟩))
  · cases hcause with
    | idle | load | target | outPtr => exact .inl rfl
    | clear a hc => exact .inr (.inr (.inr ⟨hostClears_of_cause ht hc, rfl⟩))
    | error a e w h7 => exact .inr (.inr (.inl ⟨h7, rfl, rfl, rfl⟩))

/-- Settles O53: a symbol is loaded by the word of LOAD_SYM, with room left, and the input is otherwise kept or emptied. -/
theorem onlyLoadSymExtendsTheInput : Obligations.OnlyLoadSymExtendsTheInput := by
  unfold Obligations.OnlyLoadSymExtendsTheInput
  intro s t hstep
  rcases step_cause hstep with ⟨-, rfl⟩ | ⟨-, hengine⟩ | ⟨op, rest, ht, hcause⟩
  · exact ⟨rfl, id, .inl rfl⟩
  · obtain ⟨hinput, -, hcap, -⟩ := engineStep_keeps hengine
    exact ⟨hcap, fun hfits => by rwa [hinput, hcap], .inl hinput⟩
  · cases hcause with
    | idle | error | target | outPtr => exact ⟨rfl, id, .inl rfl⟩
    | clear a hc => exact ⟨rfl, fun _ => Nat.zero_le _, .inr (.inl ⟨hostClears_of_cause ht hc, rfl⟩)⟩
    | load a w c ho hd h0 hb hs hroom =>
      obtain rfl := encode_of_decode hd
      refine ⟨rfl, fun hfits => ?_, .inr (.inr ⟨c, rest, ho ▸ ht, rfl, hs, h0, hb⟩)⟩
      simp only [List.length_append, List.length_singleton]
      omega

end Sys2Proof.Proofs
end

section
/-! The engine alone (R67, R90): within five stages it reaches its target or ERROR, five STEPs are one START (R86), and the result of a
job is a function of its input (R139, R144). -/

namespace Sys2Proof.Machine

variable {s t u : State} {k m n : Nat} {f : Fault} {e : ErrorCode}

/-- A host that has nothing to do leaves every turn to the engine. -/
theorem step_of_silent (hi : Inv s) (hb : busy s = true) (hops : s.agents.ops = []) : step s = engineStep (takeStage s) :=
  step_of_enginesTurn hi.legalCap ⟨hb, .inl hops⟩

theorem Inv.phase_eq_target (hi : Inv s) (h7 : s.phase ≠ 7#3) (hb : busy s = false) : s.phase = s.target := by
  obtain ⟨hle, -⟩ := hi.running h7
  have hge : ¬ s.phase.toNat < s.target.toNat := fun hlt => by simp [(busy_iff s).2 ⟨h7, hlt⟩] at hb
  exact BitVec.eq_of_toNat_eq (by omega)

/-- R67: as many stages are left as there are phases up to the target. -/
theorem engine_settles (n : Nat) : ∀ s : State, Inv s → busy s = true → s.agents.ops = [] → s.target.toNat = s.phase.toNat + n →
    ∃ k t, k ≤ n ∧ runSteps k s = .next t ∧ busy t = false ∧ (t.phase = s.target ∨ t.phase = 7#3) := by
  induction n with
  | zero =>
    intro s hi hb hops hn
    obtain ⟨-, hlt⟩ := (busy_iff s).1 hb
    omega
  | succ n ih =>
    intro s hi hb hops hn
    obtain ⟨t, ht, hinv, hcases⟩ := hi.takeStage.engineStep_cases hb
    obtain ⟨-, -, -, hagents⟩ := engineStep_keeps ht
    have hrun (k : Nat) : runSteps (k + 1) s = runSteps k t := runSteps_succ k ((step_of_silent hi hb hops).trans ht)
    by_cases h7 : t.phase = 7#3
    · exact ⟨1, t, by omega, hrun 0, busy_errorPhase h7, .inr h7⟩
    · obtain ⟨hphase, htarget⟩ := hcases.resolve_right h7
      rw [takeStage_phase] at hphase
      rw [takeStage_target] at htarget
      cases hbt : busy t with
      | false => exact ⟨1, t, by omega, hrun 0, hbt, .inl ((hinv.phase_eq_target h7 hbt).trans htarget)⟩
      | true =>
        obtain ⟨k, u, hk, hu, hbu, hend⟩ := ih t hinv hbt (by rw [hagents]; exact hops) (by rw [htarget, hphase]; omega)
        exact ⟨k + 1, u, by omega, (hrun k).trans hu, hbu, htarget ▸ hend⟩

/-! ### STEP by STEP -/

theorem settle_of_not_busy (hb : busy s = false) (n : Nat) : settle n s = .next s := by
  cases n with
  | zero => rfl
  | succ n => simp [settle, hb]

theorem settle_succ_of_next (hb : busy s = true) (h : engineStep s = .next t) : settle (n + 1) s = settle n t := by
  simp [settle, hb, h]

theorem settle_succ_of_fault (hb : busy s = true) (h : engineStep s = .fault f) : settle (n + 1) s = .fault f := by
  simp [settle, hb, h]

theorem execSettled_of_next {i : Instr} (h : exec i s = .next t) : execSettled i s = settle 5 t := by rw [execSettled, h]

/-- In phase ERROR every further STEP is ignored (R125). -/
theorem stepsSettled_errorPhase (h7 : s.phase = 7#3) (n : Nat) : stepsSettled n s = .next s := by
  induction n with
  | zero => rfl
  | succ n ih =>
    have hstep : exec .step s = .next s := by simp [exec_step, h7]
    have hsettled : execSettled .step s = .next s := (execSettled_of_next hstep).trans (settle_of_not_busy (busy_errorPhase h7) 5)
    rw [stepsSettled, hsettled]
    exact ih

/-- R86: a STEP performs the stage that START would perform next, and leaves the same block but for the target. -/
theorem stepsSettled_eq_settle (n : Nat) : ∀ (s : State) (m : Nat), s.phase.toNat + n = 5 → s.target = s.phase → n ≤ m →
    stepsSettled n s = settle m { s with target := 5#3 } := by
  induction n with
  | zero =>
    intro s m hn ht hm
    have hp : s.phase = 5#3 := BitVec.eq_of_toNat_eq hn
    have htarget : s.target = 5#3 := ht.trans hp
    have hsame : { s with target := 5#3 } = s := by rw [← htarget]
    have hb : busy s = false := by simp [busy, ht]
    rw [hsame, settle_of_not_busy hb]
    rfl
  | succ n ih =>
    intro s m hn ht hm
    obtain ⟨m, rfl⟩ : ∃ j, m = j + 1 := ⟨m - 1, by omega⟩
    have h4 : s.phase.toNat ≤ 4 := by omega
    have hphase : BitVec.ofNat 3 (s.phase.toNat + 1) = s.phase + 1#3 :=
      BitVec.eq_of_toNat_eq ((ofNat_phase_succ_toNat h4).trans (phase_add_one h4).symm)
    have hbusyStart : busy { s with target := 5#3 } = true := busy_target_update h4 (Nat.lt_succ_of_le h4)
    have hbusyStep : busy { s with target := s.phase + 1#3 } = true :=
      busy_target_update h4 (by rw [phase_add_one h4]; exact Nat.lt_succ_self _)
    have hexec := execSettled_of_next (exec_step_of_idle (by simp [busy, ht]) h4)
    cases hstage : runStage (s.phase.toNat + 1) s with
    | commit u =>
      have hleft : (BitVec.ofNat 3 (s.phase.toNat + 1)).toNat + n = 5 := by
        rw [ofNat_phase_succ_toNat h4]
        omega
      have hsettled := (hexec.trans (settle_succ_of_next hbusyStep (engineStep_update_of_commit _ _ _ hstage))).trans
        (settle_of_not_busy (by simp [busy, hphase]) 4)
      rw [stepsSettled, hsettled, settle_succ_of_next hbusyStart (engineStep_update_of_commit _ _ _ hstage)]
      exact ih _ m hleft hphase.symm (by omega)
    | raised e =>
      have hsettled := (hexec.trans (settle_succ_of_next hbusyStep (engineStep_update_of_raised _ _ _ hstage))).trans
        (settle_of_not_busy (busy_errorEntry _ _ _ _) 4)
      rw [stepsSettled, hsettled, settle_succ_of_next hbusyStart (engineStep_update_of_raised _ _ _ hstage),
        settle_of_not_busy (busy_errorEntry _ _ _ _)]
      exact stepsSettled_errorPhase rfl n
    | stuck f =>
      have hsettled := hexec.trans (settle_succ_of_fault hbusyStep (engineStep_update_of_stuck _ _ _ hstage))
      rw [stepsSettled, hsettled, settle_succ_of_fault hbusyStart (engineStep_update_of_stuck _ _ _ hstage)]

/-! ### A whole job -/

theorem runSteps_add (h : runSteps m s = .next t) (n : Nat) : runSteps (m + n) s = runSteps n t := by
  induction m generalizing s with
  | zero =>
    obtain rfl := Host.Outcome.next.inj h
    rw [Nat.zero_add]
  | succ m ih =>
    rw [Nat.succ_add, runSteps]
    rw [runSteps] at h
    split at h
    · exact ih h
    · cases h
    · cases h

/-- Of a loaded input the first four stages raise nothing. -/
theorem Inv.runStage_ne_raised (hi : Inv s) (hp : s.phase.toNat ≤ 3) (hne : s.input ≠ []) :
    runStage (s.phase.toNat + 1) s ≠ .raised e := by
  intro h
  rcases runStage_raised h with ⟨hk, rfl, hf⟩ | ⟨hk, rfl⟩ | ⟨hk, rfl, -⟩
  · obtain ⟨-, hst, -⟩ := hi.running (ne_error_of_le_four (by omega))
    obtain ⟨hfreq, -⟩ := hst.counted (by omega)
    exact jobFreq_ne_nil hne (hfreq.symm.trans hf)
  · have hthree : s.phase = 3#3 := BitVec.eq_of_toNat_eq (Nat.succ.inj hk)
    rw [hk] at h
    exact Proofs.lengthOverflowIsUnreachable s hi hthree h
  · omega

/-- A job that is on its way to the last stage, over the given input. -/
structure Started (input : List Symbol) (s : State) : Prop where
  inv : Inv s
  loaded : s.input = input
  target : s.target = 5#3

variable {input : List Symbol}

theorem Started.busy (hs : Started input s) (hp : s.phase.toNat ≤ 4) : Machine.busy s = true :=
  (busy_iff s).2 ⟨ne_error_of_le_four hp, hs.target.symm ▸ Nat.lt_succ_of_le hp⟩

/-- Each of the first four stages succeeds. -/
theorem Started.stage (hs : Started input s) (hne : input ≠ []) (hp : s.phase.toNat ≤ 3) : ∃ t, engineStep (takeStage s) = .next t
    ∧ Started input t ∧ t.phase.toNat = s.phase.toNat + 1 ∧ t.agents = (takeStage s).agents := by
  have hb := hs.busy (by omega)
  obtain ⟨hi, rfl, htarget⟩ := hs
  have hit := hi.takeStage
  cases hstage : runStage (s.phase.toNat + 1) (takeStage s) with
  | stuck f => exact absurd hstage (hit.runStage_ne_stuck hb)
  | raised e => exact absurd hstage (hit.runStage_ne_raised hp hne)
  | commit u =>
    obtain ⟨-, hinput, -, hkept, -, -, -, hagents, -⟩ := otherStoresKept_of_commit hstage (BitVec.ofNat 3 (s.phase.toNat + 1))
    exact ⟨_, engineStep_of_commit rfl hstage, ⟨hit.after_commit hb hstage, hinput, hkept.trans htarget⟩,
      ofNat_phase_succ_toNat (by rw [takeStage_phase]; omega), hagents⟩

/-- The stages that the host leaves to the engine, up to phase 4. -/
theorem Started.runSteps_silent (hne : input ≠ []) (n : Nat) : ∀ s, Started input s → s.agents.ops = [] → s.phase.toNat + n = 4 →
    ∃ t, runSteps n s = .next t ∧ Started input t ∧ t.agents.ops = [] ∧ t.phase = 4#3 := by
  induction n with
  | zero => exact fun s hs hops hn => ⟨s, rfl, hs, hops, BitVec.eq_of_toNat_eq hn⟩
  | succ n ih =>
    intro s hs hops hn
    obtain ⟨t, ht, hst, hphase, hagents⟩ := hs.stage hne (by omega)
    obtain ⟨u, hu, hend⟩ := ih t hst (by rw [hagents]; exact hops) (by omega)
    exact ⟨u, (runSteps_succ n ((step_of_silent hs.inv (hs.busy (by omega)) hops).trans ht)).trans hu, hend⟩

/-- START of an idle block whose host does nothing else. -/
theorem started_of_start (hi : Inv s) (hp : s.phase = 0#3) (hb : busy s = false)
    (hops : s.agents.ops = [.write 32 0x08#12 0x03000000#32]) :
    ∃ t, step s = .next t ∧ Started s.input t ∧ t.agents.ops = [] ∧ t.phase = 0#3 := by
  have hturn : hostsTurn s (.write 32 0x08#12 (encode .start)) [] := hostsTurn_of_not_busy hb hops
  have h0 : (takeOp [] s).phase = 0#3 := (takeOp_phase [] s).trans hp
  have hexec : exec .start (takeOp [] s) = .next (setTarget 5#3 (takeOp [] s)) :=
    exec_start_of_idle (by rw [busy_takeOp, hb]) (by rw [h0]; decide)
  refine ⟨_, (step_of_command hi.legalCap hturn).trans ((runCommand_encode .start _).trans hexec),
    ⟨(hi.takeOp []).after_setTarget ?_ ?_ le_rfl, takeOp_input [] s, rfl⟩, takeOp_agents_ops [] s, h0⟩
  · rw [h0]; decide
  · rw [h0]; decide

/-- In phase 4 the bit string is that of the input. -/
theorem Started.jobBits (hs : Started input s) (hp : s.phase = 4#3) :
    Machine.jobBits input = some s.bits ∧ s.bitLen = BitVec.ofNat 32 s.bits.length := by
  obtain ⟨hi, rfl, -⟩ := hs
  exact (hi.storesAt_of_phase hp (by decide)).serialized le_rfl

/-- How a job ends (R116, R118). -/
theorem Started.lastStage (hs : Started input s) (hp : s.phase = 4#3) : ∃ t, engineStep (takeStage s) = .next t
    ∧ t.bitLen = s.bitLen ∧ t.input = input
    ∧ (s.bits.length % 4 = 0 → jobSucceeded t ∧ t.out = packBits s.bits ∧ busRead 0x10#12 t = 0#32)
    ∧ (s.bits.length % 4 ≠ 0 → jobEnded t ∧ t.phase = 7#3 ∧ t.out = [] ∧ busRead 0x10#12 t = 0x00000502#32) := by
  obtain ⟨hi, rfl, htarget⟩ := hs
  by_cases h4 : s.bits.length % 4 = 0
  · obtain ⟨-, -, hcode, hstage, -⟩ := hi.running (by rw [hp]; decide)
    refine ⟨_, engineStep_pack (s := takeStage s) hp h4, rfl, rfl, fun _ => ⟨⟨⟨?_, .inl rfl⟩, rfl⟩, rfl, ?_⟩,
      fun hne => absurd h4 hne⟩
    · simp [Machine.busy, htarget]
    · show errWord _ = 0#32
      simp [errWord, hcode, hstage]
  · exact ⟨_, engineStep_bitLength (s := takeStage s) hp h4, rfl, rfl, fun he => absurd he h4,
      fun _ => ⟨⟨busy_errorEntry _ _ _ _, .inr rfl⟩, rfl, rfl, busRead_err_errorEntry .bitLength 5#3 0#32 (takeStage s)⟩⟩

end Sys2Proof.Machine

namespace Sys2Proof.Proofs

open Machine

/-- Settles O31: the target is at most five phases away. -/
theorem engineSettlesWithinFiveSteps : Obligations.EngineSettlesWithinFiveSteps := by
  unfold Obligations.EngineSettlesWithinFiveSteps
  intro s hi hb hops
  obtain ⟨-, hlt⟩ := (busy_iff s).1 hb
  have htarget := hi.targetHeld
  obtain ⟨k, t, hk, hend⟩ := engine_settles (s.target.toNat - s.phase.toNat) s hi hb hops (by omega)
  exact ⟨k, t, by omega, hend⟩

/-- Settles O32: each STEP performs the stage that START would perform next. -/
theorem fiveStepsEndLikeOneStart : Obligations.FiveStepsEndLikeOneStart := by
  unfold Obligations.FiveStepsEndLikeOneStart
  intro s hi hp hb
  have h7 : s.phase ≠ 7#3 := by rw [hp]; decide
  have h0 : s.phase.toNat = 0 := by rw [hp]; rfl
  rw [execSettled_of_next (exec_start_of_idle hb (by omega))]
  exact stepsSettled_eq_settle 5 s 5 (by omega) (hi.phase_eq_target h7 hb).symm le_rfl

/-- Settles O55: one step for START, four stages that succeed, and the stage that decides by the length of the bit string. -/
theorem jobResultDependsOnTheInputAlone : Obligations.JobResultDependsOnTheInputAlone := by
  unfold Obligations.JobResultDependsOnTheInputAlone
  intro s hi hp hb hne hops
  obtain ⟨s₀, hstart, hstarted, hops₀, h0⟩ := started_of_start hi hp hb hops
  obtain ⟨s₄, hrun, hst, hops₄, h4⟩ := Started.runSteps_silent hne 4 s₀ hstarted hops₀ (by rw [h0]; rfl)
  obtain ⟨hbits, hlen⟩ := hst.jobBits h4
  obtain ⟨t, hlast, hbitLen, hinput, hend⟩ := hst.lastStage h4
  have hsix : runSteps 6 s = .next t := calc
    runSteps 6 s = runSteps 5 s₀ := runSteps_succ 5 hstart
    _ = runSteps 1 s₄ := runSteps_add hrun 1
    _ = step s₄ := runSteps_one s₄
    _ = .next t := (step_of_silent hst.inv (hst.busy (by rw [h4]; decide)) hops₄).trans hlast
  have hcount (u : State) : busRead 0x18#12 u = BitVec.ofNat 32 u.input.length := rfl
  exact ⟨t, s₄.bits, hsix, hbits, hbitLen.trans hlen, by rw [hcount, hcount, hinput], hend⟩

end Sys2Proof.Proofs
end

section
/-! The race of R141: a START that is written while the stages of a job are pending. -/

namespace Sys2Proof.Machine

variable {s t : State} {input : List Symbol} {ds : List Nat} {d : Nat} {rest : List HostOp}

theorem pendingDelay_of_cons (h : s.agents.delays = d :: ds) : pendingDelay s = d := by simp [pendingDelay, h]

/-- As many stages as zeros are written down come before the host's next access. -/
theorem Started.runSteps_written (hne : input ≠ []) (n : Nat) : ∀ s, Started input s → s.agents.delays = List.replicate n 0 ++ ds →
    s.phase.toNat + n ≤ 4 → ∃ t, runSteps n s = .next t ∧ Started input t ∧ t.phase.toNat = s.phase.toNat + n
      ∧ t.agents.delays = ds ∧ t.agents.ops = s.agents.ops := by
  induction n with
  | zero => exact fun s hs hds _ => ⟨s, rfl, hs, rfl, hds, rfl⟩
  | succ n ih =>
    intro s hs hds hn
    have hturn : enginesTurn s := ⟨hs.busy (by omega), .inr (pendingDelay_of_cons hds)⟩
    obtain ⟨t, ht, hst, hphase, hagents⟩ := hs.stage hne (by omega)
    obtain ⟨u, hu, hsu, hphaseu, hdsu, hopsu⟩ := ih t hst (by rw [hagents, takeStage_agents, hds]; rfl) (by omega)
    exact ⟨u, (runSteps_succ n ((step_of_enginesTurn hs.inv.legalCap hturn).trans ht)).trans hu, hsu, by omega, hdsu,
      hopsu.trans (by rw [hagents]; rfl)⟩

theorem takeOp_eq_update (rest : List HostOp) (s : State) : takeOp rest s = { s with agents := (takeOp rest s).agents } := by
  unfold takeOp
  split <;> rfl

theorem step_of_start (hl : Config.legalInCap s.inCap = true) (hturn : hostsTurn s (.write 32 0x08#12 0x03000000#32) rest) :
    ∃ a, step s = exec .start { s with agents := a } :=
  ⟨(takeOp rest s).agents, (step_of_command hl hturn).trans ((runCommand_encode .start _).trans (by rw [← takeOp_eq_update]))⟩

/-- A START that comes too early. -/
theorem start_while_busy (hl : Config.legalInCap s.inCap = true) (hturn : hostsTurn s (.write 32 0x08#12 0x03000000#32) rest)
    (hb : busy s = true) : ∃ a, step s = .next (errorEntry .busy 0#3 0x03000000#32 { s with agents := a }) := by
  obtain ⟨a, hstep⟩ := step_of_start hl hturn
  obtain ⟨h7, -⟩ := (busy_iff s).1 hb
  have hbusy : busy { s with agents := a } = true := hb
  refine ⟨a, hstep.trans ?_⟩
  rw [exec_start, if_neg h7, if_pos hbusy]
  rfl

/-- A START that comes too late. -/
theorem start_when_done (hl : Config.legalInCap s.inCap = true) (hturn : hostsTurn s (.write 32 0x08#12 0x03000000#32) rest)
    (hb : busy s = false) (h5 : s.phase = 5#3) :
    ∃ a, step s = .next (errorEntry .sequence 0#3 0x03000000#32 { s with agents := a }) := by
  obtain ⟨a, hstep⟩ := step_of_start hl hturn
  have hidle : ¬ busy { s with agents := a } = true := Bool.not_eq_true _ ▸ hb
  have h7 : s.phase ≠ 7#3 := by rw [h5]; decide
  have hlate : 4 < s.phase.toNat := by rw [h5]; decide
  refine ⟨a, hstep.trans ?_⟩
  rw [exec_start, if_neg h7, if_neg hidle, if_pos hlate]
  rfl

/-- The block of R141: 'a' loaded and START performed. -/
theorem started_race (a : Agents) :
    Started [0x61#21] { State.reset with input := [0x61#21], target := 5#3, agents := a } where
  inv := (((inv_clearJob (s := State.reset) rfl).after_load (c := 0x61#21) rfl rfl (by decide)).after_setTarget (p := 5#3)
    (by decide) (by decide) (by decide)).after_outPtr_agents 0#32 a
  loaded := rfl
  target := rfl

/-- Its bit string: 32 bits of header, one entry with the empty code, no body (R106, R114). -/
theorem race_bits_length {bits : List Bool} (h : jobBits [0x61#21] = some bits) : bits.length = 48 := by
  have hlen : (jobBits [0x61#21]).map List.length = some 48 := by decide
  rw [h] at hlen
  exact Option.some.inj hlen

end Sys2Proof.Machine

namespace Sys2Proof.Proofs

open Machine

/-- Settles O28: the delays place five stages or fewer first, and what START finds then is a finished job or a pending stage. -/
theorem raceAdmitsBothOutcomes : Obligations.RaceAdmitsBothOutcomes := by
  unfold Obligations.RaceAdmitsBothOutcomes
  intro s hs
  have hne : [0x61#21] ≠ [] := List.cons_ne_nil _ _
  have hstarted : Started [0x61#21] s := hs ▸ started_race _
  have h0 : s.phase.toNat = 0 := by rw [hs]; rfl
  have hops : s.agents.ops = [.write 32 0x08#12 0x03000000#32] := by rw [hs]
  refine ⟨fun hds => ?_, fun k hk hds => ?_⟩
  · obtain ⟨s₄, hrun, hst, hphase, hds₄, hops₄⟩ := Started.runSteps_written (ds := [0]) hne 4 s hstarted hds (by omega)
    have h4 : s₄.phase = 4#3 := BitVec.eq_of_toNat_eq (by rw [hphase, h0]; rfl)
    obtain ⟨hbits, -⟩ := hst.jobBits h4
    obtain ⟨u, hu, -, -, hdone, -⟩ := hst.lastStage h4
    obtain ⟨⟨⟨hb, -⟩, h5⟩, -, -⟩ := hdone (by rw [race_bits_length hbits])
    obtain ⟨-, -, hcap, hagents⟩ := engineStep_keeps hu
    have hfifth : step s₄ = .next u := (step_of_enginesTurn hst.inv.legalCap
      ⟨hst.busy (by rw [h4]; decide), .inr (pendingDelay_of_cons hds₄)⟩).trans hu
    have hfive : runSteps 5 s = .next u := (runSteps_add hrun 1).trans ((runSteps_one s₄).trans hfifth)
    have hturn : hostsTurn u (.write 32 0x08#12 0x03000000#32) [] :=
      hostsTurn_of_not_busy hb (by rw [hagents]; exact hops₄.trans hops)
    obtain ⟨a, hsixth⟩ := start_when_done (hcap ▸ hst.inv.legalCap) hturn hb h5
    exact ⟨u, _, hfive, h5, (runSteps_add hfive 1).trans ((runSteps_one u).trans hsixth),
      busRead_err_errorEntry .sequence 0#3 _ _, rfl, rfl, rfl⟩
  · obtain ⟨u, hrun, hst, hphase, hdsu, hopsu⟩ := Started.runSteps_written (ds := [1]) hne k s hstarted hds (by omega)
    have hb := hst.busy (by omega)
    have hturn : hostsTurn u (.write 32 0x08#12 0x03000000#32) [] :=
      ⟨hopsu.trans hops, fun _ => by rw [pendingDelay_of_cons hdsu]; decide⟩
    obtain ⟨a, hlast⟩ := start_while_busy hst.inv.legalCap hturn hb
    exact ⟨u, _, hrun, by omega, (runSteps_add hrun 1).trans ((runSteps_one u).trans hlast),
      busRead_err_errorEntry .busy 0#3 _ _, rfl, rfl, rfl, rfl, rfl, rfl, rfl, rfl, rfl, rfl, rfl⟩

end Sys2Proof.Proofs
end

section
/-! Host programs (R79, R80): LOAD_STR and READ_OUT run on an idle block one access a step, and what each line stands for. -/

namespace Sys2Proof.Machine

variable {s : State} {rest : List HostOp} {c : Char} {cp : Symbol} {m n : Nat}

theorem exec_loadSym_of_room (hp : s.phase = 0#3) (hb : busy s = false) (hc : isScalar cp = true) (hroom : s.input.length ≠ s.inCap) :
    exec (.loadSym cp) s = .next { s with input := s.input ++ [cp] } := by
  have hscalar : ¬ (0x10FFFF < cp.toNat ∨ (0xD800 ≤ cp.toNat ∧ cp.toNat ≤ 0xDFFF)) := by
    rw [← isScalar_eq_false_iff, hc]
    decide
  have h7 : s.phase ≠ 7#3 := by rw [hp]; decide
  rw [exec_loadSym, if_neg h7, if_neg (by simp [hb]), if_neg (by simp [hp]), if_neg hscalar, if_neg hroom]

/-- Every character is a Unicode scalar value (R14). -/
theorem char_scalar (c : Char) : c.toNat ≤ 0x10FFFF ∧ ¬ (0xD800 ≤ c.toNat ∧ c.toNat ≤ 0xDFFF) := by
  have hvalid : c.toNat < 0xD800 ∨ (0xDFFF < c.toNat ∧ c.toNat < 0x110000) := c.valid
  omega

theorem char_symbol_toNat (c : Char) : (BitVec.ofNat 21 c.toNat).toNat = c.toNat := by
  obtain ⟨hmax, -⟩ := char_scalar c
  rw [BitVec.toNat_ofNat]
  omega

theorem isScalar_char (c : Char) : isScalar (BitVec.ofNat 21 c.toNat) = true := by
  obtain ⟨hmax, hsur⟩ := char_scalar c
  rw [← Bool.not_eq_false, isScalar_eq_false_iff, char_symbol_toNat]
  omega

/-- `s` with the symbols of a text loaded and `rest` left for the host to do. -/
def withText (text : List Char) (rest : List HostOp) (s : State) : State :=
  { s with input := s.input ++ text.map (fun c => BitVec.ofNat 21 c.toNat), agents := { s.agents with ops := rest } }

/-- One LOAD_SYM of LOAD_STR. -/
theorem step_of_loadSym (hl : Config.legalInCap s.inCap = true) (hp : s.phase = 0#3) (hb : busy s = false)
    (hroom : s.input.length ≠ s.inCap) (hops : s.agents.ops = loadSymOp c.toNat :: rest) : step s = .next (withText [c] rest s) := by
  have hturn : hostsTurn s (.write 32 0x08#12 (encode (.loadSym (BitVec.ofNat 21 c.toNat)))) rest := hostsTurn_of_not_busy hb hops
  rw [step_of_command hl hturn, runCommand_encode, takeOp_of_not_busy hb]
  exact exec_loadSym_of_room (s := setOps rest s) hp hb (isScalar_char c) hroom

theorem runSteps_loadStr (text : List Char) : ∀ s : State, Config.legalInCap s.inCap = true → s.phase = 0#3 → busy s = false →
    s.input.length + text.length ≤ s.inCap → s.agents.ops = loadStrOps text ++ rest →
    runSteps text.length s = .next (withText text rest s) := by
  induction text with
  | nil =>
    intro s _ _ _ _ hops
    have hrest : s.agents.ops = rest := hops
    rw [withText, ← hrest, List.map_nil, List.append_nil]
    rfl
  | cons c text ih =>
    intro s hl hp hb hfits hops
    rw [List.length_cons] at hfits
    have hfits' : (withText [c] (loadStrOps text ++ rest) s).input.length + text.length ≤ s.inCap := by
      simp only [withText, List.map_cons, List.map_nil, List.length_append, List.length_singleton]
      omega
    calc runSteps (text.length + 1) s
      _ = runSteps text.length (withText [c] (loadStrOps text ++ rest) s) :=
        runSteps_succ _ (step_of_loadSym hl hp hb (by omega) hops)
      _ = .next (withText text rest (withText [c] (loadStrOps text ++ rest) s)) := ih _ hl hp hb hfits' rfl
      _ = .next (withText (c :: text) rest s) := by simp [withText]

/-- What a read of OUT_DATA binds for the byte `b` (R34). -/
def validRead (b : Byte) : Word := 0x80000000#32 ||| b.setWidth 32

/-- `s` with the output index at `i`, `rest` left for the host to do and `vs` bound. -/
def withReads (i : Word) (vs : List Word) (rest : List HostOp) (s : State) : State :=
  { s with outPtr := i, agents := { s.agents with ops := rest, vars := s.agents.vars ++ vs } }

theorem step_of_outPtrWrite {v : Word} (hl : Config.legalInCap s.inCap = true) (hb : busy s = false)
    (hops : s.agents.ops = .write 32 0x28#12 v :: rest) : step s = .next (withReads v [] rest s) := by
  rw [step_of_hostsTurn hl (hostsTurn_of_not_busy hb hops), takeOp_of_not_busy hb, withReads, List.append_nil]
  rfl

theorem step_of_outDataRead (hl : Config.legalInCap s.inCap = true) (hp : s.phase = 5#3) (hb : busy s = false)
    (hindex : s.outPtr.toNat < s.out.length) (hops : s.agents.ops = .read 32 0x2C#12 :: rest) :
    step s = .next (withReads s.outPtr [validRead (s.out.getD s.outPtr.toNat 0#8)] rest s) := by
  have hread : busRead 0x2C#12 s = validRead (s.out.getD s.outPtr.toNat 0#8) := (outDataWord_eq s).trans (if_pos ⟨hp, hindex⟩)
  rw [step_of_read hl rfl (hostsTurn_of_not_busy hb hops), takeOp_of_not_busy hb, hread]
  rfl

/-- One turn of READ_OUT: the index is written, then the byte is read. -/
theorem runSteps_readOutAt (hl : Config.legalInCap s.inCap = true) (hp : s.phase = 5#3) (hb : busy s = false)
    (hm : m < s.out.length) (hout : s.out.length < 2 ^ 32) (hops : s.agents.ops = readOutAt m ++ rest) :
    runSteps 2 s = .next (withReads (BitVec.ofNat 32 m) [validRead (s.out.getD m 0#8)] rest s) := by
  have hindex : (BitVec.ofNat 32 m).toNat = m := by
    rw [BitVec.toNat_ofNat]
    omega
  have hwrite := step_of_outPtrWrite hl hb hops
  have hread := step_of_outDataRead (s := withReads (BitVec.ofNat 32 m) [] (.read 32 0x2C#12 :: rest) s) hl hp hb
    (hindex.trans_lt hm) rfl
  calc runSteps 2 s
    _ = step (withReads (BitVec.ofNat 32 m) [] (.read 32 0x2C#12 :: rest) s) := (runSteps_succ 1 hwrite).trans (runSteps_one _)
    _ = _ := hread
    _ = .next (withReads (BitVec.ofNat 32 m) [validRead (s.out.getD m 0#8)] rest s) := by simp [withReads, hindex]

/-- READ_OUT of any indices in range, one after the other. -/
theorem runSteps_readOut (ms : List Nat) : ∀ s : State, Config.legalInCap s.inCap = true → s.phase = 5#3 → busy s = false →
    s.out.length < 2 ^ 32 → (∀ m ∈ ms, m < s.out.length) → s.agents.ops = ms.flatMap readOutAt ++ rest →
    ∃ i, runSteps (2 * ms.length) s = .next (withReads i (ms.map fun m => validRead (s.out.getD m 0#8)) rest s) := by
  induction ms with
  | nil =>
    intro s _ _ _ _ _ hops
    have hrest : s.agents.ops = rest := hops
    refine ⟨s.outPtr, ?_⟩
    rw [withReads, ← hrest, List.map_nil, List.append_nil]
    rfl
  | cons m ms ih =>
    intro s hl hp hb hout hms hops
    obtain ⟨hm, hms⟩ := List.forall_mem_cons.1 hms
    rw [List.flatMap_cons, List.append_assoc] at hops
    have hturn := runSteps_readOutAt hl hp hb hm hout hops
    obtain ⟨i, hi⟩ := ih (withReads (BitVec.ofNat 32 m) [validRead (s.out.getD m 0#8)] (ms.flatMap readOutAt ++ rest) s) hl hp hb
      hout hms rfl
    refine ⟨i, ?_⟩
    calc runSteps (2 * (ms.length + 1)) s
      _ = runSteps (2 + 2 * ms.length) s := by rw [Nat.mul_add, Nat.add_comm]
      _ = _ := (runSteps_add hturn _).trans hi
      _ = .next (withReads i ((m :: ms).map fun m => validRead (s.out.getD m 0#8)) rest s) := by simp [withReads]

theorem map_getD_range {α β : Type} (l : List α) (a : α) (g : α → β) (h : n ≤ l.length) :
    (List.range n).map (fun m => g (l.getD m a)) = (l.take n).map g := by
  apply List.ext_getElem
  · simp [h]
  · intro j hj _
    have hj : j < n := by simpa using hj
    simp [hj.trans_le h]

/-! ### The lines of the assembler -/

theorem regOffset_aligned (r : Reg) : WellFormed.access 32 (regOffset r) = true := by cases r <;> decide

@[simp] theorem wellFormed_regRead (r : Reg) : WellFormed.hostOp (.read 32 (regOffset r)) = true := regOffset_aligned r

@[simp] theorem wellFormed_regWrite (r : Reg) (v : Word) : WellFormed.hostOp (.write 32 (regOffset r) v) = true := regOffset_aligned r

@[simp] theorem wellFormed_regPoll (r : Reg) (mask val : Word) : WellFormed.hostOp (.poll (regOffset r) mask val) = true :=
  regOffset_aligned r

/-- The word of LOAD_SYM as the number that R79 gives. -/
theorem encode_loadSym_eq (h : n < 2 ^ 21) : encode (.loadSym (BitVec.ofNat 21 n)) = BitVec.ofNat 32 (0x02000000 + n) := by
  apply BitVec.eq_of_toNat_eq
  rw [encode_loadSym_toNat, BitVec.toNat_ofNat, BitVec.toNat_ofNat]
  omega

theorem loadStrOps_eq (text : List Char) :
    loadStrOps text = text.map fun c => .write 32 0x08#12 (BitVec.ofNat 32 (0x02000000 + c.toNat)) := by
  refine List.map_congr_left fun c _ => ?_
  obtain ⟨hmax, -⟩ := char_scalar c
  rw [loadSymOp, encode_loadSym_eq (by omega)]
  rfl

theorem readOutOps_succ (n : Nat) : readOutOps (n + 1) = readOutOps n ++ readOutAt n := by
  simp [readOutOps, List.range_succ]

theorem readOutOps_length (n : Nat) : (readOutOps n).length = 2 * n := by
  induction n with
  | zero => rfl
  | succ n ih =>
    rw [readOutOps_succ, List.length_append, ih]
    rfl

/-- Access 2m writes the index m, and the one behind it reads the byte. -/
theorem readOutOps_getElem? (n : Nat) (h : m < n) : (readOutOps n)[2 * m]? = some (.write 32 0x28#12 (BitVec.ofNat 32 m))
    ∧ (readOutOps n)[2 * m + 1]? = some (.read 32 0x2C#12) := by
  induction n with
  | zero => exact absurd h (Nat.not_lt_zero m)
  | succ n ih =>
    have hlen := readOutOps_length n
    rw [readOutOps_succ]
    rcases Nat.lt_succ_iff_lt_or_eq.1 h with hlt | rfl
    · rw [List.getElem?_append_left (by omega), List.getElem?_append_left (by omega)]
      exact ih hlt
    · rw [List.getElem?_append_right (by omega), List.getElem?_append_right (by omega), hlen, Nat.sub_self, Nat.add_sub_cancel_left]
      exact ⟨rfl, rfl⟩

/-- Every line that is taken stands for accesses of the interface contract (R56). -/
theorem assemble_wellFormed {l : AsmLine} {ops : List HostOp} (h : assemble l = some ops) : ∀ op ∈ ops, WellFormed.hostOp op = true := by
  cases l with
  | loadSym cp =>
    rw [assemble] at h
    split at h
    · cases h
      simp [loadSymOp, cmdWrite]
    · cases h
  | loadStr text =>
    cases h
    simp [loadStrOps, loadSymOp, cmdWrite]
  | readOut n =>
    cases h
    intro op hop
    obtain ⟨m, -, hm⟩ := List.mem_flatMap.1 hop
    have hops : ∀ op ∈ readOutAt m, WellFormed.hostOp op = true := by simp [readOutAt]
    exact hops op hm
  | rd | wr | poll | nop | clear | start | step | cmd | wait | run =>
    cases h
    simp [cmdWrite, waitOp]

theorem exists_assemble_iff (l : AsmLine) : WellFormed.asmLine l = true ↔ ∃ ops, assemble l = some ops := by
  cases l with
  | loadSym cp => simp [WellFormed.asmLine, assemble]
  | _ => exact ⟨fun _ => ⟨_, rfl⟩, fun _ => rfl⟩

theorem assembleAll_cons (l : AsmLine) (ls : List AsmLine) :
    assembleAll (l :: ls) = (assemble l).bind fun a => (assembleAll ls).map fun b => a ++ b := by
  rw [assembleAll]
  cases assemble l with
  | none => rfl
  | some a => cases assembleAll ls <;> rfl

end Sys2Proof.Machine

namespace Sys2Proof.Proofs

open Machine

/-- Settles O56: each access loads the next character. -/
theorem loadStrLoadsTheText : Obligations.LoadStrLoadsTheText := by
  unfold Obligations.LoadStrLoadsTheText
  exact fun text s rest => runSteps_loadStr text s

/-- Settles O57: each index in range reads its byte. -/
theorem readOutReadsTheOutput : Obligations.ReadOutReadsTheOutput := by
  unfold Obligations.ReadOutReadsTheOutput
  intro n s rest hl hp hb hn hout hops
  obtain ⟨i, hrun⟩ := runSteps_readOut (List.range n) s hl hp hb hout (fun m hm => (List.mem_range.1 hm).trans_le hn) hops
  rw [List.length_range, map_getD_range s.out 0#8 validRead hn] at hrun
  exact ⟨_, hrun, rfl, rfl, rfl⟩

/-- Settles O58: the table of lines, one by one. -/
theorem assemblerRefusesOnlyOversizedSymbols : Obligations.AssemblerRefusesOnlyOversizedSymbols := by
  unfold Obligations.AssemblerRefusesOnlyOversizedSymbols
  refine ⟨fun l => ⟨exists_assemble_iff l, fun ops h => assemble_wellFormed h⟩, rfl, fun r => rfl, fun r imm => rfl, rfl, rfl,
    fun cp hcp => ?_, fun cp hcp => if_neg (by omega), rfl, rfl, fun imm => rfl, fun text => congrArg some (loadStrOps_eq text),
    fun r mask val => rfl, rfl, rfl, fun n ops _ h => ?_, rfl, assembleAll_cons⟩
  · rw [assemble, if_pos hcp, loadSymOp, encode_loadSym_eq (by omega)]
    rfl
  · obtain rfl := Option.some.inj h
    exact ⟨readOutOps_length n, fun m hm => readOutOps_getElem? n hm⟩

end Sys2Proof.Proofs
end

section
/-! The runs of the machine and the interleavings of the two agents (R65, R66): each move of an agent is a step under some delays, and
each step that is not idle is a move. -/

namespace Sys2Proof.Machine

variable {s t : State} {a : Agent} {r : Result} {ds : List Nat} {n d : Nat} {op : HostOp} {rest : List HostOp}

theorem moveOf_host (hops : s.agents.ops = op :: rest) : moveOf .host s = some (hostAccess op (setOps rest s)) := by
  simp [moveOf, hops]

theorem moveOf_engine (hb : busy s = true) : moveOf .engine s = some (engineStep s) := by simp [moveOf, hb]

/-! ### From a move to a step -/

theorem step_engine_withTurns (hl : Config.legalInCap s.inCap = true) (hb : busy s = true) (ds : List Nat) (n : Nat) :
    step (withTurns (0 :: ds) n s) = withTurnsOf ds n (engineStep s) := by
  rw [step_of_enginesTurn (s := withTurns (0 :: ds) n s) hl ⟨hb, .inr rfl⟩, ← engineStep_withTurns]
  rfl

theorem step_host_withTurns (hl : Config.legalInCap s.inCap = true) (hb : busy s = true) (hops : s.agents.ops = op :: rest)
    (d : Nat) (ds : List Nat) (n : Nat) :
    step (withTurns ((d + 1) :: ds) n s) = withTurnsOf (d :: ds) n (hostAccess op (setOps rest s)) := by
  have htake : takeOp rest (withTurns ((d + 1) :: ds) n s) = withTurns (d :: ds) n (setOps rest s) := by
    rw [takeOp, withTurns_busy, if_pos hb]
    rfl
  rw [step_of_hostsTurn (s := withTurns ((d + 1) :: ds) n s) hl ⟨hops, fun _ => Nat.succ_ne_zero d⟩, htake, hostAccess_withTurns]

theorem step_host_withTurns_of_not_busy (hl : Config.legalInCap s.inCap = true) (hb : busy s = false)
    (hops : s.agents.ops = op :: rest) (ds : List Nat) (n : Nat) :
    step (withTurns ds n s) = withTurnsOf ds n (hostAccess op (setOps rest s)) := by
  rw [step_of_hostsTurn (s := withTurns ds n s) hl (hostsTurn_of_not_busy hb hops),
    takeOp_of_not_busy (s := withTurns ds n s) hb, ← withTurns_setOps, hostAccess_withTurns]

/-- A move is the step under delays that leave any given non-empty account for what comes after. -/
theorem exists_delays_of_move (hl : Config.legalInCap s.inCap = true) (h : moveOf a s = some r) (d : Nat) (ds : List Nat) :
    ∃ d' ds', ∀ n, step (withTurns (d' :: ds') n s) = withTurnsOf (d :: ds) n r := by
  cases a with
  | engine =>
    cases hb : busy s with
    | false => simp [moveOf, hb] at h
    | true =>
      obtain rfl := Option.some.inj ((moveOf_engine hb).symm.trans h)
      exact ⟨0, d :: ds, step_engine_withTurns hl hb (d :: ds)⟩
  | host =>
    rcases hops : s.agents.ops with _ | ⟨op, rest⟩
    · simp [moveOf, hops] at h
    · obtain rfl := Option.some.inj ((moveOf_host hops).symm.trans h)
      cases hb : busy s with
      | false => exact ⟨d, ds, step_host_withTurns_of_not_busy hl hb hops (d :: ds)⟩
      | true => exact ⟨d + 1, ds, step_host_withTurns hl hb hops d ds⟩

/-- Every order of moves is the order of the machine's steps under some delays. -/
theorem exists_delays_of_order (order : List Agent) : ∀ (s : State) (r : Result), Config.legalInCap s.inCap = true →
    runMoves order s = some r →
    ∃ d ds, ∀ n, withTurnsOf [] 0 (runSteps order.length (withTurns (d :: ds) n s)) = withTurnsOf [] 0 r := by
  induction order with
  | nil =>
    intro s r hl h
    obtain rfl := Option.some.inj h
    exact ⟨0, [], fun n => rfl⟩
  | cons a order ih =>
    intro s r hl h
    rw [runMoves] at h
    cases hmove : moveOf a s with
    | none => simp [hmove] at h
    | some r₁ =>
      rw [hmove] at h
      cases r₁ with
      | next t =>
        obtain ⟨d, ds, hrest⟩ := ih t r (moveOf_inCap hmove ▸ hl) h
        obtain ⟨d', ds', hstep⟩ := exists_delays_of_move hl hmove d ds
        exact ⟨d', ds', fun n => (congrArg _ (runSteps_succ _ (hstep n))).trans (hrest n)⟩
      | fault f =>
        obtain rfl := Option.some.inj h
        obtain ⟨d', ds', hstep⟩ := exists_delays_of_move hl hmove 0 []
        exact ⟨d', ds', fun n => by rw [List.length_cons, runSteps, hstep n]; rfl⟩
      | refused f =>
        obtain rfl := Option.some.inj h
        obtain ⟨d', ds', hstep⟩ := exists_delays_of_move hl hmove 0 []
        exact ⟨d', ds', fun n => by rw [List.length_cons, runSteps, hstep n]; rfl⟩

/-! ### From a step to a move -/

theorem takeStage_eq_withTurns (s : State) : takeStage s = withTurns s.agents.delays.tail (drawsAfter s) s := rfl

theorem exists_takeOp_eq_withTurns (rest : List HostOp) (s : State) : ∃ ds n, takeOp rest s = withTurns ds n (setOps rest s) := by
  unfold takeOp
  split
  · exact ⟨_, _, rfl⟩
  · exact ⟨s.agents.delays, s.agents.draws, rfl⟩

/-- A step of a block that is not idle is a move of one of the agents. -/
theorem exists_move_of_step (hl : Config.legalInCap s.inCap = true) (h : ¬ idle s) :
    ∃ a r ds n, moveOf a s = some r ∧ step s = withTurnsOf ds n r := by
  rcases turn_cases s with hidle | ht | ⟨op, rest, ht⟩
  · exact absurd hidle h
  · exact ⟨.engine, _, _, _, moveOf_engine ht.1, by
      rw [step_of_enginesTurn hl ht, takeStage_eq_withTurns, engineStep_withTurns]⟩
  · obtain ⟨ds, n, htake⟩ := exists_takeOp_eq_withTurns rest s
    exact ⟨.host, _, ds, n, moveOf_host ht.1, by rw [step_of_hostsTurn hl ht, htake, hostAccess_withTurns]⟩

theorem runSteps_idle (hl : Config.legalInCap s.inCap = true) (h : idle s) (k : Nat) : runSteps k s = .next s := by
  induction k with
  | zero => rfl
  | succ k ih => exact (runSteps_succ k (step_of_idle hl h)).trans ih

/-- An answer after which the machine does not go on: the block is idle, or there is no next state. -/
def stopped (r : Result) : Prop := (∃ t, r = .next t ∧ idle t) ∨ ∀ t, r ≠ .next t

theorem stopped_withTurnsOf_iff : stopped (withTurnsOf ds n r) ↔ stopped r := by
  cases r with
  | next t => simp [stopped, idle]
  | fault f => simp [stopped]
  | refused f => simp [stopped]

/-- Every run of the machine is an order of moves. -/
theorem exists_order_of_run (k : Nat) : ∀ s : State, Config.legalInCap s.inCap = true → ∃ order r, runMoves order s = some r
    ∧ withTurnsOf [] 0 r = withTurnsOf [] 0 (runSteps k s) ∧ order.length ≤ k ∧ (order.length < k → stopped r) := by
  induction k with
  | zero => exact fun s _ => ⟨[], .next s, rfl, rfl, le_rfl, fun h => absurd h (Nat.lt_irrefl 0)⟩
  | succ k ih =>
    intro s hl
    by_cases hidle : idle s
    · exact ⟨[], .next s, rfl, by rw [runSteps_idle hl hidle], Nat.zero_le _, fun _ => .inl ⟨s, rfl, hidle⟩⟩
    · obtain ⟨a, r₁, ds, n, hmove, hstep⟩ := exists_move_of_step hl hidle
      cases r₁ with
      | next t =>
        obtain ⟨order, r', hrun, herase, hlen, hstop⟩ := ih (withTurns ds n t) (moveOf_inCap hmove ▸ hl)
        rw [runMoves_withTurns, Option.map_eq_some_iff] at hrun
        obtain ⟨r, hr, rfl⟩ := hrun
        rw [stopped_withTurnsOf_iff] at hstop
        refine ⟨a :: order, r, by rw [runMoves, hmove]; exact hr, ?_, Nat.succ_le_succ hlen,
          fun h => hstop (Nat.lt_of_succ_lt_succ h)⟩
        rw [runSteps_succ k hstep, ← herase, withTurnsOf_withTurnsOf]
      | fault f =>
        exact ⟨[a], .fault f, by rw [runMoves, hmove], by rw [runSteps, hstep]; rfl, by simp, fun _ => .inr nofun⟩
      | refused f =>
        exact ⟨[a], .refused f, by rw [runMoves, hmove], by rw [runSteps, hstep]; rfl, by simp, fun _ => .inr nofun⟩

end Sys2Proof.Machine

namespace Sys2Proof.Proofs

open Machine

/-- Settles O60: delays for an order are put together from its end, and the order of a run from its beginning. -/
theorem runsAreTheInterleavings : Obligations.RunsAreTheInterleavings := by
  unfold Obligations.RunsAreTheInterleavings
  intro s hl
  simp only [eraseTurnsOf_eq, withDelays_eq]
  refine ⟨fun order r h => ?_, fun k => exists_order_of_run k s hl⟩
  obtain ⟨d, ds, hds⟩ := exists_delays_of_order order s r hl h
  exact ⟨d :: ds, hds s.agents.draws⟩

end Sys2Proof.Proofs
end
